-- ==== Sys2Proof/Word.lean ====
section
/-! DEFINITION. The machine's two units of data (spec/00_scope.md R20: "A byte is 8 bits. A word is 32 bits.") and
the width of a register index (spec/30_encoding.md R301). -/

namespace Sys2Proof

/-- A byte: the smallest addressable unit (R20). -/
abbrev Byte := BitVec 8

/-- A word: a unit of instruction or data, and an address (R20, R10). -/
abbrev Word := BitVec 32

/-- A general register's index, 0 to 31, as the fields `rs`, `rt` and `rd` hold it (R301). -/
abbrev RegIndex := BitVec 5

end Sys2Proof
end

