-- ==== Sys2Proof/Config.lean ====
section
/-! DEFINITION. The parameters the source leaves open (spec/00_scope.md R10, second table). They are fixed at
construction and no instruction reads or writes them (spec/10_state.md R107); State carries them as plain data, so
a claim about every state is a claim about every configuration. -/

namespace Sys2Proof

/-- `WA_FILL` (R10, R222, D11): what a write miss does with the other 31 bytes of the line it allocates. -/
inductive WaFill where
  /-- The reference behaviour and R10's default: the line keeps the victim way's bytes (R223). -/
  | noFill
  /-- The line is filled from Memory before the byte is written. -/
  | fill
deriving DecidableEq, Repr

/-- The parameters of R10. -/
structure Config where
  /-- `MEM_SIZE`: size in bytes of the backing Memory (D4). -/
  memSize : Nat
  /-- `START`: initial pc and load address (D5). -/
  start : Word
  /-- `SP_INIT`: initial value of register 29 (D6). -/
  spInit : Word
  /-- `HALT_ADDR`: the sentinel `run` compares pc with (D7). -/
  haltAddr : Word
  /-- `MAX_STEPS`: the safety bound of `run` (D8). -/
  maxSteps : Nat
  /-- `RESULT_REG`: the register an observer reads at a graceful end (D10). -/
  resultReg : RegIndex
  /-- `WA_FILL` (D11). -/
  waFill : WaFill
  /-- `FLUSH_COUNTS_WB`: whether `flush` counts its write-backs (D15). -/
  flushCountsWb : Bool
deriving DecidableEq, Repr

/-- DESIGN CHOICE (notes/assumptions/1.md and 2.md; unsafe): the configuration of `State.reset`, the default example
configuration of spec/95_test_vectors.md. The spec leaves every one of these values open. -/
def Config.specExample : Config :=
  { memSize := 0x10000
    start := 0x00000000#32
    spInit := 0x0000FFF0#32
    haltAddr := 0xFFFFFFFC#32
    maxSteps := 100000
    resultReg := 4#5
    waFill := .noFill
    flushCountsWb := false }

end Sys2Proof
end

