-- ==== Sys2Proof/Machine/State.lean ====
section
/-! DEFINITION. The state of the core as plain data (spec/10_state.md R100, R110 to R114), the reasons a step can
stop, and the state after construction (R120). -/

namespace Sys2Proof.Machine

/-- One cache line (R110). -/
structure CacheLine where
  valid : Bool
  dirty : Bool
  /-- `lineIndex / 64` of the block the line holds; undefined, and never read, while the line is invalid (R111). -/
  tag : Nat
  data : Vector Byte 32
  /-- The last-access timestamp. -/
  ts : Nat
deriving DecidableEq, Repr

/-- A line that has never been allocated (R120, D14). -/
def CacheLine.fresh : CacheLine :=
  { valid := false, dirty := false, tag := 0, data := Vector.replicate 32 0, ts := 0 }

/-- The cache: 64 sets of 4 ways, the access counter and the cache statistics (R110). -/
structure Cache where
  sets : Vector (Vector CacheLine 4) 64
  accessCounter : Nat
  hits : Nat
  misses : Nat
  writebacks : Nat
deriving DecidableEq, Repr

/-- The cache of a new core (R120). -/
def Cache.fresh : Cache :=
  { sets := Vector.replicate 64 (Vector.replicate 4 .fresh)
    accessCounter := 0, hits := 0, misses := 0, writebacks := 0 }

/-- The backing Memory (R114): the cells that hold a byte other than 0, addresses strictly rising. An address that is
not listed reads 0 ("zero-initialized"). -/
abbrev Memory := List Host.Cell

/-- The canonical form of `Memory`: addresses strictly rising and no cell equal to what an unlisted address reads as. -/
abbrev Memory.wf (mem : Memory) : Prop :=
  mem.Pairwise (fun p q => p.1 < q.1) ∧ ∀ p ∈ mem, p.2 ≠ 0#8

/-- The cache and the Memory behind it, which the core owns together (R100). -/
structure MemSys where
  cache : Cache
  mem : Memory
deriving DecidableEq, Repr

/-- An event of the output channel (spec/44_syscall.md R801). -/
inductive Event where
  /-- `PrintInt(n)`, `n` a signed 32-bit integer (R802). -/
  | printInt (n : Int)
  /-- `PrintString(bytes)`, a finite list of non-zero bytes (R803). -/
  | printString (bytes : List Byte)
  /-- `PrintChar(b)` (R805). -/
  | printChar (b : Byte)
deriving DecidableEq, Repr

/-- What the last step returned (spec/40_execution_step.md R400, D32). A field of the MODEL's own, not the spec's:
`Host.Outcome.next` carries a state and nothing else (notes/assumptions/4.md). -/
inductive StepResult where
  /-- No step has run since construction (R1001 lets `load` run only here). -/
  | notStarted
  /-- `Continue(t)`: the instruction completed; `t` says whether a control transfer occurred. -/
  | continued (transferred : Bool)
  /-- `ProgramEnd`: the terminal success of syscall code 10 (spec/60_exceptions.md R900, R904). -/
  | programEnd
  /-- The step ended with a fault; the fault's record is in the outcome. -/
  | faulted
deriving DecidableEq, Repr

/-- The state of the core (R100). -/
structure State where
  /-- The parameters, fixed at construction (R107). -/
  cfg : Config
  /-- The general registers; slot 0 is never written and never read (R101, R102). -/
  x : Vector Word 32
  /-- The program counter (R104). -/
  pc : Word
  /-- `HI` and `LO` (R105): no instruction reads or writes them. -/
  hi : Word
  lo : Word
  /-- The cache and the Memory. -/
  msys : MemSys
  /-- Instructions executed, branches taken, loads, stores (R112). -/
  executed : Nat
  branches : Nat
  loads : Nat
  stores : Nat
  /-- The output channel, oldest event first (R113). -/
  output : List Event
  /-- The MODEL's own: the raw word of the instruction being executed, `w` of `execute(ins, w)` (R400;
  notes/assumptions/3.md). -/
  fetched : Word
  /-- The MODEL's own: what the last step returned (notes/assumptions/4.md). -/
  result : StepResult
deriving DecidableEq, Repr

/-- The faults (spec/60_exceptions.md R900 to R903). Each carries the fault record's `info` and `pc` and, as `after`,
the state the faulting step leaves (spec/40_execution_step.md R409; notes/assumptions/5.md). -/
inductive Fault where
  /-- `AddressFault(addr)`, cause 0: an access outside Memory. Raised by the fetch, by Lw and Sw, by the string read of
  syscall 4, and by the program load (R901). The spec's own fault. Safe: the spec too ends the step here. -/
  | addressFault (addr pc : Word) (after : State)
  /-- `InvalidInstruction(word)`, cause 1: the word decodes to `Invalid`, or a syscall's code is not recognised
  (R902). The spec's own fault. Safe: the spec too ends the step here. -/
  | invalidInstruction (word pc : Word) (after : State)
deriving DecidableEq, Repr

/-- The refusals. No step answers with one: each instruction has its meaning. -/
inductive Refusal where
  /-- Raised by an arm of `exec` whose instruction has no meaning yet. No arm does. Safe. -/
  | notModelled (mnemonic : String)
  /-- Raised by `construct` for a `MEM_SIZE` outside R10's constraint, which a model refuses
  (spec/93_implementation_defined.md item 4). Safe. -/
  | memSizeNotAllowed (memSize : Nat)
  /-- Raised by `load` after the first step: "a model refuses `load` after the first step" (R1001, D17). Safe. -/
  | loadAfterStep
deriving DecidableEq, Repr

/-- A newly constructed core (R120, spec/70_reset_and_hazards.md R1000): every register 0 but `x[29] = SP_INIT`,
`pc = START`, Memory all zero, every cache line invalid and clean, every counter 0, no output. -/
def State.constructed (c : Config) : State :=
  { cfg := c
    x := (Vector.replicate 32 0#32).set 29 c.spInit
    pc := c.start
    hi := 0
    lo := 0
    msys := { cache := .fresh, mem := [] }
    executed := 0, branches := 0, loads := 0, stores := 0
    output := []
    fetched := 0
    result := .notStarted }

/-- The machine right after reset, which is its construction (R1000), with the example configuration of
spec/95_test_vectors.md (notes/assumptions/1.md). -/
def State.reset : State := State.constructed Config.specExample

end Sys2Proof.Machine
end

