-- ==== Sys2Proof/Machine/Flags.lean ====
section
/-! DEFINITION. The core has no status flags and no condition codes (spec/10_state.md R106): comparisons write their
result to a general register, and branches compare two registers. This file holds those comparisons. -/

namespace Sys2Proof.Machine

/-- Signed less-than as the word Slt and Slti write: 1 or 0 (spec/41_alu.md R505, R509, R510). -/
def signedLess (a b : Word) : Word := if a.toInt < b.toInt then 1#32 else 0#32

/-- The condition of Beq, on all 32 bits (spec/43_control.md R702). -/
def wordsEqual (a b : Word) : Bool := a == b

end Sys2Proof.Machine
end

