-- ==== Sys2Proof/Machine/Operands.lean ====
section
/-! DEFINITION. The operand forms (spec/30_encoding.md R303 to R306, spec/42_load_store.md R600). -/

namespace Sys2Proof.Machine

/-- The sign-extended immediate, `sext_32(imm)` (R303). -/
def immWord (imm : BitVec 16) : Word := imm.signExtend 32

/-- The effective address `x[rs] + sext_32(imm)`, wrapping (R600, D3). -/
def effectiveAddress (base : Word) (imm : BitVec 16) : Word := base + immWord imm

/-- The branch target `pc + (sext_32(imm) << 2)`, `pc` the branch's own address, wrapping (R304, R702, D2). -/
def branchTarget (pc : Word) (imm : BitVec 16) : Word := pc + (immWord imm <<< 2)

/-- The jump target `(pc & 0xF0000000) | (zext_32(target) << 2)`, `pc` the jump's own address (R305). -/
def jumpTarget (pc : Word) (target : BitVec 26) : Word :=
  (pc &&& 0xF0000000#32) ||| (target.zeroExtend 32 <<< 2)

end Sys2Proof.Machine
end

