-- ==== Sys2Proof/Syntax.lean ====
section
/-! DEFINITION. The instructions: one constructor per row of spec/opcode_table.json, in the table's order, each with
exactly the fields spec/30_encoding.md R314 gives its variant. A field's type has the field's width (R301), so no
ill-formed instruction can be written down. -/

namespace Sys2Proof

/-- The 17 instructions (R302, R310, R314). -/
inductive Instr where
  /-- `add $rd, $rs, $rt` (R501). -/
  | add (rd rs rt : RegIndex)
  /-- `sub $rd, $rs, $rt` (R502). -/
  | sub (rd rs rt : RegIndex)
  /-- `and $rd, $rs, $rt` (R503). -/
  | and (rd rs rt : RegIndex)
  /-- `or $rd, $rs, $rt` (R504). -/
  | or (rd rs rt : RegIndex)
  /-- `slt $rd, $rs, $rt` (R505). -/
  | slt (rd rs rt : RegIndex)
  /-- `sll $rd, $rt, shamt` (R506). -/
  | sll (rd rt : RegIndex) (shamt : BitVec 5)
  /-- `srl $rd, $rt, shamt` (R507). -/
  | srl (rd rt : RegIndex) (shamt : BitVec 5)
  /-- `jr $rs` (R701). -/
  | jr (rs : RegIndex)
  /-- `syscall` (R800). -/
  | syscall
  /-- `addi $rt, $rs, imm` (R508). -/
  | addi (rt rs : RegIndex) (imm : BitVec 16)
  /-- `slti $rt, $rs, imm` (R509). -/
  | slti (rt rs : RegIndex) (imm : BitVec 16)
  /-- `lw $rt, imm($rs)` (R601). -/
  | lw (rt rs : RegIndex) (imm : BitVec 16)
  /-- `sw $rt, imm($rs)` (R602). -/
  | sw (rt rs : RegIndex) (imm : BitVec 16)
  /-- `beq $rs, $rt, imm` (R702). -/
  | beq (rs rt : RegIndex) (imm : BitVec 16)
  /-- `bne $rs, $rt, imm` (R703). -/
  | bne (rs rt : RegIndex) (imm : BitVec 16)
  /-- `j target` (R704). -/
  | j (target : BitVec 26)
  /-- `jal target` (R705). -/
  | jal (target : BitVec 26)
deriving DecidableEq, Repr

/-- The decoder's answer: one of R314's 18 variants. `Invalid` is no row of the opcode table, so it stands beside the
instructions and not among them (notes/assumptions/6.md). -/
inductive Decoded where
  /-- One of the 17 instructions. -/
  | instr (i : Instr)
  /-- R314's `Invalid{word}`, with the raw word. -/
  | invalid (word : Word)
deriving DecidableEq, Repr

/-- Why a run of bytes is no instruction. -/
inductive DecodeError where
  /-- The word is in the illegal space of R312. -/
  | invalid (word : Word)
  /-- Fewer than the four bytes every instruction occupies (R300). -/
  | truncated (bytesLeft : Nat)
deriving DecidableEq, Repr

end Sys2Proof
end

