-- ==== Sys2Proof/Decode.lean ====
section
/-! DEFINITION. From bits to instructions and back (spec/30_encoding.md), the little-endian byte order of a word
(spec/20_memory.md R203), and the disassembly (R320). -/

namespace Sys2Proof

/-! The fields of a word (R301). -/

/-- `opcode`, bits 31 to 26. -/
def opcodeOf (w : Word) : BitVec 6 := w.extractLsb' 26 6
/-- `rs`, bits 25 to 21. -/
def rsOf (w : Word) : RegIndex := w.extractLsb' 21 5
/-- `rt`, bits 20 to 16. -/
def rtOf (w : Word) : RegIndex := w.extractLsb' 16 5
/-- `rd`, bits 15 to 11. -/
def rdOf (w : Word) : RegIndex := w.extractLsb' 11 5
/-- `shamt`, bits 10 to 6. -/
def shamtOf (w : Word) : BitVec 5 := w.extractLsb' 6 5
/-- `funct`, bits 5 to 0. -/
def functOf (w : Word) : BitVec 6 := w.extractLsb' 0 6
/-- `immediate`, bits 15 to 0. -/
def immOf (w : Word) : BitVec 16 := w.extractLsb' 0 16
/-- `target`, bits 25 to 0. -/
def targetOf (w : Word) : BitVec 26 := w.extractLsb' 0 26

/-- The funct map of R310, for words whose opcode is 0. -/
def decodeFunct (w : Word) : Decoded :=
  match functOf w with
  | 0x20#6 => .instr (.add (rdOf w) (rsOf w) (rtOf w))
  | 0x22#6 => .instr (.sub (rdOf w) (rsOf w) (rtOf w))
  | 0x24#6 => .instr (.and (rdOf w) (rsOf w) (rtOf w))
  | 0x25#6 => .instr (.or (rdOf w) (rsOf w) (rtOf w))
  | 0x2A#6 => .instr (.slt (rdOf w) (rsOf w) (rtOf w))
  | 0x00#6 => .instr (.sll (rdOf w) (rtOf w) (shamtOf w))
  | 0x02#6 => .instr (.srl (rdOf w) (rtOf w) (shamtOf w))
  | 0x08#6 => .instr (.jr (rsOf w))
  | 0x0C#6 => .instr .syscall
  | _ => .invalid w

/-- `decode(word)` (R310): pure, total, deterministic. It looks at `opcode` and, for opcode 0, at `funct`, and at
nothing else (R311). -/
def decode (w : Word) : Decoded :=
  match opcodeOf w with
  | 0x00#6 => decodeFunct w
  | 0x08#6 => .instr (.addi (rtOf w) (rsOf w) (immOf w))
  | 0x23#6 => .instr (.lw (rtOf w) (rsOf w) (immOf w))
  | 0x2B#6 => .instr (.sw (rtOf w) (rsOf w) (immOf w))
  | 0x04#6 => .instr (.beq (rsOf w) (rtOf w) (immOf w))
  | 0x05#6 => .instr (.bne (rsOf w) (rtOf w) (immOf w))
  | 0x0A#6 => .instr (.slti (rtOf w) (rsOf w) (immOf w))
  | 0x02#6 => .instr (.j (targetOf w))
  | 0x03#6 => .instr (.jal (targetOf w))
  | _ => .invalid w

/-! Byte order (R203). -/

/-- Byte `i` of a word in memory order: bits `[8i+7:8i]`. -/
def byteOf (w : Word) (i : Nat) : Byte := w.extractLsb' (8 * i) 8

/-- `le_bytes(w)`: the word's bytes from the lowest address up. -/
def leBytes (w : Word) : Vector Byte 4 := #v[byteOf w 0, byteOf w 1, byteOf w 2, byteOf w 3]

/-- The word whose bytes, from the lowest address up, are the four given ones. -/
def wordOfBytes (b0 b1 b2 b3 : Byte) : Word := b3 ++ b2 ++ b1 ++ b0

/-- The decoder on any bytes: the instruction at the front and the bytes after it, or the reason there is none
(R300: every instruction occupies 4 bytes; R312: the illegal space). -/
def decodeBytes : List Byte → Except DecodeError (Instr × List Byte)
  | b0 :: b1 :: b2 :: b3 :: rest =>
    match decode (wordOfBytes b0 b1 b2 b3) with
    | .instr i => .ok (i, rest)
    | .invalid w => .error (.invalid w)
  | short => .error (.truncated short.length)

/-- The word of a table row's bits: the bits from `nbits` up are zero. -/
def tableWord (nbits w : Nat) : Word := BitVec.ofNat 32 (w % 2 ^ nbits)

/-- The instruction the decoder reads from an instruction whose bits are `w`, numbered as spec/opcode_table.json
numbers them: the word is laid out little-endian, as the hardware stores it (R203, R300), and decoded. -/
def decodeTableWord (nbits w : Nat) : Option Instr :=
  match decodeBytes (leBytes (tableWord nbits w)).toList with
  | .ok (i, _) => some i
  | .error _ => none

/-! The encoder, from the same tables (R301, R302, R310). The bits a variant does not use are zero (R311: they "may
hold any value", and such a word "decodes to the variant as if those bits were zero"). -/

/-- An R-format word: opcode 0 and the fields of R301. -/
def encodeR (rs rt rd : RegIndex) (shamt : BitVec 5) (funct : BitVec 6) : Word :=
  0x00#6 ++ rs ++ rt ++ rd ++ shamt ++ funct

/-- An I-format word. -/
def encodeI (opcode : BitVec 6) (rs rt : RegIndex) (imm : BitVec 16) : Word :=
  opcode ++ rs ++ rt ++ imm

/-- A J-format word. -/
def encodeJ (opcode : BitVec 6) (target : BitVec 26) : Word := opcode ++ target

/-- The word of an instruction. -/
def encode : Instr → Word
  | .add rd rs rt => encodeR rs rt rd 0 0x20#6
  | .sub rd rs rt => encodeR rs rt rd 0 0x22#6
  | .and rd rs rt => encodeR rs rt rd 0 0x24#6
  | .or rd rs rt => encodeR rs rt rd 0 0x25#6
  | .slt rd rs rt => encodeR rs rt rd 0 0x2A#6
  | .sll rd rt shamt => encodeR 0 rt rd shamt 0x00#6
  | .srl rd rt shamt => encodeR 0 rt rd shamt 0x02#6
  | .jr rs => encodeR rs 0 0 0 0x08#6
  | .syscall => encodeR 0 0 0 0 0x0C#6
  | .addi rt rs imm => encodeI 0x08#6 rs rt imm
  | .slti rt rs imm => encodeI 0x0A#6 rs rt imm
  | .lw rt rs imm => encodeI 0x23#6 rs rt imm
  | .sw rt rs imm => encodeI 0x2B#6 rs rt imm
  | .beq rs rt imm => encodeI 0x04#6 rs rt imm
  | .bne rs rt imm => encodeI 0x05#6 rs rt imm
  | .j target => encodeJ 0x02#6 target
  | .jal target => encodeJ 0x03#6 target

/-! The opcode table's `match` and `mask` columns, row by row, for the claims about encodings. -/

/-- The bits a row of spec/opcode_table.json fixes. -/
def rowMask : Instr → Word
  | .add .. | .sub .. | .and .. | .or .. | .slt .. | .sll .. | .srl .. | .jr .. | .syscall => 0xFC00003F#32
  | .addi .. | .slti .. | .lw .. | .sw .. | .beq .. | .bne .. | .j .. | .jal .. => 0xFC000000#32

/-- The values a row of spec/opcode_table.json gives the bits it fixes. -/
def rowMatch : Instr → Word
  | .add .. => 0x00000020#32
  | .sub .. => 0x00000022#32
  | .and .. => 0x00000024#32
  | .or .. => 0x00000025#32
  | .slt .. => 0x0000002A#32
  | .sll .. => 0x00000000#32
  | .srl .. => 0x00000002#32
  | .jr .. => 0x00000008#32
  | .syscall => 0x0000000C#32
  | .addi .. => 0x20000000#32
  | .slti .. => 0x28000000#32
  | .lw .. => 0x8C000000#32
  | .sw .. => 0xAC000000#32
  | .beq .. => 0x10000000#32
  | .bne .. => 0x14000000#32
  | .j .. => 0x08000000#32
  | .jal .. => 0x0C000000#32

/-- The bits of a word that R302 gives a variant's fields, with the bits its row fixes; the others are ignored (R311). -/
def usedMask : Instr → Word
  | .add .. | .sub .. | .and .. | .or .. | .slt .. => 0xFFFFF83F#32
  | .sll .. | .srl .. => 0xFC1FFFFF#32
  | .jr .. => 0xFFE0003F#32
  | .syscall => 0xFC00003F#32
  | .addi .. | .slti .. | .lw .. | .sw .. | .beq .. | .bne .. | .j .. | .jal .. => 0xFFFFFFFF#32

/-! The canonical disassembly (R320, D24). "The rendering has no effect on any state." -/

/-- A digit, 0 to 15, as the character R320's examples write (lower case). -/
def digitChar (d : Nat) : Char :=
  if d < 10 then Char.ofNat (48 + d) else Char.ofNat (87 + d)

/-- The digits of a number in a base, most significant first; `fuel` bounds their number. -/
def digits (base : Nat) : Nat → Nat → List Char
  | 0, _ => []
  | fuel + 1, n =>
    if n < base then [digitChar n] else digits base fuel (n / base) ++ [digitChar (n % base)]

/-- A natural number below 10^10 in decimal. -/
def decimal (n : Nat) : List Char := digits 10 10 n

/-- A 16-bit immediate in signed decimal. -/
def signedDecimal (imm : BitVec 16) : List Char :=
  if imm.toInt < 0 then '-' :: decimal imm.toInt.natAbs else decimal imm.toInt.natAbs

/-- A word as `0x%08x`. -/
def hexWord (w : Word) : List Char :=
  ['0', 'x'] ++ (List.range 8).map fun i => digitChar (w.toNat / 16 ^ (7 - i) % 16)

/-- A register as `$<n>`. -/
def regText (r : RegIndex) : List Char := '$' :: decimal r.toNat

/-- Operands joined by a comma and a space. -/
def operandText : List (List Char) → List Char
  | [] => []
  | [t] => t
  | t :: rest => t ++ [',', ' '] ++ operandText rest

/-- `imm($rs)`, the operand of Lw and Sw. -/
def baseText (imm : BitVec 16) (rs : RegIndex) : List Char :=
  signedDecimal imm ++ ['('] ++ regText rs ++ [')']

/-- The text of a jump target: `0x%08x` of `zext_32(target) << 2`. -/
def targetText (target : BitVec 26) : List Char := hexWord (target.zeroExtend 32 <<< 2)

/-- A mnemonic, and its operands if it has any. -/
def lineText (mnemonic : List Char) (operands : List (List Char)) : List Char :=
  match operands with
  | [] => mnemonic
  | _ => mnemonic ++ [' '] ++ operandText operands

/-- The characters of a variant's disassembly, by R320's table. -/
def disassembleChars : Decoded → List Char
  | .instr (.add rd rs rt) => lineText ['a', 'd', 'd'] [regText rd, regText rs, regText rt]
  | .instr (.sub rd rs rt) => lineText ['s', 'u', 'b'] [regText rd, regText rs, regText rt]
  | .instr (.and rd rs rt) => lineText ['a', 'n', 'd'] [regText rd, regText rs, regText rt]
  | .instr (.or rd rs rt) => lineText ['o', 'r'] [regText rd, regText rs, regText rt]
  | .instr (.slt rd rs rt) => lineText ['s', 'l', 't'] [regText rd, regText rs, regText rt]
  | .instr (.sll rd rt shamt) => lineText ['s', 'l', 'l'] [regText rd, regText rt, decimal shamt.toNat]
  | .instr (.srl rd rt shamt) => lineText ['s', 'r', 'l'] [regText rd, regText rt, decimal shamt.toNat]
  | .instr (.jr rs) => lineText ['j', 'r'] [regText rs]
  | .instr .syscall => lineText ['s', 'y', 's', 'c', 'a', 'l', 'l'] []
  | .instr (.addi rt rs imm) => lineText ['a', 'd', 'd', 'i'] [regText rt, regText rs, signedDecimal imm]
  | .instr (.slti rt rs imm) => lineText ['s', 'l', 't', 'i'] [regText rt, regText rs, signedDecimal imm]
  | .instr (.lw rt rs imm) => lineText ['l', 'w'] [regText rt, baseText imm rs]
  | .instr (.sw rt rs imm) => lineText ['s', 'w'] [regText rt, baseText imm rs]
  | .instr (.beq rs rt imm) => lineText ['b', 'e', 'q'] [regText rs, regText rt, signedDecimal imm]
  | .instr (.bne rs rt imm) => lineText ['b', 'n', 'e'] [regText rs, regText rt, signedDecimal imm]
  | .instr (.j target) => lineText ['j'] [targetText target]
  | .instr (.jal target) => lineText ['j', 'a', 'l'] [targetText target]
  | .invalid w => lineText ['i', 'n', 'v', 'a', 'l', 'i', 'd'] [hexWord w]

/-- A variant's disassembly string (R320). -/
def disassemble (d : Decoded) : String := String.ofList (disassembleChars d)

end Sys2Proof
end

