-- ==== Sys2Proof/Machine/Memory.lean ====
section
/-! DEFINITION. The backing Memory's primitives (spec/20_memory.md R200 to R205). Addresses are exact natural numbers
here, so no bounds check can wrap (R201, D3). -/

namespace Sys2Proof.Machine

/-- The byte Memory holds at an address: an address that is not listed reads 0 (spec/10_state.md R114). -/
def Memory.read : Memory → Nat → Byte
  | [], _ => 0#8
  | (k, b) :: rest, a => if k = a then b else Memory.read rest a

/-- Put a byte at an address, in canonical form: writing 0 removes the cell. -/
def Memory.write : Memory → Nat → Byte → Memory
  | [], a, v => if v = 0#8 then [] else [(a, v)]
  | (k, b) :: rest, a, v =>
    if a < k then (if v = 0#8 then (k, b) :: rest else (a, v) :: (k, b) :: rest)
    else if a = k then (if v = 0#8 then rest else (a, v) :: rest)
    else (k, b) :: Memory.write rest a v

/-- Put bytes at consecutive addresses, in ascending order. -/
def Memory.writeBytes : Memory → Nat → List Byte → Memory
  | mem, _, [] => mem
  | mem, a, b :: bs => Memory.writeBytes (mem.write a b) (a + 1) bs

/-- An address as a fault reports it, `w32(a)` (spec/00_scope.md R21). -/
def faultAddress (a : Nat) : Word := BitVec.ofNat 32 a

/-- `BackRead(a, n)` (R201): the `n` bytes from `a` up, or `AddressFault(a)`. It changes no state. -/
def backRead (c : Config) (n a : Nat) (mem : Memory) : Except Word (Vector Byte n) :=
  if c.memSize ≤ a + n - 1 then .error (faultAddress a)
  else .ok (Vector.ofFn fun i => mem.read (a + i.val))

/-- `BackWrite(a, n, bytes)` (R202). -/
def backWrite (c : Config) (n a : Nat) (bytes : Vector Byte n) (mem : Memory) : Except Word Memory :=
  if c.memSize ≤ a + n - 1 then .error (faultAddress a)
  else .ok (mem.writeBytes a bytes.toList)

end Sys2Proof.Machine
end

