-- ==== Sys2Proof/Machine/Cache.lean ====
section
/-! DEFINITION. The cache (spec/20_memory.md R210 to R229). The operations act on the cache and Memory together. An
operation that faults says what it had done by then (R409: "every effect that completed before the fault remains"). -/

namespace Sys2Proof.Machine

/-- What a cache operation answers: a value and the state it leaves, or `AddressFault(addr)` and the state at that
point (R204: the cache "never masks or retries" a fault). -/
inductive Access (α : Type) where
  | done (value : α) (after : MemSys)
  | fault (addr : Word) (after : MemSys)
deriving Repr

/-- Go on from a completed operation; a fault ends the sequence (R24). -/
def Access.andThen {α β : Type} (r : Access α) (next : α → MemSys → Access β) : Access β :=
  match r with
  | .done v m => next v m
  | .fault a m => .fault a m

/-! The decomposition of an address (R210). -/

/-- `setIndex = lineIndex mod 64`, `a[10:5]`. -/
def setIndex (a : Word) : Fin 64 := ⟨a.toNat / 32 % 64, Nat.mod_lt _ (by decide)⟩

/-- `tag = lineIndex / 64`, `a[31:11]`. -/
def tagOf (a : Word) : Nat := a.toNat / 32 / 64

/-- `offset = address mod 32`, `a[4:0]`. -/
def offsetOf (a : Word) : Fin 32 := ⟨a.toNat % 32, Nat.mod_lt _ (by decide)⟩

/-- `base(t, s) = (t*64 + s)*32`. -/
def lineBase (t : Nat) (s : Fin 64) : Nat := (t * 64 + s.val) * 32

/-! Lines. -/

/-- The line `set[s].way[w]`. -/
def Cache.line (c : Cache) (s : Fin 64) (w : Fin 4) : CacheLine := (c.sets[s.val])[w.val]

/-- Replace one line. -/
def Cache.setLine (c : Cache) (s : Fin 64) (w : Fin 4) (l : CacheLine) : Cache :=
  { c with sets := c.sets.set s.val ((c.sets[s.val]).set w.val l) }

/-- The ways in index order. -/
def ways : List (Fin 4) := [0, 1, 2, 3]

/-- Lookup (R211): the way of set `s` that is valid with tag `t`. -/
def Cache.lookup (c : Cache) (s : Fin 64) (t : Nat) : Option (Fin 4) :=
  ways.find? fun w => (c.line s w).valid && (c.line s w).tag == t

/-- Victim selection (R212, D36): the least invalid way, else the least way of the smallest timestamp. -/
def Cache.victim (c : Cache) (s : Fin 64) : Fin 4 :=
  match ways.find? fun w => !(c.line s w).valid with
  | some w => w
  | none =>
    match ways.find? fun w => ways.all fun w' => (c.line s w).ts ≤ (c.line s w').ts with
    | some w => w
    | none => 0

/-- `access_counter := access_counter + 1` (R221, D13). -/
def MemSys.tick (m : MemSys) : MemSys :=
  { m with cache := { m.cache with accessCounter := m.cache.accessCounter + 1 } }

/-- `hits := hits + 1`. -/
def MemSys.countHit (m : MemSys) : MemSys := { m with cache := { m.cache with hits := m.cache.hits + 1 } }

/-- `misses := misses + 1`. -/
def MemSys.countMiss (m : MemSys) : MemSys := { m with cache := { m.cache with misses := m.cache.misses + 1 } }

/-- `writebacks := writebacks + 1`. -/
def MemSys.countWriteback (m : MemSys) : MemSys :=
  { m with cache := { m.cache with writebacks := m.cache.writebacks + 1 } }

/-- Replace one line of the cache. -/
def MemSys.putLine (m : MemSys) (s : Fin 64) (w : Fin 4) (l : CacheLine) : MemSys :=
  { m with cache := m.cache.setLine s w l }

/-- Write a line's 32-byte block back to Memory at its base address. -/
def MemSys.writeBack (c : Config) (s : Fin 64) (l : CacheLine) (m : MemSys) : Access Unit :=
  match backWrite c 32 (lineBase l.tag s) l.data m.mem with
  | .error a => .fault a m
  | .ok mem => .done () { m with mem := mem }

/-- `evict(s, w)` (R213): a valid dirty line is written back and counted; any other is left alone. -/
def MemSys.evict (c : Config) (s : Fin 64) (w : Fin 4) (m : MemSys) : Access Unit :=
  if (m.cache.line s w).valid && (m.cache.line s w).dirty then
    (m.writeBack c s (m.cache.line s w)).andThen fun _ m' => .done () m'.countWriteback
  else .done () m

/-- The Memory block of a line, read by `BackRead(base(t, s), 32)`. -/
def MemSys.readBlock (c : Config) (t : Nat) (s : Fin 64) (m : MemSys) : Access (Vector Byte 32) :=
  match backRead c 32 (lineBase t s) m.mem with
  | .error a => .fault a m
  | .ok block => .done block m

/-- The part of a miss that reads and writes share (R220, R222 "identical victim-selection/writeback as read"): count
it, choose the victim and evict it; the answer is the way. -/
def MemSys.startMiss (c : Config) (s : Fin 64) (m : MemSys) : Access (Fin 4) :=
  (m.countMiss.evict c s (m.countMiss.cache.victim s)).andThen fun _ m' =>
    .done (m.countMiss.cache.victim s) m'

/-- A read hit (R220): stamp the line and count. -/
def MemSys.readHit (s : Fin 64) (w : Fin 4) (m : MemSys) : MemSys :=
  (m.putLine s w { m.cache.line s w with ts := m.cache.accessCounter }).countHit

/-- `read_byte(a)` (R220, D37). -/
def MemSys.readByte (c : Config) (a : Word) (m : MemSys) : Access Byte :=
  if c.memSize ≤ a.toNat then .fault a m
  else
    match m.tick.cache.lookup (setIndex a) (tagOf a) with
    | some w =>
      .done ((m.tick.cache.line (setIndex a) w).data[(offsetOf a).val]) (m.tick.readHit (setIndex a) w)
    | none =>
      (m.tick.startMiss c (setIndex a)).andThen fun w m1 =>
        (m1.readBlock c (tagOf a) (setIndex a)).andThen fun block m2 =>
          .done (block[(offsetOf a).val])
            (m2.putLine (setIndex a) w
              { valid := true, dirty := false, tag := tagOf a, data := block, ts := m2.cache.accessCounter })

/-- A write hit (R222): change the byte in place, set dirty, stamp the line and count. -/
def MemSys.writeHit (s : Fin 64) (w : Fin 4) (o : Fin 32) (b : Byte) (m : MemSys) : MemSys :=
  (m.putLine s w
    { m.cache.line s w with
      data := (m.cache.line s w).data.set o.val b, dirty := true, ts := m.cache.accessCounter }).countHit

/-- The bytes a write miss starts its line from (R222, R223): the Memory block under `Fill`, and the bytes the victim
way holds under `NoFill`. -/
def MemSys.allocateBlock (c : Config) (t : Nat) (s : Fin 64) (w : Fin 4) (m : MemSys) : Access (Vector Byte 32) :=
  match c.waFill with
  | .fill => m.readBlock c t s
  | .noFill => .done (m.cache.line s w).data m

/-- `write_byte(a, b)` (R222, R223, D28, D37). -/
def MemSys.writeByte (c : Config) (a : Word) (b : Byte) (m : MemSys) : Access Unit :=
  if c.memSize ≤ a.toNat then .fault a m
  else
    match m.tick.cache.lookup (setIndex a) (tagOf a) with
    | some w => .done () (m.tick.writeHit (setIndex a) w (offsetOf a) b)
    | none =>
      (m.tick.startMiss c (setIndex a)).andThen fun w m1 =>
        (m1.allocateBlock c (tagOf a) (setIndex a) w).andThen fun block m2 =>
          .done ()
            (m2.putLine (setIndex a) w
              { valid := true, dirty := true, tag := tagOf a, data := block.set (offsetOf a).val b,
                ts := m2.cache.accessCounter })

/-- `read_word(a)` (R224, D3, D12): the span is checked first, then four byte reads in ascending order. -/
def MemSys.readWord (c : Config) (a : Word) (m : MemSys) : Access Word :=
  if c.memSize ≤ a.toNat + 3 then .fault a m
  else
    (m.readByte c a).andThen fun b0 m0 =>
      (m0.readByte c (a + 1)).andThen fun b1 m1 =>
        (m1.readByte c (a + 2)).andThen fun b2 m2 =>
          (m2.readByte c (a + 3)).andThen fun b3 m3 => .done (wordOfBytes b0 b1 b2 b3) m3

/-- `write_word(a, v)` (R225). -/
def MemSys.writeWord (c : Config) (a v : Word) (m : MemSys) : Access Unit :=
  if c.memSize ≤ a.toNat + 3 then .fault a m
  else
    (m.writeByte c a (byteOf v 0)).andThen fun _ m0 =>
      (m0.writeByte c (a + 1) (byteOf v 1)).andThen fun _ m1 =>
        (m1.writeByte c (a + 2) (byteOf v 2)).andThen fun _ m2 =>
          m2.writeByte c (a + 3) (byteOf v 3)

/-- One line's part of `flush` (R227, D15). -/
def MemSys.flushLine (c : Config) (s : Fin 64) (w : Fin 4) (m : MemSys) : Access Unit :=
  if (m.cache.line s w).valid && (m.cache.line s w).dirty then
    (m.writeBack c s (m.cache.line s w)).andThen fun _ m' =>
      .done () (if c.flushCountsWb then (m'.putLine s w { m'.cache.line s w with dirty := false }).countWriteback
        else m'.putLine s w { m'.cache.line s w with dirty := false })
  else .done () m

/-- Flush the listed lines, in order. -/
def MemSys.flushLines (c : Config) : List (Fin 64 × Fin 4) → MemSys → Access Unit
  | [], m => .done () m
  | (s, w) :: rest, m => (m.flushLine c s w).andThen fun _ m' => MemSys.flushLines c rest m'

/-- Every line of the cache, sets outermost. -/
def allLines : List (Fin 64 × Fin 4) := (List.finRange 64).flatMap fun s => ways.map fun w => (s, w)

/-- `flush()` (R227). No instruction, no step and no host operation of the core calls it (D16). -/
def MemSys.flush (c : Config) (m : MemSys) : Access Unit := m.flushLines c allLines

/-- The byte a cached read of `a` would return, without reading: the line's byte if one holds the address, else
Memory's (R211, R220, R241). This is the model's view of memory in its claims. -/
def MemSys.peek (m : MemSys) (a : Word) : Byte :=
  match m.cache.lookup (setIndex a) (tagOf a) with
  | some w => (m.cache.line (setIndex a) w).data[(offsetOf a).val]
  | none => m.mem.read a.toNat

/-- The word a cached read at `a` would return (R203, R224). -/
def MemSys.peekWord (m : MemSys) (a : Word) : Word :=
  wordOfBytes (m.peek a) (m.peek (a + 1)) (m.peek (a + 2)) (m.peek (a + 3))

/-- Place a byte from outside the machine where the next cached read of `a` finds it: in Memory, and in the line that
holds the address if there is one (notes/assumptions/8.md). No counter and no timestamp changes. -/
def MemSys.place (m : MemSys) (a : Word) (b : Byte) : MemSys :=
  match m.cache.lookup (setIndex a) (tagOf a) with
  | some w =>
    { cache := m.cache.setLine (setIndex a) w
        { m.cache.line (setIndex a) w with
          data := (m.cache.line (setIndex a) w).data.set (offsetOf a).val b }
      mem := m.mem.write a.toNat b }
  | none => { m with mem := m.mem.write a.toNat b }

/-- Place a word, little-endian. -/
def MemSys.placeWord (m : MemSys) (a v : Word) : MemSys :=
  (((m.place a (byteOf v 0)).place (a + 1) (byteOf v 1)).place (a + 2) (byteOf v 2)).place (a + 3) (byteOf v 3)

end Sys2Proof.Machine
end

