-- ==== Sys2Proof/Machine/Ops.lean ====
section
/-! DEFINITION. The named operations over the whole state: registers (spec/10_state.md R101), the output channel
(spec/44_syscall.md R801), the end of an instruction (spec/40_execution_step.md R403 to R406), and the one operation
that raises a fault (spec/60_exceptions.md R901 to R908). -/

namespace Sys2Proof.Machine

/-- `x[i]` (R101): register 0 reads 0. -/
def State.readReg (s : State) (i : RegIndex) : Word := if i = 0#5 then 0#32 else s.x[i.toNat]

/-- `x[i] <- v` (R101): a write to register 0 "has no effect on any state". -/
def State.writeReg (s : State) (i : RegIndex) (v : Word) : State :=
  if i = 0#5 then s else { s with x := s.x.set i.toNat v }

/-- `pc <- target` (spec/00_scope.md R22). -/
def State.setPc (s : State) (target : Word) : State := { s with pc := target }

/-- The state with the cache and Memory an access left. -/
def State.setMsys (s : State) (m : MemSys) : State := { s with msys := m }

/-- `loads := loads + 1` (R112, R601). -/
def State.countLoad (s : State) : State := { s with loads := s.loads + 1 }

/-- `stores := stores + 1` (R112, R602). -/
def State.countStore (s : State) : State := { s with stores := s.stores + 1 }

/-- `emit e` (R24, R801). -/
def State.emit (s : State) (e : Event) : State := { s with output := s.output ++ [e] }

/-- Record what the step returns (R400; notes/assumptions/4.md). -/
def State.setResult (s : State) (r : StepResult) : State := { s with result := r }

/-- `execute` returns `t` (R403). It changes pc only where the instruction did (R407). -/
def State.finish (s : State) (transferred : Bool) : State := s.setResult (.continued transferred)

/-- The causes of a fault (R905). -/
inductive Cause where
  | address
  | invalidInstruction
deriving DecidableEq, Repr

/-- The numbers R905 gives the causes (D21). -/
def causeCode : Cause → Nat
  | .address => 0
  | .invalidInstruction => 1

/-- Raise a fault (R901 to R903, R908). There is no trap entry: nothing is vectored or saved, no register, counter or
output changes, and pc keeps the faulting instruction's address (R906). The state given is the one the step has reached;
what completed before the fault remains in it (R409). There is no return from a fault (R909). -/
def raise (cause : Cause) (info : Word) (s : State) : Host.Outcome State Fault Refusal :=
  match cause with
  | .address => .fault (.addressFault info s.pc (s.setResult .faulted))
  | .invalidInstruction => .fault (.invalidInstruction info s.pc (s.setResult .faulted))

/-- The fault record `(cause, info, pc)` (R903). -/
def faultRecord : Fault → Cause × Word × Word
  | .addressFault addr pc _ => (.address, addr, pc)
  | .invalidInstruction word pc _ => (.invalidInstruction, word, pc)

/-- The state a faulting step leaves (R409). -/
def faultAfter : Fault → State
  | .addressFault _ _ after => after
  | .invalidInstruction _ _ after => after

/-- `signal ProgramEnd` (R24, R904): a success, told apart from every fault. pc, the registers and the counters stay. -/
def signalProgramEnd (s : State) : Host.Outcome State Fault Refusal := .next (s.setResult .programEnd)

/-- Fetch: the word at pc, through the cache (R401). -/
def fetch (s : State) : Access Word := s.msys.readWord s.cfg s.pc

/-- The state `execute` starts from: the fetch's cache effects, and the raw word for a fault to carry. -/
def beginExecute (s : State) (w : Word) (m : MemSys) : State := { s with msys := m, fetched := w }

/-- The end of a step whose instruction returned `t`: pc + 4 unless control was transferred (R405), then the
statistics (R406). After `ProgramEnd` nothing more happens (R804, D18). -/
def advance (s : State) : State :=
  match s.result with
  | .continued true => { s with executed := s.executed + 1, branches := s.branches + 1 }
  | .continued false => { s with pc := s.pc + 4, executed := s.executed + 1 }
  | _ => s

/-- The part of a step after `execute` (R400). -/
def complete (o : Host.Outcome State Fault Refusal) : Host.Outcome State Fault Refusal :=
  match o with
  | .next s => .next (advance s)
  | .fault f => .fault f
  | .refused r => .refused r

end Sys2Proof.Machine
end

