-- ==== Sys2Proof/Machine/Alu.lean ====
section
/-! DEFINITION. Arithmetic, logic, shifts and comparison (spec/41_alu.md R500 to R510). Every sum and difference wraps;
nothing traps. -/

namespace Sys2Proof.Machine

/-- What the family shares (R500): the result goes to one register under R101, and `execute` returns false. -/
def writeResult (rd : RegIndex) (v : Word) (s : State) : Host.Outcome State Fault Refusal :=
  .next ((s.writeReg rd v).finish false)

/-- Add (R501): `x[rd] <- x[rs] + x[rt]`. -/
def execAdd (rd rs rt : RegIndex) (s : State) : Host.Outcome State Fault Refusal :=
  writeResult rd (s.readReg rs + s.readReg rt) s

/-- Sub (R502): `x[rd] <- x[rs] - x[rt]`. -/
def execSub (rd rs rt : RegIndex) (s : State) : Host.Outcome State Fault Refusal :=
  writeResult rd (s.readReg rs - s.readReg rt) s

/-- And (R503): `x[rd] <- x[rs] & x[rt]`. -/
def execAnd (rd rs rt : RegIndex) (s : State) : Host.Outcome State Fault Refusal :=
  writeResult rd (s.readReg rs &&& s.readReg rt) s

/-- Or (R504): `x[rd] <- x[rs] | x[rt]`. -/
def execOr (rd rs rt : RegIndex) (s : State) : Host.Outcome State Fault Refusal :=
  writeResult rd (s.readReg rs ||| s.readReg rt) s

/-- Slt (R505): `x[rd] <- (s(x[rs]) < s(x[rt])) ? 1 : 0`. -/
def execSlt (rd rs rt : RegIndex) (s : State) : Host.Outcome State Fault Refusal :=
  writeResult rd (signedLess (s.readReg rs) (s.readReg rt)) s

/-- Sll (R506): `x[rd] <- x[rt] << u(shamt)`, logical. -/
def execSll (rd rt : RegIndex) (shamt : BitVec 5) (s : State) : Host.Outcome State Fault Refusal :=
  writeResult rd (s.readReg rt <<< shamt.toNat) s

/-- Srl (R507): `x[rd] <- x[rt] >> u(shamt)`, logical. -/
def execSrl (rd rt : RegIndex) (shamt : BitVec 5) (s : State) : Host.Outcome State Fault Refusal :=
  writeResult rd (s.readReg rt >>> shamt.toNat) s

/-- Addi (R508): `x[rt] <- x[rs] + sext_32(imm)`. -/
def execAddi (rt rs : RegIndex) (imm : BitVec 16) (s : State) : Host.Outcome State Fault Refusal :=
  writeResult rt (s.readReg rs + immWord imm) s

/-- Slti (R509): `x[rt] <- (s(x[rs]) < s(imm)) ? 1 : 0`. -/
def execSlti (rt rs : RegIndex) (imm : BitVec 16) (s : State) : Host.Outcome State Fault Refusal :=
  writeResult rt (signedLess (s.readReg rs) (immWord imm)) s

end Sys2Proof.Machine
end

