-- ==== Sys2Proof/Machine/Control.lean ====
section
/-! DEFINITION. Branches and jumps (spec/43_control.md R700 to R706). `s.pc` is the instruction's own address; there are
no delay slots and no target needs alignment. -/

namespace Sys2Proof.Machine

/-- A control transfer (R700): write pc and return true. -/
def transferTo (target : Word) (s : State) : Host.Outcome State Fault Refusal :=
  .next ((s.setPc target).finish true)

/-- A branch: transfer if the condition holds, else return false and fall through. -/
def branchIf (taken : Bool) (imm : BitVec 16) (s : State) : Host.Outcome State Fault Refusal :=
  if taken then transferTo (branchTarget s.pc imm) s else .next (s.finish false)

/-- Jr (R701): `pc <- x[rs]`. -/
def execJr (rs : RegIndex) (s : State) : Host.Outcome State Fault Refusal :=
  transferTo (s.readReg rs) s

/-- Beq (R702). -/
def execBeq (rs rt : RegIndex) (imm : BitVec 16) (s : State) : Host.Outcome State Fault Refusal :=
  branchIf (wordsEqual (s.readReg rs) (s.readReg rt)) imm s

/-- Bne (R703). -/
def execBne (rs rt : RegIndex) (imm : BitVec 16) (s : State) : Host.Outcome State Fault Refusal :=
  branchIf (!wordsEqual (s.readReg rs) (s.readReg rt)) imm s

/-- J (R704). -/
def execJ (target : BitVec 26) (s : State) : Host.Outcome State Fault Refusal :=
  transferTo (jumpTarget s.pc target) s

/-- Jal (R705): `x[31] <- pc + 4`, then the jump, both from the Jal's own address. -/
def execJal (target : BitVec 26) (s : State) : Host.Outcome State Fault Refusal :=
  transferTo (jumpTarget s.pc target) (s.writeReg 31#5 (s.pc + 4))

end Sys2Proof.Machine
end

