-- ==== Sys2Proof/Machine/LoadStore.lean ====
section
/-! DEFINITION. Loads and stores (spec/42_load_store.md R600 to R603): one little-endian word through the cache. -/

namespace Sys2Proof.Machine

/-- Lw (R601): the access and its cache effects happen, and the load is counted, even for `rt = 0` (D35). A bad address
faults before any byte access, and no load is counted (D22). -/
def execLw (rt rs : RegIndex) (imm : BitVec 16) (s : State) : Host.Outcome State Fault Refusal :=
  match s.msys.readWord s.cfg (effectiveAddress (s.readReg rs) imm) with
  | .done v m => .next ((((s.setMsys m).writeReg rt v).countLoad).finish false)
  | .fault a m => raise .address a (s.setMsys m)

/-- Sw (R602). -/
def execSw (rt rs : RegIndex) (imm : BitVec 16) (s : State) : Host.Outcome State Fault Refusal :=
  match s.msys.writeWord s.cfg (effectiveAddress (s.readReg rs) imm) (s.readReg rt) with
  | .done _ m => .next (((s.setMsys m).countStore).finish false)
  | .fault a m => raise .address a (s.setMsys m)

end Sys2Proof.Machine
end

