-- ==== Sys2Proof/Machine/Syscall.lean ====
section
/-! DEFINITION. Syscall (spec/44_syscall.md R800 to R806). -/

namespace Sys2Proof.Machine

/-- The loop of R803: the bytes from `a` up to the first NUL, read from Memory and not through the cache. The first
argument is the number of addresses left below `MEM_SIZE`; when it is 0, `a >= MEM_SIZE` and the read faults there. -/
def scanString (mem : Memory) : Nat → Nat → Except Nat (List Byte)
  | 0, a => .error a
  | left + 1, a =>
    if mem.read a = 0#8 then .ok []
    else match scanString mem left (a + 1) with
      | .ok bytes => .ok (mem.read a :: bytes)
      | .error e => .error e

/-- R803: the NUL-terminated string at `a`, or the address the read faults at. -/
def readString (c : Config) (mem : Memory) (a : Nat) : Except Nat (List Byte) :=
  scanString mem (c.memSize - a) a

/-- A print syscall that emits `e`: it counts as no control transfer (R800). -/
def printEvent (e : Event) (s : State) : Host.Outcome State Fault Refusal := .next ((s.emit e).finish false)

/-- Code 4 (R803): a read that reaches `MEM_SIZE` faults there and emits nothing (D20). -/
def printString (s : State) : Host.Outcome State Fault Refusal :=
  match readString s.cfg s.msys.mem (s.readReg 4#5).toNat with
  | .ok bytes => printEvent (.printString bytes) s
  | .error a => raise .address (faultAddress a) s

/-- Syscall (R800): dispatch on the whole 32-bit value of `x[2]` (D29). -/
def execSyscall (s : State) : Host.Outcome State Fault Refusal :=
  match s.readReg 2#5 with
  | 1#32 => printEvent (.printInt (s.readReg 4#5).toInt) s
  | 4#32 => printString s
  | 10#32 => signalProgramEnd s
  | 11#32 => printEvent (.printChar ((s.readReg 4#5).setWidth 8)) s
  | _ => raise .invalidInstruction s.fetched s

end Sys2Proof.Machine
end

