-- ==== Sys2Proof/Machine/Step.lean ====
section
/-! DEFINITION. One step: fetch, decode, execute, then pc and statistics (spec/40_execution_step.md R400). -/

namespace Sys2Proof.Machine

/-- `step()` (R400, R907): the fetch's fault first, then the Invalid arm (R410), then the instruction. -/
def step (s : State) : Host.Outcome State Fault Refusal :=
  match fetch s with
  | .fault a m => raise .address a (s.setMsys m)
  | .done w m =>
    match decode w with
    | .invalid word => raise .invalidInstruction word (beginExecute s w m)
    | .instr i => complete (exec i (beginExecute s w m))

/-- The state with the word of a table row stored where `step` fetches next, as a load from outside the machine
(spec/70_reset_and_hazards.md R1001; notes/assumptions/8.md). -/
def State.withFetchWord (s : State) (nbits w : Nat) : State :=
  s.setMsys (s.msys.placeWord s.pc (tableWord nbits w))

end Sys2Proof.Machine
end

