-- ==== Sys2Proof/WellFormed.lean ====
section
/-! DEFINITION. The checks on what is given to the machine. An instruction's fields have their encoded widths as types
(Syntax.lean), so every `Instr` is well-formed and there is nothing to check there; what can be ill-formed is a
configuration (spec/00_scope.md R10), and construction refuses it (Machine/Run.lean). -/

namespace Sys2Proof

/-- R10's constraint on `MEM_SIZE`: "multiple of 32, 32 <= MEM_SIZE <= 2^32". A model refuses any other size
(spec/93_implementation_defined.md item 4). -/
abbrev Config.wellFormed (c : Config) : Prop :=
  c.memSize % 32 = 0 ∧ 32 ≤ c.memSize ∧ c.memSize ≤ 2 ^ 32

end Sys2Proof
end

