-- ==== Sys2Proof/Machine/Run.lean ====
section
/-! DEFINITION. What the host does with the core (spec/10_state.md R130, R131; spec/70_reset_and_hazards.md R1000 to
R1013): construct, load, run, query, the observation of a run, and the cache block's flush. -/

namespace Sys2Proof.Machine

/-- `construct` (R1000): a core in its reset state. A `MEM_SIZE` outside R10's constraint is refused
(spec/93_implementation_defined.md item 4). -/
def construct (c : Config) : Host.Outcome State Fault Refusal :=
  if c.wellFormed then .next (State.constructed c) else .refused (.memSizeNotAllowed c.memSize)

/-- The loop of `load` (R1001): `BackWrite` of each word, four bytes apart. -/
def writeWords (c : Config) : Nat → List Word → Memory → Except Word Memory
  | _, [], mem => .ok mem
  | a, w :: ws, mem =>
    match backWrite c 4 a (leBytes w) mem with
    | .ok mem' => writeWords c (a + 4) ws mem'
    | .error e => .error e

/-- `load(words)` (R1001, D17): straight to Memory at `START`, the whole span checked first on exact integers; refused
once a step has run. A load is no step, so a program that does not fit leaves the state as it was. -/
def load (words : List Word) (s : State) : Host.Outcome State Fault Refusal :=
  if s.result ≠ .notStarted then .refused .loadAfterStep
  else if s.cfg.memSize < s.cfg.start.toNat + 4 * words.length then
    .fault (.addressFault (faultAddress (s.cfg.start.toNat + 4 * words.length)) s.pc s)
  else
    match writeWords s.cfg s.cfg.start.toNat words s.msys.mem with
    | .ok mem => .next (s.setMsys { s.msys with mem := mem })
    | .error a => .fault (.addressFault a s.pc s)

/-- How a run ends (R1011), with the state it leaves. -/
inductive RunOutcome where
  /-- `Halted`: pc reached `HALT_ADDR`. -/
  | halted (final : State)
  /-- `Ended`: syscall 10. -/
  | ended (final : State)
  /-- `BoundReached`: a warning, not a fault. -/
  | boundReached (final : State)
  /-- `Fault(f)`: the fault of the step that ended the run. -/
  | fault (f : Fault)
  /-- A refusal of the step; no step answers with one. -/
  | refused (r : Refusal)
deriving DecidableEq, Repr

/-- The loop of `run` (R1010, D8, D9) with `left = MAX_STEPS - n` steps still allowed: the halt check first, then the
bound, then a step. -/
def runLoop : Nat → State → RunOutcome
  | left, s =>
    if s.pc = s.cfg.haltAddr then .halted s
    else match left with
      | 0 => .boundReached s
      | left + 1 =>
        match step s with
        | .next s' => if s'.result = .programEnd then .ended s' else runLoop left s'
        | .fault f => .fault f
        | .refused r => .refused r

/-- `run()` (R1010). -/
def run (s : State) : RunOutcome := runLoop s.cfg.maxSteps s

/-- What `query` returns (R131). -/
structure Query where
  x : Vector Word 32
  pc : Word
  hi : Word
  lo : Word
  executed : Nat
  branches : Nat
  loads : Nat
  stores : Nat
  hits : Nat
  misses : Nat
  writebacks : Nat
  accessCounter : Nat
deriving DecidableEq, Repr

/-- `query` (R131): the registers (`x[0] = 0`) and the statistics; it changes nothing. -/
def query (s : State) : Query :=
  { x := Vector.ofFn fun i => s.readReg (BitVec.ofNat 5 i.val)
    pc := s.pc, hi := s.hi, lo := s.lo
    executed := s.executed, branches := s.branches, loads := s.loads, stores := s.stores
    hits := s.msys.cache.hits, misses := s.msys.cache.misses
    writebacks := s.msys.cache.writebacks, accessCounter := s.msys.cache.accessCounter }

/-- The names of R1011's outcomes, as an observation tells them apart. -/
inductive RunEnd where
  | halted
  | ended
  | boundReached
  | fault (cause : Cause) (info pc : Word)
  | refused
deriving DecidableEq, Repr

/-- The observation of a run (R1012): the outcome, the final registers, pc, HI, LO and counters, and the events. -/
structure Observation where
  outcome : RunEnd
  final : Query
  output : List Event
deriving DecidableEq, Repr

/-- The observation of a run's end (R1012); none for a refusal, which no step gives. -/
def observe : RunOutcome → Option Observation
  | .halted s => some { outcome := .halted, final := query s, output := s.output }
  | .ended s => some { outcome := .ended, final := query s, output := s.output }
  | .boundReached s => some { outcome := .boundReached, final := query s, output := s.output }
  | .fault f =>
    some { outcome := .fault (faultRecord f).1 (faultRecord f).2.1 (faultRecord f).2.2
           final := query (faultAfter f), output := (faultAfter f).output }
  | .refused _ => none

/-- The program's result value at a graceful end: `x[RESULT_REG]` (R804, R1011, D10). -/
def resultValue : RunOutcome → Option Word
  | .halted s => some (s.readReg s.cfg.resultReg)
  | .ended s => some (s.readReg s.cfg.resultReg)
  | _ => none

/-- The host's direct read of a word of Memory, past the cache (spec/20_memory.md R201, spec/42_load_store.md R603). -/
def readMemoryWord (s : State) (a : Word) : Except Word Word :=
  match backRead s.cfg 4 a.toNat s.msys.mem with
  | .ok bytes => .ok (wordOfBytes bytes[0] bytes[1] bytes[2] bytes[3])
  | .error e => .error e

end Sys2Proof.Machine
end

