-- ==== Sys2Proof/Safety.lean ====
section
/-! DEFINITION. What counts as a sound state and a safe run, in the terms the claims use. Nothing here is part of the
machine: `step` consults none of it. -/

namespace Sys2Proof.Machine

/-- What holds of one line (spec/10_state.md R111, spec/20_memory.md R206, R220, R221, R223). A line never allocated is
clean and holds zeros. An allocated line lies inside Memory, was stamped by the counter, and, while clean, agrees with
Memory. Nothing is said of an invalid line's tag, which is undefined. -/
structure LineOk (c : Config) (m : MemSys) (s : Fin 64) (w : Fin 4) : Prop where
  fresh : (m.cache.line s w).valid = false →
    (m.cache.line s w).dirty = false ∧ (m.cache.line s w).data = Vector.replicate 32 0#8
  inside : (m.cache.line s w).valid = true → lineBase (m.cache.line s w).tag s + 32 ≤ c.memSize
  stamped : (m.cache.line s w).valid = true → (m.cache.line s w).ts ≤ m.cache.accessCounter
  clean : (m.cache.line s w).valid = true → (m.cache.line s w).dirty = false →
    ∀ i : Fin 32, (m.cache.line s w).data[i.val] = m.mem.read (lineBase (m.cache.line s w).tag s + i.val)

/-- What holds of one set: "At most one way of a set is valid with a given tag" (R211), "the valid lines of a set have
distinct timestamps" and "ways are filled in the order 0, 1, 2, 3" (R212). -/
structure SetOk (m : MemSys) (s : Fin 64) : Prop where
  distinct : ∀ w w' : Fin 4, w ≠ w' → (m.cache.line s w).valid = true → (m.cache.line s w').valid = true →
    (m.cache.line s w).tag ≠ (m.cache.line s w').tag ∧ (m.cache.line s w).ts ≠ (m.cache.line s w').ts
  filled : ∀ w w' : Fin 4, w < w' → (m.cache.line s w').valid = true → (m.cache.line s w).valid = true

/-- A sound cache and Memory: the configuration is one R10 allows, Memory is in canonical form and holds nothing at or
above `MEM_SIZE` (R206), and every line and set is sound. -/
structure MemOk (c : Config) (m : MemSys) : Prop where
  cfg : c.wellFormed
  memWf : Memory.wf m.mem
  memInside : ∀ p ∈ m.mem, p.1 < c.memSize
  lines : ∀ (s : Fin 64) (w : Fin 4), LineOk c m s w
  sets : ∀ s : Fin 64, SetOk m s

/-- What holds of an output event: R801's ranges. -/
def Event.ok : Event → Prop
  | .printInt n => -2147483648 ≤ n ∧ n ≤ 2147483647
  | .printString bytes => ∀ b ∈ bytes, b ≠ 0#8
  | .printChar _ => True

/-- The invariant of the machine. `HI` and `LO` hold 0 "for the life of the core" (R105), the slot of register 0 holds 0
(R101), every byte access was counted as a hit or a miss (R220, R222), a write-back happens only on a miss (R213), a
completed instruction is at most one of a load, a store and a taken transfer (R406), and the output holds what R801
allows. -/
structure State.Inv (s : State) : Prop where
  mem : MemOk s.cfg s.msys
  zero : s.x[0] = 0#32
  hi : s.hi = 0#32
  lo : s.lo = 0#32
  counted : s.msys.cache.hits + s.msys.cache.misses = s.msys.cache.accessCounter
  writebacks : s.msys.cache.writebacks ≤ s.msys.cache.misses
  kinds : s.loads + s.stores + s.branches ≤ s.executed
  events : ∀ e ∈ s.output, e.ok

/-- The byte a read of `x` gives after a write to another byte of `x`'s line (R222, R223): the stale byte of the victim
way when the write missed under `NoFill`, and the byte as before in every other case. -/
def staleByte (c : Config) (m : MemSys) (x : Word) : Byte :=
  match c.waFill, m.cache.lookup (setIndex x) (tagOf x) with
  | .noFill, none => (m.cache.line (setIndex x) (m.cache.victim (setIndex x))).data[(offsetOf x).val]
  | _, _ => m.peek x

/-- The byte a word store of `v` at `a` puts at address `x`, if `x` is one of its four addresses (R203, R225). -/
def storedByte (a v x : Word) : Option Byte :=
  if x = a then some (byteOf v 0)
  else if x = a + 1 then some (byteOf v 1)
  else if x = a + 2 then some (byteOf v 2)
  else if x = a + 3 then some (byteOf v 3)
  else none

/-- The byte a cached read of `x` gives after a word store of `v` at `a`: the stored byte; for another byte of a line
(R210's `lineIndex`) the store touches, `staleByte`; for every other byte, what it was. -/
def byteAfterStore (c : Config) (m : MemSys) (a v x : Word) : Byte :=
  match storedByte a v x with
  | some b => b
  | none => if x.toNat / 32 = a.toNat / 32 ∨ x.toNat / 32 = (a + 3).toNat / 32 then staleByte c m x else m.peek x

/-- What a miss in set `s` does to Memory and to the write-back count (R213, R220, R222): a valid dirty victim's 32 bytes
go to its base address and are counted; any other victim causes no Memory access. -/
def victimWritten (m m' : MemSys) (s : Fin 64) : Prop :=
  if (m.cache.line s (m.cache.victim s)).valid = true ∧ (m.cache.line s (m.cache.victim s)).dirty = true
  then m'.cache.writebacks = m.cache.writebacks + 1 ∧ ∀ x, m'.mem.read x =
    if h : lineBase (m.cache.line s (m.cache.victim s)).tag s ≤ x ∧
      x - lineBase (m.cache.line s (m.cache.victim s)).tag s < 32
    then (m.cache.line s (m.cache.victim s)).data[x - lineBase (m.cache.line s (m.cache.victim s)).tag s]'h.2
    else m.mem.read x
  else m'.cache.writebacks = m.cache.writebacks ∧ m'.mem = m.mem

/-- The way an access to `a` uses (R211, R212): the way that holds the line, or the victim on a miss. -/
def wayOf (m : MemSys) (a : Word) : Fin 4 :=
  match m.cache.lookup (setIndex a) (tagOf a) with
  | some w => w
  | none => m.cache.victim (setIndex a)

/-- The 32 bytes Memory holds at the line of `a`. -/
def memBlock (m : MemSys) (a : Word) : Vector Byte 32 :=
  Vector.ofFn fun i : Fin 32 => m.mem.read (lineBase (tagOf a) (setIndex a) + i.val)

/-- Lookup of `a` misses (R211). -/
def absent (m : MemSys) (a : Word) : Bool := (m.cache.lookup (setIndex a) (tagOf a)).isNone

/-- The line that a miss in set `s` replaces (R212). -/
def victimLine (m : MemSys) (s : Fin 64) : CacheLine := m.cache.line s (m.cache.victim s)

/-- An access to `a` misses and its victim is valid and dirty, so that the victim is written back (R213). -/
def evictsDirty (m : MemSys) (a : Word) : Bool :=
  absent m a && ((victimLine m (setIndex a)).valid && (victimLine m (setIndex a)).dirty)

/-- The byte that an access to `a` writes back to Memory address `x`, if `x` lies in a victim it writes back (R213). -/
def writtenBack (m : MemSys) (a : Word) (x : Nat) : Option Byte :=
  if h : evictsDirty m a = true ∧ lineBase (victimLine m (setIndex a)).tag (setIndex a) ≤ x ∧
      x - lineBase (victimLine m (setIndex a)).tag (setIndex a) < 32
  then some ((victimLine m (setIndex a)).data[x - lineBase (victimLine m (setIndex a)).tag (setIndex a)]'h.2.2)
  else none

/-- What one byte access to `a`, read or write, does to the counters and to Memory (R213, R220 to R222): a tick, one hit
or one miss, and Memory changes by a write-back alone. So a hit leaves Memory as it was, and a write puts its byte into
the cache only. -/
structure ByteEffects (m m' : MemSys) (a : Word) : Prop where
  accessCounter : m'.cache.accessCounter = m.cache.accessCounter + 1
  hits : m'.cache.hits + (absent m a).toNat = m.cache.hits + 1
  misses : m'.cache.misses = m.cache.misses + (absent m a).toNat
  writebacks : m'.cache.writebacks = m.cache.writebacks + (evictsDirty m a).toNat
  memKept : evictsDirty m a = false → m'.mem = m.mem
  memory : ∀ x, m'.mem.read x = (writtenBack m a x).getD (m.mem.read x)

/-- The sum of `f` over the one or two lines of `a` and `b`. -/
def perLine (a b : Word) (f : Word → Bool) : Nat :=
  if a.toNat / 32 = b.toNat / 32 then (f a).toNat else (f a).toNat + (f b).toNat

/-- What `n` byte accesses to the line of `a` and then to the line of `b` do to the counters, to Memory and to the other
lines of the cache (R213, R220 to R226). Each of the one or two lines misses at most once, Memory changes by the
write-backs of their victims alone, and no line changes but the one that each of them uses. -/
structure SpanEffects (m m' : MemSys) (n : Nat) (a b : Word) : Prop where
  accessCounter : m'.cache.accessCounter = m.cache.accessCounter + n
  hits : m'.cache.hits + perLine a b (absent m) = m.cache.hits + n
  misses : m'.cache.misses = m.cache.misses + perLine a b (absent m)
  writebacks : m'.cache.writebacks = m.cache.writebacks + perLine a b (evictsDirty m)
  memKept : evictsDirty m a = false → evictsDirty m b = false → m'.mem = m.mem
  memory : ∀ x, m'.mem.read x = (writtenBack m b x).getD ((writtenBack m a x).getD (m.mem.read x))
  lines : ∀ s w, ¬(s = setIndex a ∧ w = wayOf m a) → ¬(s = setIndex b ∧ w = wayOf m b) →
    m'.cache.line s w = m.cache.line s w

/-- The effects of an admitted word access at `a`: four byte accesses, from the line of `a` to the line of `a + 3`
(R224, R225). -/
abbrev WordEffects (m m' : MemSys) (a : Word) : Prop := SpanEffects m m' 4 a (a + 3)

/-! Frames: what an instruction leaves as it was. -/

/-- The configuration, HI and LO, which nothing changes (R105, R107). -/
def sameFixed (s t : State) : Prop := t.cfg = s.cfg ∧ t.hi = s.hi ∧ t.lo = s.lo

/-- Every register reads as before. -/
def sameRegs (s t : State) : Prop := ∀ i : RegIndex, t.readReg i = s.readReg i

/-- Every byte, as a cached read sees it, is as before. -/
def sameBytes (s t : State) : Prop := ∀ a : Word, t.msys.peek a = s.msys.peek a

/-- The execution statistics are as before (R112). -/
def sameStats (s t : State) : Prop :=
  t.executed = s.executed ∧ t.branches = s.branches ∧ t.loads = s.loads ∧ t.stores = s.stores

/-- The cache and Memory are untouched, so every byte reads as before, and so are the statistics, the configuration, HI,
LO, the output channel and the raw word. -/
def sameRest (s t : State) : Prop :=
  sameFixed s t ∧ sameStats s t ∧ t.msys = s.msys ∧ sameBytes s t ∧ t.output = s.output ∧ t.fetched = s.fetched

/-- The one register written is `rd`, with `v`; register 0 discards the write (R101). -/
def wroteOnly (s t : State) (rd : RegIndex) (v : Word) : Prop :=
  t.readReg rd = (if rd = 0#5 then 0#32 else v) ∧ (rd = 0#5 → t.x = s.x) ∧
    ∀ i : RegIndex, i ≠ rd → t.readReg i = s.readReg i

/-- What every instruction of spec/41_alu.md leaves (R500): `v` in `rd`, pc where it was, `execute` returning false, and
everything else as it was. -/
def aluNext (s t : State) (rd : RegIndex) (v : Word) : Prop :=
  wroteOnly s t rd v ∧ t.pc = s.pc ∧ t.result = .continued false ∧ sameRest s t

/-- What a control transfer leaves, but for the link register (R700): pc at the target and `execute` returning true. -/
def transferNext (s t : State) (target : Word) : Prop :=
  t.pc = target ∧ t.result = .continued true ∧ sameRest s t

/-- What a print syscall leaves (R800, R801): one more event, and everything else as it was. -/
def printNext (s t : State) (e : Event) : Prop :=
  t.output = s.output ++ [e] ∧ t.pc = s.pc ∧ t.result = .continued false ∧ sameRegs s t ∧ sameFixed s t ∧
    sameStats s t ∧ t.msys = s.msys ∧ sameBytes s t ∧ t.fetched = s.fetched

/-- A fault raised in a state: its record, and the state it leaves, which differs only in the model's own `result`
(R903, R906). -/
def faultsFrom (o : Host.Outcome State Fault Refusal) (cause : Cause) (info : Word) (s : State) : Prop :=
  ∃ f, o = .fault f ∧ faultRecord f = (cause, info, s.pc) ∧ faultAfter f = { s with result := .faulted }

/-- The register an instruction's destination field or fixed index names (R102). -/
def destination : Instr → Option RegIndex
  | .add rd _ _ | .sub rd _ _ | .and rd _ _ | .or rd _ _ | .slt rd _ _ | .sll rd _ _ | .srl rd _ _ => some rd
  | .addi rt _ _ | .slti rt _ _ | .lw rt _ _ => some rt
  | .jal _ => some 31#5
  | .sw .. | .beq .. | .bne .. | .jr .. | .j .. | .syscall => none

/-- "`execute` returns `true` exactly for Jr, J, Jal, and Beq or Bne whose condition holds" (R403). -/
def transfers (i : Instr) (s : State) : Prop :=
  match i with
  | .jr _ | .j _ | .jal _ => True
  | .beq rs rt _ => s.readReg rs = s.readReg rt
  | .bne rs rt _ => s.readReg rs ≠ s.readReg rt
  | .add .. | .sub .. | .and .. | .or .. | .slt .. | .sll .. | .srl .. | .addi .. | .slti .. | .lw .. | .sw ..
  | .syscall => False

/-- The instruction's own check fails (R907 (3)): the bounds check of Lw and Sw, the syscall code, the string read. -/
def ownCheckFails (i : Instr) (s : State) : Prop :=
  match i with
  | .lw _ rs imm | .sw _ rs imm => s.cfg.memSize ≤ (effectiveAddress (s.readReg rs) imm).toNat + 3
  | .syscall =>
    (s.readReg 2#5 ≠ 1#32 ∧ s.readReg 2#5 ≠ 4#32 ∧ s.readReg 2#5 ≠ 10#32 ∧ s.readReg 2#5 ≠ 11#32) ∨
    (s.readReg 2#5 = 4#32 ∧ ∀ a, (s.readReg 4#5).toNat ≤ a → a < s.cfg.memSize → s.msys.mem.read a ≠ 0#8)
  | .add .. | .sub .. | .and .. | .or .. | .slt .. | .sll .. | .srl .. | .addi .. | .slti .. | .beq .. | .bne .. | .jr ..
  | .j .. | .jal .. => False

/-- Two states that an instruction could tell apart only by what the cache holds: all else is equal, and every cached
read gives the same byte (R241). -/
def sameVisible (s t : State) : Prop :=
  t = { s with msys := t.msys } ∧ sameBytes s t

/-- Two outcomes of one kind, with states that `sameVisible` relates. -/
def outcomesAgree (o p : Host.Outcome State Fault Refusal) : Prop :=
  match o, p with
  | .next s, .next t => sameVisible s t
  | .fault f, .fault g => faultRecord f = faultRecord g ∧ sameVisible (faultAfter f) (faultAfter g)
  | .refused q, .refused r => q = r
  | _, _ => False

/-- The state with another configuration. -/
def State.withCfg (s : State) (c : Config) : State := { s with cfg := c }

/-- A fault with its state's configuration replaced. -/
def Fault.withCfg (c : Config) : Fault → Fault
  | .addressFault addr pc after => .addressFault addr pc (after.withCfg c)
  | .invalidInstruction word pc after => .invalidInstruction word pc (after.withCfg c)

/-- An outcome with its state's configuration replaced. -/
def outcomeWithCfg (c : Config) (o : Host.Outcome State Fault Refusal) : Host.Outcome State Fault Refusal :=
  match o with
  | .next s => .next (s.withCfg c)
  | .fault f => .fault (f.withCfg c)
  | .refused r => .refused r

/-! Runs. -/

/-- `t` is reached from `s` by `n` rounds of `run`'s loop (R1010): each starts away from `HALT_ADDR` and is a step that
goes on and does not end the program. -/
def stepsTo : Nat → State → State → Prop
  | 0, s, t => t = s
  | n + 1, s, t => s.pc ≠ s.cfg.haltAddr ∧ ∃ u, step s = .next u ∧ u.result ≠ .programEnd ∧ stepsTo n u t

/-- What a step over cached code leaves of the cache and Memory when the instruction itself touches neither (R220, R909):
only the access counter, the hits and the timestamps may grow. -/
structure OnlyHits (m m' : MemSys) : Prop where
  mem : m'.mem = m.mem
  line : ∀ s w, ∃ ts, m'.cache.line s w = { m.cache.line s w with ts := ts } ∧ (m.cache.line s w).ts ≤ ts
  accessCounter : m.cache.accessCounter ≤ m'.cache.accessCounter
  hits : m'.cache.hits + m.cache.accessCounter = m.cache.hits + m'.cache.accessCounter
  misses : m'.cache.misses = m.cache.misses
  writebacks : m'.cache.writebacks = m.cache.writebacks

/-- Two states that are equal but for hits counted and stamped in the cache: registers, pc, HI, LO, statistics, output,
Memory and every byte a read sees are the same. -/
def repeats (s t : State) : Prop := t = { s with msys := t.msys } ∧ OnlyHits s.msys t.msys ∧ sameBytes s t

/-- No statistic falls (R112). -/
def countersGrow (s t : State) : Prop :=
  s.executed ≤ t.executed ∧ s.branches ≤ t.branches ∧ s.loads ≤ t.loads ∧ s.stores ≤ t.stores ∧
  s.msys.cache.accessCounter ≤ t.msys.cache.accessCounter ∧ s.msys.cache.hits ≤ t.msys.cache.hits ∧
  s.msys.cache.misses ≤ t.msys.cache.misses ∧ s.msys.cache.writebacks ≤ t.msys.cache.writebacks

end Sys2Proof.Machine
end

