-- ==== Sys2Proof/Certificates/Slice0/Obligations.lean ====
section
/-! DEFINITION. The statements about the machine. Each docstring names the rule of spec/ it formalises. Where a
statement reads the field `result`, that is where the model keeps what `execute` and `step` return (R400;
notes/assumptions/4.md); `fetched` is the raw word of the executing instruction (notes/assumptions/3.md); a fault carries
the state its step leaves (notes/assumptions/5.md). `MemOk` and `State.Inv` are invariants, stated here as well. -/

open Sys2Proof Sys2Proof.Machine

/-! Encoding. -/

/-- R301, R302, R310: every instruction, with every operand its fields can hold, decodes from its own encoding. -/
def Obligations.DecodeOfEncodeIsTheInstruction : Prop := ∀ i : Instr, decode (encode i) = .instr i

/-- R311: a word that decodes to an instruction is that instruction's encoding on every bit the instruction uses, and
the bits it does not use may hold any value. -/
def Obligations.DecodeReadsExactlyTheUsedBits : Prop :=
  (∀ (w : Word) (i : Instr), decode w = .instr i → w &&& usedMask i = encode i ∧ w &&& rowMask i = rowMatch i) ∧
  ∀ (w : Word) (i : Instr), w &&& usedMask i = encode i → decode w = .instr i

/-- R310, R312: a word decodes to `Invalid` exactly when its opcode, or for opcode 0 its funct, is not in the table, and
`Invalid` carries the word. -/
def Obligations.InvalidExactlyOnTheIllegalSpace : Prop :=
  ∀ w : Word,
    ((∃ u, decode w = .invalid u) ↔
      (opcodeOf w = 0x00#6 ∧
        functOf w ∉ [0x00#6, 0x02#6, 0x08#6, 0x0C#6, 0x20#6, 0x22#6, 0x24#6, 0x25#6, 0x2A#6]) ∨
      opcodeOf w ∉ [0x00#6, 0x02#6, 0x03#6, 0x04#6, 0x05#6, 0x08#6, 0x0A#6, 0x23#6, 0x2B#6]) ∧
    ∀ u, decode w = .invalid u → u = w

/-- R301, R310, R315: words written out from the encodings, one of each format and family, decode as the spec says. -/
def Obligations.WordsWrittenFromTheSpecDecode : Prop :=
  decode 0x00430820#32 = .instr (.add 1 2 3) ∧ decode 0x20410064#32 = .instr (.addi 1 2 100) ∧
  decode 0x000520C0#32 = .instr (.sll 4 5 3) ∧ decode 0x8FA8FFFC#32 = .instr (.lw 8 29 0xFFFC) ∧
  decode 0xAFA8FFFC#32 = .instr (.sw 8 29 0xFFFC) ∧ decode 0x1020FFFE#32 = .instr (.beq 1 0 0xFFFE) ∧
  decode 0x03E00008#32 = .instr (.jr 31) ∧ decode 0x08000010#32 = .instr (.j 0x10) ∧
  decode 0x0C000040#32 = .instr (.jal 0x40) ∧ decode 0x03FFFFCC#32 = .instr .syscall ∧
  decode 0xFC000000#32 = .invalid 0xFC000000#32

/-- R203, R300: the byte at the lowest address holds bits 7 to 0, byte `i` of a word is its bits `[8i+7:8i]`, and an
instruction's four bytes decode as its word does. -/
def Obligations.WordsAreLittleEndian : Prop :=
  (∀ w : Word, wordOfBytes (byteOf w 0) (byteOf w 1) (byteOf w 2) (byteOf w 3) = w) ∧
  (∀ b0 b1 b2 b3 : Byte, (wordOfBytes b0 b1 b2 b3).toNat =
    b0.toNat + 2 ^ 8 * b1.toNat + 2 ^ 16 * b2.toNat + 2 ^ 24 * b3.toNat) ∧
  ∀ (w : Word) (rest : List Byte), decodeBytes ((leBytes w).toList ++ rest) =
    match decode w with
    | .instr i => .ok (i, rest)
    | .invalid u => .error (.invalid u)

/-- R320: the examples of the canonical syntax table. -/
def Obligations.DisassemblyFollowsTheExamples : Prop :=
  disassemble (.instr (.add 1 2 3)) = "add $1, $2, $3" ∧ disassemble (.instr (.sll 4 5 3)) = "sll $4, $5, 3" ∧
  disassemble (.instr (.jr 31)) = "jr $31" ∧ disassemble (.instr .syscall) = "syscall" ∧
  disassemble (.instr (.addi 1 2 100)) = "addi $1, $2, 100" ∧
  disassemble (.instr (.lw 8 29 0xFFFC)) = "lw $8, -4($29)" ∧
  disassemble (.instr (.beq 1 0 0xFFFE)) = "beq $1, $0, -2" ∧
  disassemble (.instr (.j 0x10)) = "j 0x00000040" ∧
  disassemble (.invalid 0xFC000000#32) = "invalid 0xfc000000"

/-! Registers. -/

/-- R101: register 0 reads 0 and discards writes, every other register holds what was written to it, and an instruction
whose destination is register 0 performs all its other effects. -/
def Obligations.RegisterZeroIsHardwired : Prop :=
  (∀ s : State, s.readReg 0#5 = 0#32) ∧ (∀ (s : State) (v : Word), s.writeReg 0#5 v = s) ∧
  (∀ (s : State) (i : RegIndex) (v : Word), i ≠ 0#5 → (s.writeReg i v).readReg i = v) ∧
  (∀ (s : State) (i j : RegIndex) (v : Word), j ≠ i → (s.writeReg i v).readReg j = s.readReg j) ∧
  (∀ (s : State) (rs rt : RegIndex) (sh : BitVec 5) (imm : BitVec 16),
    ∀ i ∈ [Instr.add 0 rs rt, .sub 0 rs rt, .and 0 rs rt, .or 0 rs rt, .slt 0 rs rt, .sll 0 rt sh, .srl 0 rt sh,
        .addi 0 rs imm, .slti 0 rs imm],
      exec i s = .next (s.finish false)) ∧
  ∀ (s : State) (rs : RegIndex) (imm : BitVec 16) (v : Word) (m : MemSys),
    s.msys.readWord s.cfg (effectiveAddress (s.readReg rs) imm) = .done v m →
      exec (.lw 0 rs imm) s = .next (((s.setMsys m).countLoad).finish false)

/-! Arithmetic, logic, shifts, comparison. -/

/-- R501, R502, R508, R510: Add, Sub and Addi write the exact sum or difference modulo 2^32, "the same bit pattern whether
the operands are read signed or unsigned", and change nothing else. -/
def Obligations.AddSubAddiWriteTheWrappedResult : Prop :=
  ∀ (s : State) (rd rs rt : RegIndex) (imm : BitVec 16),
    (∃ t, exec (.add rd rs rt) s = .next t ∧
      aluNext s t rd (BitVec.ofNat 32 ((s.readReg rs).toNat + (s.readReg rt).toNat)) ∧
      aluNext s t rd (BitVec.ofInt 32 ((s.readReg rs).toInt + (s.readReg rt).toInt))) ∧
    (∃ t, exec (.sub rd rs rt) s = .next t ∧
      aluNext s t rd (BitVec.ofInt 32 ((s.readReg rs).toNat - (s.readReg rt).toNat)) ∧
      aluNext s t rd (BitVec.ofInt 32 ((s.readReg rs).toInt - (s.readReg rt).toInt))) ∧
    ∃ t, exec (.addi rt rs imm) s = .next t ∧
      aluNext s t rt (BitVec.ofInt 32 ((s.readReg rs).toInt + imm.toInt))

/-- R503, R504: And and Or work bit by bit on 32 bits and change nothing else. -/
def Obligations.AndOrWriteTheBitwiseResult : Prop :=
  ∀ (s : State) (rd rs rt : RegIndex),
    (∃ t v, exec (.and rd rs rt) s = .next t ∧ aluNext s t rd v ∧
      ∀ k, v.getLsbD k = ((s.readReg rs).getLsbD k && (s.readReg rt).getLsbD k)) ∧
    ∃ t v, exec (.or rd rs rt) s = .next t ∧ aluNext s t rd v ∧
      ∀ k, v.getLsbD k = ((s.readReg rs).getLsbD k || (s.readReg rt).getLsbD k)

/-- R505, R509: Slt and Slti write 1 when the first operand is less, signed, than the second, else 0, and change nothing
else. -/
def Obligations.SltSltiCompareSigned : Prop :=
  ∀ (s : State) (rd rs rt : RegIndex) (imm : BitVec 16),
    (∃ t, exec (.slt rd rs rt) s = .next t ∧
      aluNext s t rd (if (s.readReg rs).toInt < (s.readReg rt).toInt then 1#32 else 0#32)) ∧
    ∃ t, exec (.slti rt rs imm) s = .next t ∧
      aluNext s t rt (if (s.readReg rs).toInt < imm.toInt then 1#32 else 0#32)

/-- R506, R507: Sll multiplies by the power of two and drops the bits past bit 31; Srl divides, filling with zeros. They
change nothing else. -/
def Obligations.SllSrlShiftLogically : Prop :=
  ∀ (s : State) (rd rt : RegIndex) (shamt : BitVec 5),
    (∃ t, exec (.sll rd rt shamt) s = .next t ∧
      aluNext s t rd (BitVec.ofNat 32 ((s.readReg rt).toNat * 2 ^ shamt.toNat))) ∧
    ∃ t, exec (.srl rd rt shamt) s = .next t ∧
      aluNext s t rd (BitVec.ofNat 32 ((s.readReg rt).toNat / 2 ^ shamt.toNat))

/-! Branches and jumps. -/

/-- R304: the branch offset is `w32(s(imm) * 4) = sext_32(imm) << 2`, in [-131072, 131068], and a taken branch adds it to
the branch's own address. -/
def Obligations.BranchOffsetIsTheImmediateTimesFour : Prop :=
  (∀ imm : BitVec 16, BitVec.ofInt 32 (imm.toInt * 4) = imm.signExtend 32 <<< 2 ∧
    -131072 ≤ imm.toInt * 4 ∧ imm.toInt * 4 ≤ 131068) ∧
  ∀ (s t : State) (rs rt : RegIndex) (imm : BitVec 16),
    (s.readReg rs = s.readReg rt → exec (.beq rs rt imm) s = .next t → t.pc = s.pc + BitVec.ofInt 32 (imm.toInt * 4)) ∧
    (s.readReg rs ≠ s.readReg rt → exec (.bne rs rt imm) s = .next t → t.pc = s.pc + BitVec.ofInt 32 (imm.toInt * 4))

/-- R305: the jump address keeps the top 4 bits of the jump's own address and has the target, times four, below them; it
is a multiple of 4 in the jump's own 256 MiB region; J and Jal go there. -/
def Obligations.JumpTargetIsInTheJumpsOwnRegion : Prop :=
  (∀ (pc : Word) (target : BitVec 26),
    (jumpTarget pc target).toNat = pc.toNat / 2 ^ 28 * 2 ^ 28 + target.toNat * 4 ∧
    (jumpTarget pc target).toNat % 4 = 0 ∧ (jumpTarget pc target).toNat / 2 ^ 28 = pc.toNat / 2 ^ 28) ∧
  ∀ (s t : State) (target : BitVec 26),
    (exec (.j target) s = .next t ∨ exec (.jal target) s = .next t) → t.pc = jumpTarget s.pc target

/-- R701, R704, R705: Jr, J and Jal transfer control; Jal writes `pc + 4` to register 31; nothing else changes. -/
def Obligations.JumpsTransferAndJalLinks : Prop :=
  ∀ (s : State) (rs : RegIndex) (target : BitVec 26),
    (∃ t, exec (.jr rs) s = .next t ∧ transferNext s t (s.readReg rs) ∧ sameRegs s t) ∧
    (∃ t, exec (.j target) s = .next t ∧ sameRegs s t ∧
      transferNext s t (BitVec.ofNat 32 (s.pc.toNat / 2 ^ 28 * 2 ^ 28 + target.toNat * 4))) ∧
    ∃ t, exec (.jal target) s = .next t ∧ wroteOnly s t 31#5 (BitVec.ofNat 32 (s.pc.toNat + 4)) ∧
      transferNext s t (BitVec.ofNat 32 (s.pc.toNat / 2 ^ 28 * 2 ^ 28 + target.toNat * 4))

/-- R702, R703: Beq transfers when the two registers are equal on all 32 bits, Bne when they differ, to
`pc + s(imm) * 4` from the branch's own address; when not taken, pc stays for the step's + 4; nothing else changes. -/
def Obligations.BranchesTransferOnTheirCondition : Prop :=
  ∀ (s : State) (rs rt : RegIndex) (imm : BitVec 16),
    (∃ t, exec (.beq rs rt imm) s = .next t ∧ sameRegs s t ∧
      if (s.readReg rs).toNat = (s.readReg rt).toNat
      then transferNext s t (BitVec.ofInt 32 (s.pc.toNat + imm.toInt * 4))
      else t.pc = s.pc ∧ t.result = .continued false ∧ sameRest s t) ∧
    ∃ t, exec (.bne rs rt imm) s = .next t ∧ sameRegs s t ∧
      if (s.readReg rs).toNat = (s.readReg rt).toNat
      then t.pc = s.pc ∧ t.result = .continued false ∧ sameRest s t
      else transferNext s t (BitVec.ofInt 32 (s.pc.toNat + imm.toInt * 4))

/-! Loads and stores. -/

/-- R224, R601: Lw inside Memory writes to `rt` the little-endian word that cached reads of the four bytes at the
effective address see, and counts a load. Every byte reads as before. Of the counters, Memory and the cache's lines only
what `WordEffects` says changes: Memory receives the dirty victims of lines that were absent, and nothing else. -/
def Obligations.LwLoadsTheWordAtTheEffectiveAddress : Prop :=
  ∀ (s : State) (rt rs : RegIndex) (imm : BitVec 16), MemOk s.cfg s.msys →
    (effectiveAddress (s.readReg rs) imm).toNat + 3 < s.cfg.memSize →
    effectiveAddress (s.readReg rs) imm = BitVec.ofInt 32 ((s.readReg rs).toNat + imm.toInt) ∧
    ∃ t, exec (.lw rt rs imm) s = .next t ∧
      wroteOnly s t rt (s.msys.peekWord (effectiveAddress (s.readReg rs) imm)) ∧
      t.loads = s.loads + 1 ∧ t.stores = s.stores ∧ t.executed = s.executed ∧ t.branches = s.branches ∧
      t.pc = s.pc ∧ t.result = .continued false ∧ t.output = s.output ∧ t.fetched = s.fetched ∧
      sameFixed s t ∧ sameBytes s t ∧ WordEffects s.msys t.msys (effectiveAddress (s.readReg rs) imm) ∧
      MemOk t.cfg t.msys

/-- R602, R222, R223, R225: Sw inside Memory puts the four bytes of `rt`'s value at the effective address in the cache,
counts a store, and leaves every register as it was. "The store writes the cache only": of the counters, Memory and the
cache's lines only what `WordEffects` says changes, so Memory receives the dirty victims of lines that were absent, and
nothing else. Every byte outside the lines it touches reads as before; so does every byte it does not store, under `Fill`
or when its line was in the cache; under `NoFill`, the other bytes of a line that was not in the cache read as the bytes of
the way that line was put into. -/
def Obligations.SwStoresTheWordAtTheEffectiveAddress : Prop :=
  ∀ (s : State) (rt rs : RegIndex) (imm : BitVec 16), MemOk s.cfg s.msys →
    (effectiveAddress (s.readReg rs) imm).toNat + 3 < s.cfg.memSize →
    ∃ t, exec (.sw rt rs imm) s = .next t ∧
      t.stores = s.stores + 1 ∧ t.loads = s.loads ∧ t.executed = s.executed ∧ t.branches = s.branches ∧
      t.pc = s.pc ∧ t.result = .continued false ∧ t.output = s.output ∧ t.fetched = s.fetched ∧
      sameFixed s t ∧ sameRegs s t ∧ WordEffects s.msys t.msys (effectiveAddress (s.readReg rs) imm) ∧
      MemOk t.cfg t.msys ∧
      (∀ i, i < 4 → t.msys.peek (effectiveAddress (s.readReg rs) imm + BitVec.ofNat 32 i) =
        byteOf (s.readReg rt) i) ∧
      ∀ a : Word, (∀ i, i < 4 → a ≠ effectiveAddress (s.readReg rs) imm + BitVec.ofNat 32 i) →
        ((a.toNat / 32 ≠ (effectiveAddress (s.readReg rs) imm).toNat / 32 ∧
            a.toNat / 32 ≠ (effectiveAddress (s.readReg rs) imm + 3).toNat / 32) ∨ s.cfg.waFill = .fill ∨
            (s.msys.cache.lookup (setIndex a) (tagOf a)).isSome →
          t.msys.peek a = s.msys.peek a) ∧
        (s.cfg.waFill = .noFill → s.msys.cache.lookup (setIndex a) (tagOf a) = none →
          (a.toNat / 32 = (effectiveAddress (s.readReg rs) imm).toNat / 32 ∨
            a.toNat / 32 = (effectiveAddress (s.readReg rs) imm + 3).toNat / 32) →
          t.msys.peek a =
            (s.msys.cache.line (setIndex a) (s.msys.cache.victim (setIndex a))).data[(offsetOf a).val])

/-- R600 to R602, R901: Lw and Sw whose four bytes are not all inside Memory fault with the effective address, before
any effect. The bounds check is on exact integers, so nothing wraps. -/
def Obligations.LwSwOutsideMemoryFault : Prop :=
  ∀ (s : State) (rt rs : RegIndex) (imm : BitVec 16),
    s.cfg.memSize ≤ (effectiveAddress (s.readReg rs) imm).toNat + 3 →
    faultsFrom (exec (.lw rt rs imm) s) .address (effectiveAddress (s.readReg rs) imm) s ∧
    faultsFrom (exec (.sw rt rs imm) s) .address (effectiveAddress (s.readReg rs) imm) s

/-- R603: a word written at any address inside Memory reads back, through the cache under both values of `WA_FILL`, and
directly against Memory. -/
def Obligations.StoredWordReadsBack : Prop :=
  (∀ (c : Config) (m : MemSys) (a v : Word), MemOk c m → a.toNat + 3 < c.memSize →
    ∃ m1 m2, m.writeWord c a v = .done () m1 ∧ m1.readWord c a = .done v m2) ∧
  ∀ (c : Config) (mem : Memory) (a v : Word), Memory.wf mem → a.toNat + 3 < c.memSize →
    ∃ mem', backWrite c 4 a.toNat (leBytes v) mem = .ok mem' ∧ backRead c 4 a.toNat mem' = .ok (leBytes v)

/-! Syscall. -/

/-- R802: code 1 emits `PrintInt(s(x[4]))`. That it returns false is read from `result` (notes/assumptions/4.md). -/
def Obligations.SyscallOnePrintsASignedInteger : Prop :=
  ∀ s : State, s.readReg 2#5 = 1#32 →
    ∃ t, exec .syscall s = .next t ∧ printNext s t (.printInt (s.readReg 4#5).toInt)

/-- R805: code 11 emits `PrintChar(x[4][7:0])`; the upper 24 bits are ignored. That it returns false is read from `result`
(notes/assumptions/4.md). -/
def Obligations.SyscallElevenPrintsTheLowByte : Prop :=
  ∀ s : State, s.readReg 2#5 = 11#32 →
    ∃ t, exec .syscall s = .next t ∧
      printNext s t (.printChar (BitVec.ofNat 8 ((s.readReg 4#5).toNat % 256)))

/-- R803, R242: code 4 emits the bytes of Memory, not of the cache, from `x[4]` up to the first NUL. -/
def Obligations.SyscallFourPrintsTheStringInMemory : Prop :=
  ∀ (s : State) (bytes : List Byte), s.readReg 2#5 = 4#32 →
    (s.readReg 4#5).toNat + bytes.length < s.cfg.memSize →
    (∀ i (h : i < bytes.length), s.msys.mem.read ((s.readReg 4#5).toNat + i) = bytes[i] ∧ bytes[i] ≠ 0#8) →
    s.msys.mem.read ((s.readReg 4#5).toNat + bytes.length) = 0#8 →
    ∃ t, exec .syscall s = .next t ∧ printNext s t (.printString bytes)

/-- R803, R901: code 4 faults when no NUL lies below `MEM_SIZE`, at `MEM_SIZE` or at a start beyond it, and emits
nothing. -/
def Obligations.SyscallFourWithoutNulFaults : Prop :=
  ∀ s : State, s.readReg 2#5 = 4#32 →
    (∀ a, (s.readReg 4#5).toNat ≤ a → a < s.cfg.memSize → s.msys.mem.read a ≠ 0#8) →
    faultsFrom (exec .syscall s) .address (BitVec.ofNat 32 (max (s.readReg 4#5).toNat s.cfg.memSize)) s

/-- R804, R904: code 10 ends the program, a success told apart from every fault; pc, the registers, the counters, memory
and the output stay. That it is a next state whose `result` says so is the model's choice (notes/assumptions/4.md). -/
def Obligations.SyscallTenEndsTheProgram : Prop :=
  (∀ s : State, s.readReg 2#5 = 10#32 → exec .syscall s = .next { s with result := .programEnd }) ∧
  ∀ (s : State) (w : Word) (m : MemSys), fetch s = .done w m → decode w = .instr .syscall → s.readReg 2#5 = 10#32 →
    step s = .next { s with msys := m, fetched := w, result := .programEnd }

/-- R806: a syscall whose code is not 1, 4, 10 or 11, compared as a whole word, raises `InvalidInstruction(w)` with the
raw word; nothing is output and pc stays. The state after the fault is read from the fault (notes/assumptions/5.md). -/
def Obligations.UnrecognisedSyscallCodeFaults : Prop :=
  ∀ (s : State) (w : Word) (m : MemSys), fetch s = .done w m → decode w = .instr .syscall →
    s.readReg 2#5 ∉ [1#32, 4#32, 10#32, 11#32] →
    ∃ f, step s = .fault f ∧ faultRecord f = (.invalidInstruction, w, s.pc) ∧
      (faultAfter f).output = s.output ∧ (faultAfter f).pc = s.pc

/-! The step. -/

/-- R400, R402: a step runs the decoded instruction: it fetches the word at pc, decodes it, executes it on the state with
the fetch's cache effects, and completes it. On a sound state the word is the one cached reads see at pc. -/
def Obligations.StepRunsTheDecodedInstruction : Prop :=
  (∀ (s : State) (w : Word) (m : MemSys) (i : Instr), fetch s = .done w m → decode w = .instr i →
    step s = complete (exec i (beginExecute s w m))) ∧
  ∀ (s : State) (i : Instr), MemOk s.cfg s.msys → s.pc.toNat + 3 < s.cfg.memSize →
    decode (s.msys.peekWord s.pc) = .instr i →
    ∃ m, step s = complete (exec i { s with msys := m, fetched := s.msys.peekWord s.pc })

/-- R401: the fetch reads the little-endian word at pc, of any alignment, through the cache, with four byte accesses,
counts neither as a load nor as a store, and leaves every byte reading as before. Memory receives the dirty victims of
lines that were absent, and nothing else (`WordEffects`). -/
def Obligations.FetchReadsTheWordAtPcThroughTheCache : Prop :=
  ∀ s : State, MemOk s.cfg s.msys → s.pc.toNat + 3 < s.cfg.memSize →
    ∃ m, fetch s = .done (s.msys.peekWord s.pc) m ∧ MemOk s.cfg m ∧ (∀ a, m.peek a = s.msys.peek a) ∧
      WordEffects s.msys m s.pc ∧
      (beginExecute s (s.msys.peekWord s.pc) m).loads = s.loads ∧
      (beginExecute s (s.msys.peekWord s.pc) m).stores = s.stores

/-- R405, R406: when `execute` returned false, pc becomes `pc + 4` modulo 2^32; when it returned true, pc keeps what the
instruction wrote; `executed` counts the step and `branches` a taken transfer. A step that ends with a fault or with
`ProgramEnd` changes neither counter. Loads and stores count only in Lw and Sw. The step returns what `execute` returned
(R400). Both are read from `result`, and the state after a fault from the fault (notes/assumptions/4.md and 5.md). -/
def Obligations.StepAdvancesPcAndStatistics : Prop :=
  (∀ s t : State, step s = .next t → ∃ w m i u, fetch s = .done w m ∧ decode w = .instr i ∧
    exec i (beginExecute s w m) = .next u ∧ t.result = u.result ∧
    ((u.result = .continued false ∧ t.pc = BitVec.ofNat 32 (s.pc.toNat + 4) ∧ t.executed = s.executed + 1 ∧
        t.branches = s.branches) ∨
     (u.result = .continued true ∧ t.pc = u.pc ∧ t.executed = s.executed + 1 ∧ t.branches = s.branches + 1) ∨
     (u.result = .programEnd ∧ t.pc = s.pc ∧ t.executed = s.executed ∧ t.branches = s.branches)) ∧
    t.loads = s.loads + (match i with | .lw .. => 1 | _ => 0) ∧
    t.stores = s.stores + (match i with | .sw .. => 1 | _ => 0)) ∧
  ∀ (s : State) (f : Fault), step s = .fault f →
    (faultAfter f).executed = s.executed ∧ (faultAfter f).branches = s.branches

/-- R403, R407: `execute` returns true exactly for Jr, J, Jal and a Beq or Bne whose condition holds, and changes pc in
no other case. -/
def Obligations.ExecuteReturnsTrueExactlyForTakenTransfers : Prop :=
  ∀ (i : Instr) (s t : State), exec i s = .next t →
    (t.result = .continued true ↔ transfers i s) ∧ (¬ transfers i s → t.pc = s.pc) ∧
    (¬ transfers i s → t.result = .continued false ∨
      (i = .syscall ∧ s.readReg 2#5 = 10#32 ∧ t.result = .programEnd))

/-- R401, R901: a fetch whose four bytes are not all inside Memory faults with pc, before any cache access. -/
def Obligations.FetchOutsideMemoryFaults : Prop :=
  ∀ s : State, s.cfg.memSize ≤ s.pc.toNat + 3 → faultsFrom (step s) .address s.pc s

/-- R410: executing the `Invalid` variant always raises `InvalidInstruction` with the raw word; the fetch's cache effects
stay and pc holds the word's address. -/
def Obligations.InvalidWordFaults : Prop :=
  ∀ (s : State) (w u : Word) (m : MemSys), fetch s = .done w m → decode w = .invalid u →
    u = w ∧ faultsFrom (step s) .invalidInstruction w { s with msys := m, fetched := w }

/-- R409, and R906, which the spec derives from it: a step that faults changes no register, nor pc, HI, LO, the execution
counters or the output, and the record's pc is the instruction's address. In a sound state, what stays is exactly the
fetch's cache effects, which change no byte a read sees. That the state after a fault is in the fault is the model's choice
(notes/assumptions/5.md). -/
def Obligations.FaultsArePrecise : Prop :=
  ∀ (s : State) (f : Fault), step s = .fault f →
    sameRegs s (faultAfter f) ∧ (faultAfter f).pc = s.pc ∧ (faultRecord f).2.2 = s.pc ∧ sameFixed s (faultAfter f) ∧
    sameStats s (faultAfter f) ∧ (faultAfter f).output = s.output ∧
    (MemOk s.cfg s.msys →
      (∀ w m, fetch s = .done w m → (faultAfter f).msys = m) ∧
      ((∀ w m, fetch s ≠ .done w m) → (faultAfter f).msys = s.msys) ∧ sameBytes s (faultAfter f))

/-- R901, R902, R907: a step of a sound state faults exactly when the fetch leaves Memory, or the word is `Invalid`, or
the instruction's own check fails. -/
def Obligations.StepFaultsExactlyWhenTheSpecSays : Prop :=
  ∀ s : State, MemOk s.cfg s.msys →
    ((∃ f, step s = .fault f) ↔
      s.cfg.memSize ≤ s.pc.toNat + 3 ∨
      ∃ w m, fetch s = .done w m ∧
        ((∃ u, decode w = .invalid u) ∨ ∃ i, decode w = .instr i ∧ ownCheckFails i (beginExecute s w m)))

/-- R403, R900: a step never ends in a refusal: every instruction has its effect or the spec's own fault. -/
def Obligations.StepNeverRefuses : Prop := ∀ (s : State) (r : Refusal), step s ≠ .refused r

/-- R909: a step after a fault, or after `ProgramEnd`, re-executes the same instruction from the unchanged registers and
pc and gets the same outcome, and leaves all as it was but for the hits of the re-fetch and the timestamps they stamp
(`repeats`). That the state after a fault is in the fault, and that `ProgramEnd` is a next state whose `result` says so, are
the model's choices (notes/assumptions/5.md and 4.md). -/
def Obligations.StepAfterATerminalOutcomeRepeatsIt : Prop :=
  ∀ s : State, MemOk s.cfg s.msys →
    (∀ f, step s = .fault f → sameRegs s (faultAfter f) ∧ (faultAfter f).pc = s.pc ∧
      ∃ g, step (faultAfter f) = .fault g ∧ faultRecord g = faultRecord f ∧ repeats (faultAfter f) (faultAfter g)) ∧
    ∀ t, step s = .next t → t.result = .programEnd → sameRegs s t ∧ t.pc = s.pc ∧
      ∃ u, step t = .next u ∧ u.result = .programEnd ∧ repeats t u ∧
        u.msys.cache.accessCounter = t.msys.cache.accessCounter + 4

/-! Invariants and whole-machine rules. -/

/-- R101, R105, R111, R206, R211, R212, R406, R801: every step keeps the invariant of the machine, whether it goes on or
faults. -/
def Obligations.EveryStepKeepsTheInvariant : Prop :=
  ∀ s : State, s.Inv →
    (∀ t, step s = .next t → t.Inv) ∧ ∀ f, step s = .fault f → (faultAfter f).Inv

/-- A newly constructed core, of any allowed configuration, has the invariant. -/
def Obligations.ConstructedCoreHasTheInvariant : Prop :=
  ∀ c : Config, c.wellFormed → (State.constructed c).Inv

/-- R120, R1000: what construction leaves, for every allowed configuration, and that no other is constructed. `reset` is
construction with the example configuration, the model's choice (notes/assumptions/1.md). -/
def Obligations.ConstructionGivesTheResetValues : Prop :=
  (∀ c : Config, c.wellFormed → ∃ s, construct c = .next s ∧ s.cfg = c ∧
    (∀ i : RegIndex, s.readReg i = if i = 29#5 then c.spInit else 0#32) ∧ s.pc = c.start ∧ s.hi = 0#32 ∧ s.lo = 0#32 ∧
    (∀ (k : Fin 64) (w : Fin 4), (s.msys.cache.line k w).valid = false ∧ (s.msys.cache.line k w).dirty = false ∧
      (s.msys.cache.line k w).tag = 0 ∧ (s.msys.cache.line k w).data = Vector.replicate 32 0#8 ∧
      (s.msys.cache.line k w).ts = 0) ∧
    s.msys.cache.accessCounter = 0 ∧ s.msys.cache.hits = 0 ∧ s.msys.cache.misses = 0 ∧ s.msys.cache.writebacks = 0 ∧
    s.executed = 0 ∧ s.branches = 0 ∧ s.loads = 0 ∧ s.stores = 0 ∧ s.output = [] ∧ ∀ a, s.msys.mem.read a = 0#8) ∧
  (∀ c : Config, ¬ c.wellFormed → construct c = .refused (.memSizeNotAllowed c.memSize)) ∧
  construct Config.specExample = .next State.reset

/-- R105, R107: no step, whether it goes on or faults, changes HI, LO or the configuration. -/
def Obligations.HiLoAndConfigurationNeverChange : Prop :=
  ∀ s : State, (∀ t, step s = .next t → sameFixed s t) ∧ ∀ f, step s = .fault f → sameFixed s (faultAfter f)

/-- R102: a step changes no register but the one its instruction's destination field, or Jal's fixed index, names. -/
def Obligations.OnlyTheDestinationRegisterChanges : Prop :=
  ∀ (s t : State) (w : Word) (m : MemSys) (i : Instr), fetch s = .done w m → decode w = .instr i → step s = .next t →
    ∀ r : RegIndex, destination i ≠ some r → t.readReg r = s.readReg r

/-- R113, R801: only Syscall appends to the output channel, at most one event a step, and nothing is ever removed. -/
def Obligations.OnlySyscallAppendsToTheOutput : Prop :=
  ∀ (s t : State) (w : Word) (m : MemSys) (i : Instr), fetch s = .done w m → decode w = .instr i → step s = .next t →
    ∃ events : List Event, t.output = s.output ++ events ∧ events.length ≤ 1 ∧ (i ≠ .syscall → events = [])

/-- R112: the statistics only increase, whether a step goes on or faults, and a step that goes on counts cache accesses.
The statistics after a fault are those of the state in the fault (notes/assumptions/5.md). -/
def Obligations.StatisticsOnlyIncrease : Prop :=
  ∀ s : State, MemOk s.cfg s.msys →
    (∀ t, step s = .next t → countersGrow s t ∧ s.msys.cache.accessCounter < t.msys.cache.accessCounter) ∧
    ∀ f, step s = .fault f → countersGrow s (faultAfter f)

/-- R411, R107: a step reads no parameter but `MEM_SIZE` and `WA_FILL`: not `HALT_ADDR`, not `MAX_STEPS`, which belong to
`run`, nor any other. -/
def Obligations.StepReadsOnlyMemSizeAndFill : Prop :=
  ∀ (s : State) (c : Config), c.memSize = s.cfg.memSize → c.waFill = s.cfg.waFill →
    step (s.withCfg c) = outcomeWithCfg c (step s)

/-- R241: under `Fill` the cache is invisible to instructions: two sound states that differ only in what the cache holds,
and show the same bytes, take the same step. Syscall 4, which reads Memory past the cache (R242), is the exception. -/
def Obligations.CacheIsInvisibleUnderFill : Prop :=
  ∀ s t : State, s.cfg.waFill = .fill → MemOk s.cfg s.msys → MemOk t.cfg t.msys → sameVisible s t →
    ¬ (decode (s.msys.peekWord s.pc) = .instr .syscall ∧ s.readReg 2#5 = 4#32) →
    outcomesAgree (step s) (step t)

/-! The cache. -/

/-- R220, R221: a read of a byte whose line is not in the cache is a miss, and then every byte of that line is a hit. -/
def Obligations.ReadMissThenItsLineHits : Prop :=
  ∀ (c : Config) (m : MemSys) (a b : Word), MemOk c m → a.toNat < c.memSize →
    m.cache.lookup (setIndex a) (tagOf a) = none → a.toNat / 32 = b.toNat / 32 →
    ∃ m1 m2, m.readByte c a = .done (m.peek a) m1 ∧ m1.cache.misses = m.cache.misses + 1 ∧
      m1.cache.hits = m.cache.hits ∧ m1.readByte c b = .done (m.peek b) m2 ∧
      m2.cache.hits = m1.cache.hits + 1 ∧ m2.cache.misses = m1.cache.misses ∧
      m2.cache.accessCounter = m.cache.accessCounter + 2

/-- R212, R220: a read miss in a full set removes exactly the line with the smallest timestamp. -/
def Obligations.ReadMissEvictsTheLeastRecentlyUsedLine : Prop :=
  ∀ (c : Config) (m : MemSys) (a : Word), MemOk c m → a.toNat < c.memSize →
    m.cache.lookup (setIndex a) (tagOf a) = none → (∀ w, (m.cache.line (setIndex a) w).valid = true) →
    ∃ m', m.readByte c a = .done (m.peek a) m' ∧ ∀ w,
      (m'.cache.lookup (setIndex a) (m.cache.line (setIndex a) w).tag = none ↔
        ∀ w', (m.cache.line (setIndex a) w).ts ≤ (m.cache.line (setIndex a) w').ts)

/-- R213, R222: on a miss, of a read or of a write, a valid dirty victim's 32 bytes go to Memory at its base address and a
write-back is counted; a clean or invalid victim is overwritten without any Memory access. -/
def Obligations.DirtyVictimIsWrittenBack : Prop :=
  ∀ (c : Config) (m : MemSys) (a : Word) (b : Byte), MemOk c m → a.toNat < c.memSize →
    m.cache.lookup (setIndex a) (tagOf a) = none →
    (∃ m', m.readByte c a = .done (m.peek a) m' ∧ victimWritten m m' (setIndex a)) ∧
    ∃ m', m.writeByte c a b = .done () m' ∧ victimWritten m m' (setIndex a)

/-- R212: the victim is the invalid way of the lowest index, and in a full set the way of the smallest timestamp, the
lowest index among equals. -/
def Obligations.VictimIsInvalidFirstThenOldest : Prop :=
  ∀ (c : Cache) (s : Fin 64),
    ((∃ w, (c.line s w).valid = false) → (c.line s (c.victim s)).valid = false ∧
      ∀ w, (c.line s w).valid = false → c.victim s ≤ w) ∧
    ((∀ w, (c.line s w).valid = true) → (∀ w, (c.line s (c.victim s)).ts ≤ (c.line s w).ts) ∧
      ∀ w, (c.line s w).ts = (c.line s (c.victim s)).ts → c.victim s ≤ w)

/-- R220, R221: a cached byte read ticks the access counter once, counts a hit or a miss, and changes one line. On a hit it
is the line that holds the address, stamped, and Memory stays. On a miss it is the victim, replaced by the clean block of
Memory, stamped, and Memory changes by the victim's write-back alone (`ByteEffects`). -/
def Obligations.ReadByteStampsOrFillsOneLine : Prop :=
  ∀ (c : Config) (m : MemSys) (a : Word), MemOk c m → a.toNat < c.memSize →
    ∃ m', m.readByte c a = .done (m.peek a) m' ∧ MemOk c m' ∧ ByteEffects m m' a ∧
      ∀ s w, m'.cache.line s w =
        if s = setIndex a ∧ w = wayOf m a then
          if (m.cache.lookup (setIndex a) (tagOf a)).isSome then
            { m.cache.line s w with ts := m.cache.accessCounter + 1 }
          else { valid := true, dirty := false, tag := tagOf a, data := memBlock m' a, ts := m.cache.accessCounter + 1 }
        else m.cache.line s w

/-- R221, R222, R223: a cached byte write ticks the access counter once, counts a hit or a miss, and changes one line,
which ends dirty, stamped and with the byte in place. It writes the cache only: a hit leaves Memory as it was, and a miss
changes Memory by the victim's write-back alone (`ByteEffects`). On a miss the other 31 bytes are Memory's under `Fill`
and the victim way's old bytes under `NoFill`. -/
def Obligations.WriteByteDirtiesAndStampsOneLine : Prop :=
  ∀ (c : Config) (m : MemSys) (a : Word) (b : Byte), MemOk c m → a.toNat < c.memSize →
    ∃ m', m.writeByte c a b = .done () m' ∧ MemOk c m' ∧ ByteEffects m m' a ∧
      ∀ s w, m'.cache.line s w =
        if s = setIndex a ∧ w = wayOf m a then
          { valid := true, dirty := true, tag := tagOf a, ts := m.cache.accessCounter + 1
            data := (if (m.cache.lookup (setIndex a) (tagOf a)).isNone ∧ c.waFill = .fill then memBlock m' a
              else (m.cache.line s w).data).set (offsetOf a).val b }
        else m.cache.line s w

/-- R227: `flush` writes every valid dirty line back and clears `dirty`, and changes nothing else: the lines stay valid,
and Memory then shows at each of their addresses the byte the cache holds. It counts its write-backs only under
`FLUSH_COUNTS_WB`. -/
def Obligations.FlushMakesMemoryShowTheCache : Prop :=
  ∀ (c : Config) (m : MemSys), MemOk c m →
    ∃ m', m.flush c = .done () m' ∧ MemOk c m' ∧
      (∀ s w, m'.cache.line s w = { m.cache.line s w with dirty := false }) ∧
      m'.cache.accessCounter = m.cache.accessCounter ∧ m'.cache.hits = m.cache.hits ∧
      m'.cache.misses = m.cache.misses ∧
      m'.cache.writebacks = m.cache.writebacks + (if c.flushCountsWb = true then
        (allLines.filter fun p => (m.cache.line p.1 p.2).valid && (m.cache.line p.1 p.2).dirty).length else 0) ∧
      (∀ a : Word, m'.mem.read a.toNat = m.peek a) ∧ ∀ a : Word, m'.peek a = m.peek a

/-! The host's operations. -/

/-- R1001: `load` before the first step writes the words from `START` up, little-endian and 4 bytes apart, past the
cache, and changes nothing else; a program that does not fit faults with `START + 4n` and writes nothing; after the
first step it is refused. That no step has run is read from `result`, and that the fault of a load carries the core's pc
and its unchanged state is the model's choice (notes/assumptions/4.md and 5.md). -/
def Obligations.LoadWritesTheProgramAtStart : Prop :=
  (∀ (s : State) (words : List Word), s.result = .notStarted → Memory.wf s.msys.mem →
    s.cfg.start.toNat + 4 * words.length ≤ s.cfg.memSize →
    ∃ t, load words s = .next t ∧ t = { s with msys := { s.msys with mem := t.msys.mem } } ∧
      (∀ i (h : i < words.length), ∀ k, k < 4 →
        t.msys.mem.read (s.cfg.start.toNat + 4 * i + k) = byteOf words[i] k) ∧
      ∀ a, a < s.cfg.start.toNat ∨ s.cfg.start.toNat + 4 * words.length ≤ a →
        t.msys.mem.read a = s.msys.mem.read a) ∧
  (∀ (s : State) (words : List Word), s.result = .notStarted →
    s.cfg.memSize < s.cfg.start.toNat + 4 * words.length →
    load words s =
      .fault (.addressFault (BitVec.ofNat 32 (s.cfg.start.toNat + 4 * words.length)) s.pc s)) ∧
  ∀ (s : State) (words : List Word), s.result ≠ .notStarted → load words s = .refused .loadAfterStep

/-- R1010, R1011: what `run` returns, by the rounds of its loop (`stepsTo`). `Halted`: some number of rounds, at most
`MAX_STEPS`, leads to a state at `HALT_ADDR`. `Ended`: fewer rounds lead to a state away from `HALT_ADDR` whose step is
`ProgramEnd`. A fault: fewer rounds lead to a state away from `HALT_ADDR` whose step raises it. `BoundReached`: exactly
`MAX_STEPS` rounds lead to a state that is not at `HALT_ADDR`. Each round completes one instruction. A run that starts at
`HALT_ADDR` takes no step. `ProgramEnd` is read from `result`, and the state after a fault from the fault
(notes/assumptions/4.md and 5.md). -/
def Obligations.RunEndsAsItsOutcomeSays : Prop :=
  ∀ s : State,
    (match run s with
      | .halted t => t.pc = s.cfg.haltAddr ∧
          ∃ n, n ≤ s.cfg.maxSteps ∧ stepsTo n s t ∧ t.executed = s.executed + n
      | .ended t => t.result = .programEnd ∧
          ∃ n u, n < s.cfg.maxSteps ∧ stepsTo n s u ∧ u.pc ≠ s.cfg.haltAddr ∧ step u = .next t ∧
            t.executed = s.executed + n
      | .boundReached t => t.pc ≠ s.cfg.haltAddr ∧ stepsTo s.cfg.maxSteps s t ∧
          t.executed = s.executed + s.cfg.maxSteps
      | .fault f => ∃ n u, n < s.cfg.maxSteps ∧ stepsTo n s u ∧ u.pc ≠ s.cfg.haltAddr ∧ step u = .fault f ∧
          (faultAfter f).executed = s.executed + n
      | .refused _ => False) ∧
    (s.pc = s.cfg.haltAddr → run s = .halted s)

/-- R131: `query` returns the 32 registers, with register 0 zero, pc, HI, LO and the statistics as the state holds them. -/
def Obligations.QueryReturnsTheArchitecturalState : Prop :=
  ∀ s : State,
    (∀ i : RegIndex, (query s).x[i.toNat] = s.readReg i) ∧ (query s).x[0] = 0#32 ∧ (query s).pc = s.pc ∧
    (query s).hi = s.hi ∧ (query s).lo = s.lo ∧ (query s).executed = s.executed ∧ (query s).branches = s.branches ∧
    (query s).loads = s.loads ∧ (query s).stores = s.stores ∧ (query s).hits = s.msys.cache.hits ∧
    (query s).misses = s.msys.cache.misses ∧ (query s).writebacks = s.msys.cache.writebacks ∧
    (query s).accessCounter = s.msys.cache.accessCounter

/-- The model's own (notes/assumptions/8.md): a word placed from outside the machine where the next fetch reads, in a
sound state, is the word that fetch returns. -/
def Obligations.PlacedWordIsFetched : Prop :=
  ∀ (s : State) (nbits w : Nat), MemOk s.cfg s.msys → s.pc.toNat + 3 < s.cfg.memSize →
    ∃ m, fetch (s.withFetchWord nbits w) = .done (BitVec.ofNat 32 (w % 2 ^ nbits)) m

/-- R1001: "a model refuses `load` after the first step", whether the step went on or faulted. That a step has run is read
from `result`, and the state after a fault from the fault: the model's choices (notes/assumptions/4.md and 5.md). -/
def Obligations.LoadIsRefusedAfterAnyStep : Prop :=
  ∀ (s : State) (words : List Word),
    (∀ t, step s = .next t → load words t = .refused .loadAfterStep) ∧
    ∀ f, step s = .fault f → load words (faultAfter f) = .refused .loadAfterStep
end

