-- ==== Sys2Proof/Laws/Memory.lean ====
section
/-! SUPPORT. The backing Memory: read-after-write, and that every operation keeps the canonical form. -/

namespace Sys2Proof.Machine

theorem Memory.wf_nil : Memory.wf [] := ⟨List.Pairwise.nil, by simp⟩

theorem Memory.wf_tail {p : Host.Cell} {rest : Memory} (h : Memory.wf (p :: rest)) : Memory.wf rest :=
  ⟨(List.pairwise_cons.1 h.1).2, fun q hq => h.2 q (List.mem_cons_of_mem _ hq)⟩

/-- An address below every listed one reads 0. -/
theorem Memory.read_of_lt {mem : Memory} {a : Nat} (h : ∀ p ∈ mem, a < p.1) : mem.read a = 0#8 := by
  induction mem with
  | nil => rfl
  | cons p rest ih =>
    have hp : p.1 ≠ a := by have := h p (List.mem_cons_self ..); omega
    simp [Memory.read, hp, ih fun q hq => h q (List.mem_cons_of_mem _ hq)]

/-- An address that is not listed reads 0. -/
theorem Memory.read_of_not_listed {mem : Memory} {a : Nat} (h : ∀ p ∈ mem, p.1 ≠ a) : mem.read a = 0#8 := by
  induction mem with
  | nil => rfl
  | cons p rest ih =>
    simp [Memory.read, h p (List.mem_cons_self ..), ih fun q hq => h q (List.mem_cons_of_mem _ hq)]

/-- A write leaves only cells that were there or the one written. -/
theorem Memory.mem_write {mem : Memory} {a : Nat} {v : Byte} {p : Host.Cell} (h : p ∈ mem.write a v) :
    p ∈ mem ∨ (p = (a, v) ∧ v ≠ 0#8) := by
  induction mem with
  | nil =>
    by_cases hv : v = 0#8 <;> simp_all [Memory.write]
  | cons q rest ih =>
    obtain ⟨k, b⟩ := q
    by_cases hlt : a < k
    · by_cases hv : v = 0#8
      · simp only [Memory.write, hlt, hv, if_true] at h; exact .inl h
      · simp only [Memory.write, hlt, hv, if_true, if_false, List.mem_cons] at h
        rcases h with h | h | h
        · exact .inr ⟨h, hv⟩
        · exact .inl (h ▸ List.mem_cons_self ..)
        · exact .inl (List.mem_cons_of_mem _ h)
    · by_cases heq : a = k
      · by_cases hv : v = 0#8
        · simp only [Memory.write, heq, hv, Nat.lt_irrefl, if_true, if_false] at h
          exact .inl (List.mem_cons_of_mem _ h)
        · simp only [Memory.write, heq, hv, Nat.lt_irrefl, if_true, if_false, List.mem_cons] at h
          rcases h with h | h
          · exact .inr ⟨by rw [h, heq], hv⟩
          · exact .inl (List.mem_cons_of_mem _ h)
      · simp only [Memory.write, hlt, heq, if_false, List.mem_cons] at h
        rcases h with h | h
        · exact .inl (h ▸ List.mem_cons_self ..)
        · rcases ih h with h | h
          · exact .inl (List.mem_cons_of_mem _ h)
          · exact .inr h

/-- A write keeps the canonical form. -/
theorem Memory.wf_write {mem : Memory} (h : Memory.wf mem) (a : Nat) (v : Byte) : Memory.wf (mem.write a v) := by
  refine ⟨?_, fun p hp => ?_⟩
  · induction mem with
    | nil => by_cases hv : v = 0#8 <;> simp [Memory.write, hv]
    | cons q rest ih =>
      obtain ⟨k, b⟩ := q
      have hh := List.pairwise_cons.1 h.1
      by_cases hlt : a < k
      · by_cases hv : v = 0#8
        · simpa only [Memory.write, hlt, hv, if_true] using h.1
        · simp only [Memory.write, hlt, hv, if_true, if_false]
          refine List.pairwise_cons.2 ⟨fun p hp => ?_, h.1⟩
          rcases List.mem_cons.1 hp with hp | hp
          · rw [hp]; exact hlt
          · have := hh.1 p hp; dsimp only at this ⊢; omega
      · by_cases heq : a = k
        · by_cases hv : v = 0#8
          · simpa only [Memory.write, heq, hv, Nat.lt_irrefl, if_true, if_false] using hh.2
          · simp only [Memory.write, heq, hv, Nat.lt_irrefl, if_true, if_false]
            exact List.pairwise_cons.2 ⟨hh.1, hh.2⟩
        · simp only [Memory.write, hlt, heq, if_false]
          refine List.pairwise_cons.2 ⟨fun p hp => ?_, ih (Memory.wf_tail h)⟩
          rcases Memory.mem_write hp with hp | ⟨hp, -⟩
          · exact hh.1 p hp
          · rw [hp]; dsimp only; omega
  · rcases Memory.mem_write hp with hp | ⟨hp, hv⟩
    · exact h.2 p hp
    · rw [hp]; exact hv

/-- A read after a write gives the byte written at the address written, and what it gave before at any other. -/
theorem Memory.read_write {mem : Memory} (h : Memory.wf mem) (a b : Nat) (v : Byte) :
    (mem.write a v).read b = if b = a then v else mem.read b := by
  induction mem with
  | nil =>
    by_cases hv : v = 0#8
    · simp [Memory.write, hv, Memory.read]
    · simp [Memory.write, hv, Memory.read, eq_comm]
  | cons q rest ih =>
    obtain ⟨k, c⟩ := q
    have hh := List.pairwise_cons.1 h.1
    have hrest : ∀ x, x ≤ k → Memory.read rest x = 0#8 := fun x hx =>
      Memory.read_of_lt fun p hp => by have := hh.1 p hp; dsimp only at this; omega
    by_cases hlt : a < k
    · by_cases hv : v = 0#8
      · simp only [Memory.write, hlt, hv, if_true]
        by_cases hb : b = a
        · subst hb
          simp [Memory.read, show k ≠ b by omega, hrest b (by omega)]
        · simp [hb]
      · simp only [Memory.write, hlt, hv, if_true, if_false]
        simp [Memory.read, eq_comm]
    · by_cases heq : a = k
      · subst heq
        by_cases hv : v = 0#8
        · simp only [Memory.write, hv, Nat.lt_irrefl, if_true, if_false]
          by_cases hb : b = a
          · simp [hb, hrest a (Nat.le_refl _)]
          · simp [Memory.read, hb, Ne.symm hb]
        · simp only [Memory.write, hv, Nat.lt_irrefl, if_true, if_false]
          by_cases hb : b = a
          · simp [Memory.read, hb]
          · simp [Memory.read, hb, Ne.symm hb]
      · simp only [Memory.write, hlt, heq, if_false, Memory.read, ih (Memory.wf_tail h)]
        by_cases hk : k = b
        · subst hk
          simp [Ne.symm heq]
        · simp [hk]

/-- What writing bytes at consecutive addresses does: it keeps the form, reads the bytes back inside the span and what
was there outside it, and lists nothing outside the span that was not listed. -/
theorem Memory.writeBytes_spec {mem : Memory} (h : Memory.wf mem) (a : Nat) (bs : List Byte) :
    Memory.wf (mem.writeBytes a bs) ∧
    (∀ x, (mem.writeBytes a bs).read x =
      if hx : a ≤ x ∧ x - a < bs.length then bs[x - a]'hx.2 else mem.read x) ∧
    (∀ p ∈ mem.writeBytes a bs, p ∈ mem ∨ p.1 < a + bs.length) := by
  induction bs generalizing mem a with
  | nil => exact ⟨h, by simp [Memory.writeBytes], fun p hp => .inl hp⟩
  | cons b bs ih =>
    obtain ⟨hwf, hread, hin⟩ := ih (Memory.wf_write h a b) (a + 1)
    refine ⟨hwf, fun x => ?_, fun p hp => ?_⟩
    · simp only [Memory.writeBytes, hread, Memory.read_write h]
      by_cases h1 : a + 1 ≤ x ∧ x - (a + 1) < bs.length
      · have h2 : a ≤ x ∧ x - a < (b :: bs).length := ⟨by omega, by simp only [List.length_cons]; omega⟩
        obtain ⟨d, rfl⟩ : ∃ d, x = a + 1 + d := ⟨x - (a + 1), by omega⟩
        have e : a + 1 + d - a = d + 1 := by omega
        have hd : d < bs.length := by omega
        simp [e, hd, show a ≤ a + 1 + d by omega]
      · rw [dif_neg h1]
        by_cases hxa : x = a
        · subst hxa; simp
        · have h2 : ¬ (a ≤ x ∧ x - a < (b :: bs).length) := by simp only [List.length_cons]; omega
          rw [dif_neg h2, if_neg hxa]
    · rcases hin p hp with hp | hp
      · rcases Memory.mem_write hp with hp | ⟨rfl, -⟩
        · exact .inl hp
        · exact .inr (by simp)
      · exact .inr (by simp only [List.length_cons]; omega)

/-- `BackRead` inside Memory gives the bytes; outside it gives the fault and nothing else (R201). -/
theorem backRead_ok {c : Config} {n a : Nat} (mem : Memory) (h : a + n ≤ c.memSize) (hn : 0 < n) :
    backRead c n a mem = .ok (Vector.ofFn fun i => mem.read (a + i.val)) := by
  rw [backRead, if_neg (by omega)]

theorem backRead_error {c : Config} {n a : Nat} (mem : Memory) (h : c.memSize < a + n) :
    backRead c n a mem = .error (faultAddress a) := by
  rw [backRead, if_pos (by omega)]

/-- `BackWrite` inside Memory stores the bytes; outside it gives the fault (R202). -/
theorem backWrite_ok {c : Config} {n a : Nat} (bytes : Vector Byte n) (mem : Memory) (h : a + n ≤ c.memSize)
    (hn : 0 < n) : backWrite c n a bytes mem = .ok (mem.writeBytes a bytes.toList) := by
  rw [backWrite, if_neg (by omega)]

theorem backWrite_error {c : Config} {n a : Nat} (bytes : Vector Byte n) (mem : Memory) (h : c.memSize < a + n) :
    backWrite c n a bytes mem = .error (faultAddress a) := by
  rw [backWrite, if_pos (by omega)]

/-- What a `BackWrite` that answers leaves: canonical form, the bytes where they were put, everything else as before. -/
theorem backWrite_spec {c : Config} {n a : Nat} {bytes : Vector Byte n} {mem mem' : Memory} (h : Memory.wf mem)
    (hs : backWrite c n a bytes mem = .ok mem') :
    Memory.wf mem' ∧
    (∀ x, mem'.read x = if hx : a ≤ x ∧ x - a < n then bytes[x - a]'hx.2 else mem.read x) ∧
    (∀ p ∈ mem', p ∈ mem ∨ p.1 < a + n) := by
  rw [backWrite] at hs
  split at hs
  · cases hs
  · injection hs with hs
    subst hs
    obtain ⟨h1, h2, h3⟩ := Memory.writeBytes_spec h a bytes.toList
    exact ⟨h1, by simpa using h2, by simpa using h3⟩

end Sys2Proof.Machine
end

