-- ==== Sys2Proof/Laws/Cache.lean ====
section
/-! SUPPORT. The cache's small lemmas: lines, addresses, lookup, victim, the view `peek`, and for each shared operation
the one lemma that says what it does on a sound cache. -/

namespace Sys2Proof.Machine

/-! Lines. -/

@[simp] theorem setLine_line (c : Cache) (s s' : Fin 64) (w w' : Fin 4) (l : CacheLine) :
    (c.setLine s w l).line s' w' = if s' = s ∧ w' = w then l else c.line s' w' := by
  unfold Cache.line Cache.setLine
  by_cases hs : s' = s
  · subst hs
    by_cases hw : w' = w
    · subst hw; simp
    · have : w.val ≠ w'.val := fun e => hw (Fin.ext e.symm)
      simp [hw, Vector.getElem_set_ne _ _ this]
  · have : s.val ≠ s'.val := fun e => hs (Fin.ext e.symm)
    simp [hs, Vector.getElem_set_ne _ _ this]

@[simp] theorem setLine_accessCounter (c : Cache) (s : Fin 64) (w : Fin 4) (l : CacheLine) :
    (c.setLine s w l).accessCounter = c.accessCounter := rfl
@[simp] theorem setLine_hits (c : Cache) (s : Fin 64) (w : Fin 4) (l : CacheLine) :
    (c.setLine s w l).hits = c.hits := rfl
@[simp] theorem setLine_misses (c : Cache) (s : Fin 64) (w : Fin 4) (l : CacheLine) :
    (c.setLine s w l).misses = c.misses := rfl
@[simp] theorem setLine_writebacks (c : Cache) (s : Fin 64) (w : Fin 4) (l : CacheLine) :
    (c.setLine s w l).writebacks = c.writebacks := rfl

/-! The counting updates: one lemma per field. -/

@[simp] theorem tick_line (m : MemSys) (s : Fin 64) (w : Fin 4) : m.tick.cache.line s w = m.cache.line s w := rfl
@[simp] theorem tick_mem (m : MemSys) : m.tick.mem = m.mem := rfl
@[simp] theorem tick_accessCounter (m : MemSys) : m.tick.cache.accessCounter = m.cache.accessCounter + 1 := rfl
@[simp] theorem tick_hits (m : MemSys) : m.tick.cache.hits = m.cache.hits := rfl
@[simp] theorem tick_misses (m : MemSys) : m.tick.cache.misses = m.cache.misses := rfl
@[simp] theorem tick_writebacks (m : MemSys) : m.tick.cache.writebacks = m.cache.writebacks := rfl
@[simp] theorem countHit_line (m : MemSys) (s : Fin 64) (w : Fin 4) :
    m.countHit.cache.line s w = m.cache.line s w := rfl
@[simp] theorem countHit_mem (m : MemSys) : m.countHit.mem = m.mem := rfl
@[simp] theorem countHit_accessCounter (m : MemSys) : m.countHit.cache.accessCounter = m.cache.accessCounter := rfl
@[simp] theorem countHit_hits (m : MemSys) : m.countHit.cache.hits = m.cache.hits + 1 := rfl
@[simp] theorem countHit_misses (m : MemSys) : m.countHit.cache.misses = m.cache.misses := rfl
@[simp] theorem countHit_writebacks (m : MemSys) : m.countHit.cache.writebacks = m.cache.writebacks := rfl
@[simp] theorem countMiss_line (m : MemSys) (s : Fin 64) (w : Fin 4) :
    m.countMiss.cache.line s w = m.cache.line s w := rfl
@[simp] theorem countMiss_mem (m : MemSys) : m.countMiss.mem = m.mem := rfl
@[simp] theorem countMiss_accessCounter (m : MemSys) : m.countMiss.cache.accessCounter = m.cache.accessCounter := rfl
@[simp] theorem countMiss_hits (m : MemSys) : m.countMiss.cache.hits = m.cache.hits := rfl
@[simp] theorem countMiss_misses (m : MemSys) : m.countMiss.cache.misses = m.cache.misses + 1 := rfl
@[simp] theorem countMiss_writebacks (m : MemSys) : m.countMiss.cache.writebacks = m.cache.writebacks := rfl
@[simp] theorem countWriteback_line (m : MemSys) (s : Fin 64) (w : Fin 4) :
    m.countWriteback.cache.line s w = m.cache.line s w := rfl
@[simp] theorem countWriteback_mem (m : MemSys) : m.countWriteback.mem = m.mem := rfl
@[simp] theorem countWriteback_accessCounter (m : MemSys) :
    m.countWriteback.cache.accessCounter = m.cache.accessCounter := rfl
@[simp] theorem countWriteback_hits (m : MemSys) : m.countWriteback.cache.hits = m.cache.hits := rfl
@[simp] theorem countWriteback_misses (m : MemSys) : m.countWriteback.cache.misses = m.cache.misses := rfl
@[simp] theorem countWriteback_writebacks (m : MemSys) :
    m.countWriteback.cache.writebacks = m.cache.writebacks + 1 := rfl
@[simp] theorem putLine_line (m : MemSys) (s s' : Fin 64) (w w' : Fin 4) (l : CacheLine) :
    (m.putLine s w l).cache.line s' w' = if s' = s ∧ w' = w then l else m.cache.line s' w' := setLine_line ..
@[simp] theorem putLine_mem (m : MemSys) (s : Fin 64) (w : Fin 4) (l : CacheLine) : (m.putLine s w l).mem = m.mem := rfl
@[simp] theorem putLine_accessCounter (m : MemSys) (s : Fin 64) (w : Fin 4) (l : CacheLine) :
    (m.putLine s w l).cache.accessCounter = m.cache.accessCounter := rfl
@[simp] theorem putLine_hits (m : MemSys) (s : Fin 64) (w : Fin 4) (l : CacheLine) :
    (m.putLine s w l).cache.hits = m.cache.hits := rfl
@[simp] theorem putLine_misses (m : MemSys) (s : Fin 64) (w : Fin 4) (l : CacheLine) :
    (m.putLine s w l).cache.misses = m.cache.misses := rfl
@[simp] theorem putLine_writebacks (m : MemSys) (s : Fin 64) (w : Fin 4) (l : CacheLine) :
    (m.putLine s w l).cache.writebacks = m.cache.writebacks := rfl

@[simp] theorem andThen_done {α β : Type} (v : α) (m : MemSys) (f : α → MemSys → Access β) :
    (Access.done v m).andThen f = f v m := rfl
@[simp] theorem andThen_fault {α β : Type} (a : Word) (m : MemSys) (f : α → MemSys → Access β) :
    (Access.fault a m : Access α).andThen f = .fault a m := rfl

/-- A sequence that completes: its first part completed, and so did the rest from there. -/
theorem andThen_eq_done {α β : Type} {r : Access α} {f : α → MemSys → Access β} {v : β} {m : MemSys}
    (h : r.andThen f = .done v m) : ∃ u m1, r = .done u m1 ∧ f u m1 = .done v m := by
  cases r with
  | done u m1 => exact ⟨u, m1, rfl, h⟩
  | fault a m1 => cases h

/-! Addresses (R210). -/

/-- "`a = base(tag, setIndex) + offset`". -/
theorem address_eq (a : Word) : a.toNat = lineBase (tagOf a) (setIndex a) + (offsetOf a).val := by
  simp only [lineBase, tagOf, setIndex, offsetOf]
  omega

/-- "Each address maps to exactly one (set,tag,offset)". -/
theorem lineBase_inj {t t' : Nat} {s s' : Fin 64} {i i' : Nat} (hi : i < 32) (hi' : i' < 32)
    (h : lineBase t s + i = lineBase t' s' + i') : t = t' ∧ s = s' ∧ i = i' := by
  have hs := s.isLt
  have hs' := s'.isLt
  simp only [lineBase] at h
  refine ⟨by omega, Fin.ext (by omega), by omega⟩

/-- An address inside the block of a line has that line's tag and set. -/
theorem in_block {a : Word} {t : Nat} {s : Fin 64} (h1 : lineBase t s ≤ a.toNat) (h2 : a.toNat - lineBase t s < 32) :
    tagOf a = t ∧ setIndex a = s ∧ (offsetOf a).val = a.toNat - lineBase t s := by
  have := address_eq a
  have ho := (offsetOf a).isLt
  exact lineBase_inj ho h2 (by omega)

/-- The block of an address inside Memory lies inside Memory, since `MEM_SIZE` is a multiple of 32 (D4). -/
theorem block_inside {c : Config} (h : c.wellFormed) {a : Word} (ha : a.toNat < c.memSize) :
    lineBase (tagOf a) (setIndex a) + 32 ≤ c.memSize := by
  obtain ⟨h1, h2, h3⟩ := h
  have := address_eq a
  have ho := (offsetOf a).isLt
  simp only [lineBase] at *
  omega

/-! Lookup (R211). -/

theorem mem_ways (w : Fin 4) : w ∈ ways := by revert w; decide

theorem lookup_some {c : Cache} {s : Fin 64} {t : Nat} {w : Fin 4} (h : c.lookup s t = some w) :
    (c.line s w).valid = true ∧ (c.line s w).tag = t := by
  have := List.find?_some h
  simpa using this

theorem lookup_none {c : Cache} {s : Fin 64} {t : Nat} (h : c.lookup s t = none) (w : Fin 4)
    (hv : (c.line s w).valid = true) : (c.line s w).tag ≠ t := by
  have := List.find?_eq_none.1 h w (mem_ways w)
  simpa [hv] using this

theorem lookup_eq_none {c : Cache} {s : Fin 64} {t : Nat}
    (h : ∀ w, (c.line s w).valid = true → (c.line s w).tag ≠ t) : c.lookup s t = none := by
  refine List.find?_eq_none.2 fun w _ => ?_
  cases hv : (c.line s w).valid <;> simp
  exact h w hv

/-- Lookup sees only the validity and the tags of the set's lines. -/
theorem lookup_congr {c c' : Cache} {s : Fin 64} {t : Nat}
    (h : ∀ w, (c'.line s w).valid = (c.line s w).valid ∧ (c'.line s w).tag = (c.line s w).tag) :
    c'.lookup s t = c.lookup s t := by
  simp [Cache.lookup, h]

@[simp] theorem tick_lookup (m : MemSys) (s : Fin 64) (t : Nat) : m.tick.cache.lookup s t = m.cache.lookup s t := rfl

/-- On a sound set, the way that holds the tag is the one lookup finds. -/
theorem lookup_eq_some {m : MemSys} {s : Fin 64} (hs : SetOk m s) {t : Nat} {w : Fin 4}
    (hv : (m.cache.line s w).valid = true) (ht : (m.cache.line s w).tag = t) : m.cache.lookup s t = some w := by
  cases h : m.cache.lookup s t with
  | none => exact absurd ht (lookup_none h w hv)
  | some w' =>
    obtain ⟨hv', ht'⟩ := lookup_some h
    by_cases hw : w' = w
    · rw [hw]
    · exact absurd (ht'.trans ht.symm) (hs.distinct w' w hw hv' hv).1

/-! Victim (R212). -/

/-- What a search of the ways finds is the least way that passes. -/
theorem ways_find_least {p : Fin 4 → Bool} {v : Fin 4} (h : ways.find? p = some v) :
    p v = true ∧ ∀ w, w < v → p w = false := by
  obtain ⟨hv, before, after, hsplit, hbefore⟩ := List.find?_eq_some_iff_append.1 h
  have hsorted : (before ++ v :: after).Pairwise (· < ·) := hsplit ▸ (by decide : ways.Pairwise (· < ·))
  refine ⟨hv, fun w hw => ?_⟩
  have hmem : w ∈ before ++ v :: after := hsplit ▸ mem_ways w
  rcases List.mem_append.1 hmem with hm | hm
  · simpa using hbefore w hm
  · rcases List.mem_cons.1 hm with hm | hm
    · exact absurd hw (by rw [hm]; exact lt_irrefl v)
    · have := (List.pairwise_cons.1 (List.pairwise_append.1 hsorted).2.1).1 w hm
      exact absurd hw (not_lt.2 this.le)

/-- Some invalid way: the victim is the least invalid one. -/
theorem victim_of_invalid {c : Cache} {s : Fin 64} {w : Fin 4} (h : (c.line s w).valid = false) :
    (c.line s (c.victim s)).valid = false ∧ ∀ w', w' < c.victim s → (c.line s w').valid = true := by
  cases hf : ways.find? (fun w => !(c.line s w).valid) with
  | none => simpa [h] using List.find?_eq_none.1 hf w (mem_ways w)
  | some v =>
    have hv : c.victim s = v := by simp [Cache.victim, hf]
    obtain ⟨h1, h2⟩ := ways_find_least hf
    rw [hv]
    exact ⟨by simpa using h1, fun w' hw => by simpa using h2 w' hw⟩

/-- All ways valid: the victim has the smallest timestamp, and is the least such way. -/
theorem victim_of_valid {c : Cache} {s : Fin 64} (h : ∀ w, (c.line s w).valid = true) :
    (∀ w, (c.line s (c.victim s)).ts ≤ (c.line s w).ts) ∧
    ∀ w, (∀ w', (c.line s w).ts ≤ (c.line s w').ts) → c.victim s ≤ w := by
  have hf : ways.find? (fun w => !(c.line s w).valid) = none :=
    List.find?_eq_none.2 fun w _ => by simp [h w]
  obtain ⟨w0, hw0⟩ := Finite.exists_min fun w => (c.line s w).ts
  cases hg : ways.find? (fun w => ways.all fun w' => (c.line s w).ts ≤ (c.line s w').ts) with
  | none =>
    have := List.find?_eq_none.1 hg w0 (mem_ways w0)
    simp only [List.all_eq_true, decide_eq_true_eq, not_forall] at this
    obtain ⟨w', -, hlt⟩ := this
    exact absurd (hw0 w') hlt
  | some v =>
    have hv : c.victim s = v := by simp [Cache.victim, hf, hg]
    obtain ⟨h1, h2⟩ := ways_find_least hg
    simp only [List.all_eq_true, decide_eq_true_eq] at h1
    rw [hv]
    refine ⟨fun w => h1 w (mem_ways w), fun w hw => not_lt.1 fun hlt => ?_⟩
    have := h2 w hlt
    simp [hw] at this

/-- The ways below the victim are valid (so ways are filled in the order 0, 1, 2, 3). -/
theorem valid_below_victim (c : Cache) (s : Fin 64) (w : Fin 4) (hw : w < c.victim s) :
    (c.line s w).valid = true := by
  by_cases h : ∀ w, (c.line s w).valid = true
  · exact h w
  · obtain ⟨w0, hw0⟩ := not_forall.1 h
    exact (victim_of_invalid (by simpa using hw0)).2 w hw

/-- Victim selection sees only the validity and the timestamps of the set's lines. -/
theorem victim_congr {c c' : Cache} {s : Fin 64}
    (h : ∀ w, (c'.line s w).valid = (c.line s w).valid ∧ (c'.line s w).ts = (c.line s w).ts) :
    c'.victim s = c.victim s := by
  simp [Cache.victim, h]

@[simp] theorem tick_victim (m : MemSys) (s : Fin 64) : m.tick.cache.victim s = m.cache.victim s := rfl
@[simp] theorem countMiss_victim (m : MemSys) (s : Fin 64) : m.countMiss.cache.victim s = m.cache.victim s := rfl

/-! The view of memory, `peek`. -/

theorem peek_hit {m : MemSys} {a : Word} {w : Fin 4} (h : m.cache.lookup (setIndex a) (tagOf a) = some w) :
    m.peek a = (m.cache.line (setIndex a) w).data[(offsetOf a).val] := by simp [MemSys.peek, h]

theorem peek_miss {m : MemSys} {a : Word} (h : m.cache.lookup (setIndex a) (tagOf a) = none) :
    m.peek a = m.mem.read a.toNat := by simp [MemSys.peek, h]

end Sys2Proof.Machine
end

