-- ==== Sys2Proof/Laws/CacheOps.lean ====
section
/-! SUPPORT. For each cache operation, the one lemma that says what it does on a sound cache: it answers, it keeps the
cache sound, what it answers, and what every later read sees. Later proofs cite these and unfold none of them. -/

namespace Sys2Proof.Machine

/-- Counting changes nothing that soundness or the view looks at, as long as the access counter does not fall. -/
theorem MemOk.of_same_lines {c : Config} {m m' : MemSys} (h : MemOk c m)
    (hline : ∀ s w, m'.cache.line s w = m.cache.line s w) (hmem : m'.mem = m.mem)
    (hcount : m.cache.accessCounter ≤ m'.cache.accessCounter) : MemOk c m' where
  cfg := h.cfg
  memWf := hmem ▸ h.memWf
  memInside := hmem ▸ h.memInside
  lines s w := by
    have l := h.lines s w
    exact ⟨by rw [hline]; exact l.fresh, by rw [hline]; exact l.inside,
      by rw [hline]; exact fun hv => (l.stamped hv).trans hcount, by rw [hline, hmem]; exact l.clean⟩
  sets s := ⟨by simpa only [hline] using (h.sets s).distinct, by simpa only [hline] using (h.sets s).filled⟩

/-- The view depends on the lines and Memory alone. -/
theorem peek_of_same_lines {m m' : MemSys} (hline : ∀ s w, m'.cache.line s w = m.cache.line s w)
    (hmem : m'.mem = m.mem) (a : Word) : m'.peek a = m.peek a := by
  have : m'.cache.lookup (setIndex a) (tagOf a) = m.cache.lookup (setIndex a) (tagOf a) :=
    lookup_congr fun w => by simp [hline]
  simp only [MemSys.peek, this, hline, hmem]

theorem MemOk.tick {c : Config} {m : MemSys} (h : MemOk c m) : MemOk c m.tick :=
  h.of_same_lines (fun _ _ => rfl) rfl (Nat.le_succ _)

theorem MemOk.countMiss {c : Config} {m : MemSys} (h : MemOk c m) : MemOk c m.countMiss :=
  h.of_same_lines (fun _ _ => rfl) rfl (Nat.le_refl _)

theorem MemOk.countHit {c : Config} {m : MemSys} (h : MemOk c m) : MemOk c m.countHit :=
  h.of_same_lines (fun _ _ => rfl) rfl (Nat.le_refl _)

@[simp] theorem peek_tick (m : MemSys) (a : Word) : m.tick.peek a = m.peek a := rfl
@[simp] theorem peek_countMiss (m : MemSys) (a : Word) : m.countMiss.peek a = m.peek a := rfl
@[simp] theorem peek_countHit (m : MemSys) (a : Word) : m.countHit.peek a = m.peek a := rfl

/-- Eviction on a sound cache (R213): it answers; every line is as before; the victim's block in Memory now agrees with
the victim, and the rest of Memory is as before; a write-back is counted exactly when the victim was dirty; and no read
sees a difference. -/
theorem evict_spec {c : Config} {m : MemSys} (h : MemOk c m) (s : Fin 64) (w : Fin 4) :
    ∃ m', m.evict c s w = .done () m' ∧ MemOk c m' ∧
      (∀ s' w', m'.cache.line s' w' = m.cache.line s' w') ∧
      m'.cache.accessCounter = m.cache.accessCounter ∧ m'.cache.hits = m.cache.hits ∧
      m'.cache.misses = m.cache.misses ∧
      m'.cache.writebacks = m.cache.writebacks + ((m.cache.line s w).valid && (m.cache.line s w).dirty).toNat ∧
      (∀ x, ¬((m.cache.line s w).valid = true ∧ lineBase (m.cache.line s w).tag s ≤ x ∧
          x - lineBase (m.cache.line s w).tag s < 32) → m'.mem.read x = m.mem.read x) ∧
      ((m.cache.line s w).valid = true → ∀ i : Fin 32,
          m'.mem.read (lineBase (m.cache.line s w).tag s + i.val) = (m.cache.line s w).data[i.val]) ∧
      ∀ a, m'.peek a = m.peek a := by
  by_cases hd : ((m.cache.line s w).valid && (m.cache.line s w).dirty) = true
  · obtain ⟨hv, hdirty⟩ := Bool.and_eq_true_iff.1 hd
    have hin := (h.lines s w).inside hv
    obtain ⟨mem', hback⟩ : ∃ mem', backWrite c 32 (lineBase (m.cache.line s w).tag s) (m.cache.line s w).data m.mem
        = .ok mem' := ⟨_, backWrite_ok _ _ hin (by decide)⟩
    obtain ⟨hwf, hread, hlist⟩ := backWrite_spec h.memWf hback
    refine ⟨({ m with mem := mem' } : MemSys).countWriteback,
      by simp only [MemSys.evict, hd, if_true, MemSys.writeBack, hback, andThen_done],
      ⟨h.cfg, hwf, fun p hp => ?_, fun s1 w1 => ⟨(h.lines s1 w1).fresh, (h.lines s1 w1).inside,
        (h.lines s1 w1).stamped, fun hv1 hc1 i => ?_⟩, fun s1 => ⟨(h.sets s1).distinct, (h.sets s1).filled⟩⟩,
      fun _ _ => rfl, rfl, rfl, rfl, by simp [hd], fun x hx => ?_, fun _ i => ?_, fun a => ?_⟩
    · rcases hlist p hp with hp | hp
      · exact h.memInside p hp
      · omega
    · refine ((h.lines s1 w1).clean hv1 hc1 i).trans ?_
      show _ = mem'.read (lineBase (m.cache.line s1 w1).tag s1 + i.val)
      rw [hread, dif_neg]
      rintro ⟨h1, h2⟩
      · have heq : lineBase (m.cache.line s1 w1).tag s1 + i.val = lineBase (m.cache.line s w).tag s +
            (lineBase (m.cache.line s1 w1).tag s1 + i.val - lineBase (m.cache.line s w).tag s) := by omega
        obtain ⟨ht, hs, -⟩ := lineBase_inj i.isLt h2 heq
        subst hs
        by_cases hw : w1 = w
        · subst hw
          exact absurd hdirty (by simpa using hc1)
        · exact ((h.sets s1).distinct w1 w hw hv1 hv).1 ht
    · show mem'.read x = _
      rw [hread, dif_neg fun hx' => hx ⟨hv, hx'⟩]
    · show mem'.read _ = _
      rw [hread, dif_pos ⟨by omega, by omega⟩]
      congr 1
      omega
    · cases hl : m.cache.lookup (setIndex a) (tagOf a) with
      | some w' => exact (peek_hit (m := { m with mem := mem' }) hl).trans (peek_hit hl).symm
      | none =>
        refine (peek_miss (m := { m with mem := mem' }) hl).trans (Eq.trans ?_ (peek_miss hl).symm)
        show mem'.read _ = _
        rw [hread, dif_neg]
        rintro ⟨h1, h2⟩
        obtain ⟨ht, hs, -⟩ := in_block h1 h2
        exact lookup_none hl w (by rw [hs]; exact hv) (by rw [hs, ht])
  · refine ⟨m, by simp [MemSys.evict, hd], h, fun _ _ => rfl, rfl, rfl, rfl, by simp [hd], fun _ _ => rfl,
      fun hv i => ?_, fun _ => rfl⟩
    exact ((h.lines s w).clean hv (by simpa [hv] using hd) i).symm

/-- Putting a valid, freshly stamped line into a way of a sound cache keeps it sound, and changes the view inside the
new line's block alone, provided the line the way held before is either the same block or agrees with Memory. -/
theorem putLine_spec {c : Config} {m : MemSys} (h : MemOk c m) {s : Fin 64} {w : Fin 4} {l : CacheLine}
    (hv : l.valid = true) (hin : lineBase l.tag s + 32 ≤ c.memSize) (hts : l.ts = m.cache.accessCounter)
    (hother : ∀ w', w' ≠ w → (m.cache.line s w').valid = true →
      (m.cache.line s w').tag ≠ l.tag ∧ (m.cache.line s w').ts < m.cache.accessCounter)
    (hbelow : ∀ w', w' < w → (m.cache.line s w').valid = true)
    (hclean : l.dirty = false → ∀ i : Fin 32, l.data[i.val] = m.mem.read (lineBase l.tag s + i.val))
    (hold : (m.cache.line s w).valid = true → (m.cache.line s w).tag ≠ l.tag → ∀ i : Fin 32,
      m.mem.read (lineBase (m.cache.line s w).tag s + i.val) = (m.cache.line s w).data[i.val]) :
    MemOk c (m.putLine s w l) ∧
    ∀ a, (m.putLine s w l).peek a =
      if setIndex a = s ∧ tagOf a = l.tag then l.data[(offsetOf a).val] else m.peek a := by
  have hsets : ∀ s1, SetOk (m.putLine s w l) s1 := by
    intro s1
    by_cases hs : s1 = s
    · subst hs
      refine ⟨fun w1 w2 hne h1 h2 => ?_, fun w1 w2 hlt h2 => ?_⟩
      · simp only [putLine_line, true_and] at h1 h2 ⊢
        by_cases e1 : w1 = w
        · subst e1
          rw [if_neg (Ne.symm hne)] at h2
          have := hother w2 (Ne.symm hne) h2
          simp only [if_true, if_neg (Ne.symm hne), hts]
          exact ⟨Ne.symm this.1, by omega⟩
        · by_cases e2 : w2 = w
          · subst e2
            rw [if_neg e1] at h1
            have := hother w1 e1 h1
            simp only [if_true, if_neg e1, hts]
            exact ⟨this.1, by omega⟩
          · rw [if_neg e1] at h1
            rw [if_neg e2] at h2
            simp only [if_neg e1, if_neg e2]
            exact (h.sets s1).distinct w1 w2 hne h1 h2
      · simp only [putLine_line, true_and] at h2 ⊢
        by_cases e1 : w1 = w
        · simpa [e1] using hv
        · rw [if_neg e1]
          by_cases e2 : w2 = w
          · exact hbelow w1 (e2 ▸ hlt)
          · rw [if_neg e2] at h2
            exact (h.sets s1).filled w1 w2 hlt h2
    · have e : ∀ w', (m.putLine s w l).cache.line s1 w' = m.cache.line s1 w' := fun w' => by simp [hs]
      exact ⟨by simpa only [e] using (h.sets s1).distinct, by simpa only [e] using (h.sets s1).filled⟩
  refine ⟨⟨h.cfg, h.memWf, h.memInside, fun s1 w1 => ?_, hsets⟩, fun a => ?_⟩
  · by_cases e : s1 = s ∧ w1 = w
    · obtain ⟨rfl, rfl⟩ := e
      have e : (m.putLine s1 w1 l).cache.line s1 w1 = l := by simp
      refine ⟨?_, ?_, ?_, ?_⟩ <;> rw [e]
      · intro hv'; simp [hv] at hv'
      · exact fun _ => hin
      · exact fun _ => hts.le
      · exact fun _ => hclean
    · have e : (m.putLine s w l).cache.line s1 w1 = m.cache.line s1 w1 := by simp [e]
      have l1 := h.lines s1 w1
      refine ⟨?_, ?_, ?_, ?_⟩ <;> rw [e]
      exacts [l1.fresh, l1.inside, l1.stamped, l1.clean]
  · by_cases ha : setIndex a = s ∧ tagOf a = l.tag
    · rw [if_pos ha]
      have hl : (m.putLine s w l).cache.lookup (setIndex a) (tagOf a) = some w :=
        lookup_eq_some (hsets _) (by simp [ha.1, hv]) (by simp [ha.1, ha.2])
      rw [peek_hit hl]
      simp [ha.1]
    · rw [if_neg ha]
      by_cases hs : setIndex a = s
      · have ht : tagOf a ≠ l.tag := fun e => ha ⟨hs, e⟩
        cases hl : m.cache.lookup (setIndex a) (tagOf a) with
        | some w' =>
          obtain ⟨hv', ht'⟩ := lookup_some hl
          by_cases hw : w' = w
          · subst hw
            rw [hs] at hv' ht' hl
            have hl' : (m.putLine s w' l).cache.lookup (setIndex a) (tagOf a) = none :=
              lookup_eq_none fun w1 h1 => by
                rw [hs] at h1 ⊢
                simp only [putLine_line, true_and] at h1 ⊢
                by_cases e : w1 = w'
                · simpa [e] using Ne.symm ht
                · rw [if_neg e] at h1 ⊢
                  have := ((h.sets s).distinct w1 w' e h1 hv').1
                  rwa [ht'] at this
            rw [peek_miss hl', peek_hit (hs ▸ hl), putLine_mem, address_eq a]
            have := hold hv' (by rw [ht']; exact ht) (offsetOf a)
            rw [ht'] at this
            simpa [hs] using this
          · have e : (m.putLine s w l).cache.line (setIndex a) w' = m.cache.line (setIndex a) w' := by simp [hw]
            have hl' : (m.putLine s w l).cache.lookup (setIndex a) (tagOf a) = some w' :=
              lookup_eq_some (hsets _) (by rw [e]; exact hv') (by rw [e]; exact ht')
            rw [peek_hit hl', peek_hit hl, e]
        | none =>
          have hl' : (m.putLine s w l).cache.lookup (setIndex a) (tagOf a) = none :=
            lookup_eq_none fun w1 h1 => by
              rw [hs] at h1 ⊢
              simp only [putLine_line, true_and] at h1 ⊢
              by_cases e : w1 = w
              · simpa [e] using Ne.symm ht
              · rw [if_neg e] at h1 ⊢
                exact hs ▸ lookup_none hl w1 (by rw [hs]; exact h1)
          rw [peek_miss hl', peek_miss hl, putLine_mem]
      · have e : ∀ w', (m.putLine s w l).cache.line (setIndex a) w' = m.cache.line (setIndex a) w' :=
          fun w' => by simp [hs]
        have hl : (m.putLine s w l).cache.lookup (setIndex a) (tagOf a) = m.cache.lookup (setIndex a) (tagOf a) :=
          lookup_congr fun w' => by simp [e]
        simp only [MemSys.peek, hl, e, putLine_mem]

/-- What every byte access does besides answering (R220 to R222): the cache stays sound, `ByteEffects` says what becomes
of the counters and Memory, the line of the address is then in the way the access used, and the other lines are as
before. -/
structure ByteAccess (c : Config) (a : Word) (m m' : MemSys) : Prop extends ByteEffects m m' a where
  ok : MemOk c m'
  way : m'.cache.lookup (setIndex a) (tagOf a) = some (wayOf m a)
  frame : ∀ s w, ¬(s = setIndex a ∧ w = wayOf m a) → m'.cache.line s w = m.cache.line s w

theorem ByteAccess.otherSets {c : Config} {a : Word} {m m' : MemSys} (h : ByteAccess c a m m') (s : Fin 64)
    (hs : s ≠ setIndex a) (w : Fin 4) : m'.cache.line s w = m.cache.line s w := h.frame s w fun e => hs e.1

/-! `absent`, `wayOf`, `evictsDirty` and `writtenBack`, on a hit and on a miss. -/

theorem absent_hit {m : MemSys} {a : Word} {w : Fin 4} (h : m.cache.lookup (setIndex a) (tagOf a) = some w) :
    absent m a = false := by simp [absent, h]

theorem absent_miss {m : MemSys} {a : Word} (h : m.cache.lookup (setIndex a) (tagOf a) = none) :
    absent m a = true := by simp [absent, h]

theorem wayOf_hit {m : MemSys} {a : Word} {w : Fin 4} (h : m.cache.lookup (setIndex a) (tagOf a) = some w) :
    wayOf m a = w := by simp [wayOf, h]

theorem wayOf_miss {m : MemSys} {a : Word} (h : m.cache.lookup (setIndex a) (tagOf a) = none) :
    wayOf m a = m.cache.victim (setIndex a) := by simp [wayOf, h]

theorem evictsDirty_of_present {m : MemSys} {a : Word} (h : absent m a = false) : evictsDirty m a = false := by
  simp [evictsDirty, h]

theorem evictsDirty_of_absent {m : MemSys} {a : Word} (h : absent m a = true) :
    evictsDirty m a = ((victimLine m (setIndex a)).valid && (victimLine m (setIndex a)).dirty) := by
  simp [evictsDirty, h]

theorem writtenBack_none {m : MemSys} {a : Word} (h : evictsDirty m a = false) (x : Nat) : writtenBack m a x = none := by
  simp [writtenBack, h]

/-- Every timestamp is below the counter once it has ticked. -/
theorem ts_lt_tick {c : Config} {m : MemSys} (h : MemOk c m) {s : Fin 64} {w : Fin 4}
    (hv : (m.cache.line s w).valid = true) : (m.cache.line s w).ts < m.tick.cache.accessCounter :=
  Nat.lt_succ_of_le ((h.lines s w).stamped hv)

/-- The other valid ways of a set, against the way that holds tag `t`. -/
theorem others_of_hit {c : Config} {m : MemSys} (h : MemOk c m) {s : Fin 64} {t : Nat} {w : Fin 4}
    (hl : m.cache.lookup s t = some w) (w' : Fin 4) (hw : w' ≠ w) (hv : (m.cache.line s w').valid = true) :
    (m.cache.line s w').tag ≠ t ∧ (m.cache.line s w').ts < m.cache.accessCounter + 1 := by
  obtain ⟨hv0, ht0⟩ := lookup_some hl
  exact ⟨ht0 ▸ ((h.sets s).distinct w' w hw hv hv0).1, ts_lt_tick h hv⟩

/-! What `staleByte` is, case by case (R222, R223). -/

theorem staleByte_fill {c : Config} {m : MemSys} (x : Word) (h : c.waFill = .fill) : staleByte c m x = m.peek x := by
  simp [staleByte, h]

theorem staleByte_present {c : Config} {m : MemSys} {x : Word} {w : Fin 4}
    (h : m.cache.lookup (setIndex x) (tagOf x) = some w) : staleByte c m x = m.peek x := by
  unfold staleByte; rw [h]; cases c.waFill <;> rfl

theorem staleByte_absent {c : Config} {m : MemSys} {x : Word} (hf : c.waFill = .noFill)
    (h : m.cache.lookup (setIndex x) (tagOf x) = none) :
    staleByte c m x = (m.cache.line (setIndex x) (m.cache.victim (setIndex x))).data[(offsetOf x).val] := by
  simp [staleByte, hf, h]

/-- Two addresses of one line with the same offset are the same address. -/
theorem offset_ne {a x : Word} (hs : setIndex x = setIndex a) (ht : tagOf x = tagOf a) (hne : x ≠ a) :
    (offsetOf a).val ≠ (offsetOf x).val := fun he =>
  hne (BitVec.eq_of_toNat_eq (by rw [address_eq x, address_eq a, hs, ht, he]))

/-- What the shared part of a miss leaves (R213, R220, R222): the lines as they were, the victim's block in Memory, and
no difference to any read. -/
structure Missed (c : Config) (a : Word) (m m1 : MemSys) : Prop where
  ok : MemOk c m1
  line : ∀ s' w', m1.cache.line s' w' = m.cache.line s' w'
  accessCounter : m1.cache.accessCounter = m.cache.accessCounter + 1
  hits : m1.cache.hits = m.cache.hits
  misses : m1.cache.misses = m.cache.misses + 1
  writebacks : m1.cache.writebacks = m.cache.writebacks + (evictsDirty m a).toNat
  victimStored : (victimLine m (setIndex a)).valid = true → ∀ i : Fin 32,
    m1.mem.read (lineBase (victimLine m (setIndex a)).tag (setIndex a) + i.val)
      = (victimLine m (setIndex a)).data[i.val]
  memKept : evictsDirty m a = false → m1.mem = m.mem
  memory : ∀ x, m1.mem.read x = (writtenBack m a x).getD (m.mem.read x)
  peek : ∀ b, m1.peek b = m.peek b

theorem startMiss_spec {c : Config} {m : MemSys} (h : MemOk c m) {a : Word}
    (hl : m.cache.lookup (setIndex a) (tagOf a) = none) :
    ∃ m1, m.tick.startMiss c (setIndex a) = .done (m.cache.victim (setIndex a)) m1 ∧ Missed c a m m1 := by
  have hd := evictsDirty_of_absent (absent_miss hl)
  obtain ⟨m1, hev, hok, hline, hac, hhits, hmisses, hwb, hout, hold, hpeek⟩ :=
    evict_spec h.tick.countMiss (setIndex a) (m.cache.victim (setIndex a))
  have hkept : evictsDirty m a = false → m1.mem = m.mem := fun hne => by
    rw [MemSys.evict, if_neg (by simpa [hd, victimLine] using hne)] at hev
    cases hev
    rfl
  refine ⟨m1, ?_, hok, hline, hac, hhits, hmisses, ?_, hold, hkept, fun x => ?_, hpeek⟩
  · rw [MemSys.startMiss, countMiss_victim, tick_victim, hev]
    rfl
  · rw [hd]
    exact hwb
  · by_cases hdirty : evictsDirty m a = true
    · have hv : (victimLine m (setIndex a)).valid = true := (Bool.and_eq_true_iff.1 (hd ▸ hdirty)).1
      rw [writtenBack]
      split
      · rename_i hx
        have hbyte := hold hv ⟨_, hx.2.2⟩
        have haddr : lineBase (victimLine m (setIndex a)).tag (setIndex a) +
            (x - lineBase (victimLine m (setIndex a)).tag (setIndex a)) = x := Nat.add_sub_cancel' hx.2.1
        exact (congrArg m1.mem.read haddr).symm.trans hbyte
      · rename_i hx
        exact hout x fun hb => hx ⟨hdirty, hb.2⟩
    · rw [writtenBack_none (by simpa using hdirty), hkept (by simpa using hdirty)]
      rfl

/-- Installing the new line after a miss (R220, R222). -/
theorem install_spec {c : Config} {a : Word} {m m1 : MemSys} (h : MemOk c m) (hm : Missed c a m m1)
    (ha : a.toNat < c.memSize) (hl : m.cache.lookup (setIndex a) (tagOf a) = none) (dirty : Bool)
    (data : Vector Byte 32) (hclean : dirty = false → ∀ i : Fin 32,
      data[i.val] = m1.mem.read (lineBase (tagOf a) (setIndex a) + i.val)) :
    ∃ m', m' = m1.putLine (setIndex a) (m.cache.victim (setIndex a))
        { valid := true, dirty := dirty, tag := tagOf a, data := data, ts := m1.cache.accessCounter } ∧
      ByteAccess c a m m' ∧
      ∀ x, m'.peek x = if setIndex x = setIndex a ∧ tagOf x = tagOf a then data[(offsetOf x).val] else m.peek x := by
  obtain ⟨hok, hpeek⟩ := putLine_spec
    (l := { valid := true, dirty := dirty, tag := tagOf a, data := data, ts := m1.cache.accessCounter })
    hm.ok (w := m.cache.victim (setIndex a)) rfl (block_inside h.cfg ha) rfl
    (fun w' _ hv => by
      rw [hm.line] at hv ⊢
      exact ⟨lookup_none hl w' hv, by rw [hm.accessCounter]; exact ts_lt_tick h hv⟩)
    (fun w' hw => by rw [hm.line]; exact valid_below_victim _ _ _ hw)
    hclean
    (fun hv _ i => by rw [hm.line] at hv ⊢; exact hm.victimStored hv i)
  have habs := absent_miss hl
  refine ⟨_, rfl, ⟨⟨hm.accessCounter, ?_, ?_, hm.writebacks, hm.memKept, hm.memory⟩, hok, ?_, fun s w hsw => ?_⟩,
    fun x => ?_⟩
  · simp [habs, hm.hits]
  · simp [habs, hm.misses]
  · rw [wayOf_miss hl]
    exact lookup_eq_some (hok.sets _) (by simp) (by simp)
  · rw [wayOf_miss hl] at hsw
    simp [hsw, hm.line]
  · rw [hpeek, hm.peek]

/-- A hit replaces the line in place with a fresh stamp (R220, R222). -/
theorem hit_spec {c : Config} {a : Word} {m : MemSys} (h : MemOk c m) (ha : a.toNat < c.memSize) {w : Fin 4}
    (hl : m.cache.lookup (setIndex a) (tagOf a) = some w) (l : CacheLine)
    (hv : l.valid = true) (ht : l.tag = tagOf a) (hts : l.ts = m.cache.accessCounter + 1)
    (hclean : l.dirty = false → (m.cache.line (setIndex a) w).dirty = false ∧
      l.data = (m.cache.line (setIndex a) w).data) :
    ∃ m', m' = (m.tick.putLine (setIndex a) w l).countHit ∧ ByteAccess c a m m' ∧
      ∀ x, m'.peek x =
        if setIndex x = setIndex a ∧ tagOf x = tagOf a then l.data[(offsetOf x).val] else m.peek x := by
  obtain ⟨hv0, ht0⟩ := lookup_some hl
  obtain ⟨hok, hpeek⟩ := putLine_spec h.tick (w := w) (l := l) hv (by rw [ht]; exact block_inside h.cfg ha) hts
    (fun w' hw hv' => by rw [ht]; exact others_of_hit h hl w' hw hv')
    (fun w' hw => (h.sets _).filled w' w hw hv0)
    (fun hd i => by
      obtain ⟨hd0, hdata⟩ := hclean hd
      have := (h.lines _ w).clean hv0 hd0 i
      rw [hdata, ht, ← ht0]
      exact this)
    (fun _ hne => absurd (ht0.trans ht.symm) hne)
  have habs := absent_hit hl
  have hne := evictsDirty_of_present habs
  refine ⟨_, rfl, ⟨⟨rfl, ?_, ?_, ?_, fun _ => rfl, fun x => ?_⟩, hok.countHit, ?_, fun s w' hsw => ?_⟩, fun x => ?_⟩
  · simp [habs]
  · simp [habs]
  · simp [hne]
  · rw [writtenBack_none hne]
    rfl
  · rw [wayOf_hit hl]
    exact lookup_eq_some (hok.countHit.sets _) (by simp [hv]) (by simp [ht])
  · rw [wayOf_hit hl] at hsw
    simp [hsw]
  · rw [peek_countHit, hpeek, ht, peek_tick]

/-- `read_byte` on a sound cache (R220): for an address inside Memory it answers the byte the view shows, and no read
sees a difference. -/
theorem readByte_spec {c : Config} {m : MemSys} (h : MemOk c m) {a : Word} (ha : a.toNat < c.memSize) :
    ∃ m', m.readByte c a = .done (m.peek a) m' ∧ ByteAccess c a m m' ∧ ∀ x, m'.peek x = m.peek x := by
  have hin := block_inside h.cfg ha
  cases hl : m.cache.lookup (setIndex a) (tagOf a) with
  | some w =>
    obtain ⟨hv, ht⟩ := lookup_some hl
    obtain ⟨m', rfl, hacc, hpeek⟩ := hit_spec h ha hl
      { m.cache.line (setIndex a) w with ts := m.cache.accessCounter + 1 } hv ht rfl (fun hd => ⟨hd, rfl⟩)
    refine ⟨_, ?_, hacc, fun x => ?_⟩
    · rw [MemSys.readByte, if_neg (by omega), tick_lookup, hl, peek_hit hl]
      rfl
    · rw [hpeek]
      split
      · rename_i hx
        rw [peek_hit (w := w) (by rw [hx.1, hx.2]; exact hl)]
        simp only [hx.1]
      · rfl
  | none =>
    obtain ⟨m1, hstart, hm⟩ := startMiss_spec h hl
    have hnone : ∀ x, setIndex x = setIndex a → tagOf x = tagOf a →
        m.peek x = m1.mem.read (lineBase (tagOf a) (setIndex a) + (offsetOf x).val) := fun x hs ht => by
      rw [← hm.peek x, peek_miss (lookup_eq_none fun w' hv => by
        rw [hs, hm.line] at hv ⊢
        rw [ht]
        exact lookup_none hl w' hv), address_eq x, hs, ht]
    obtain ⟨m', hm', hacc, hpeek⟩ := install_spec h hm ha hl false
      (Vector.ofFn fun i : Fin 32 => m1.mem.read (lineBase (tagOf a) (setIndex a) + i.val)) (fun _ i => by simp)
    refine ⟨m', ?_, hacc, fun x => ?_⟩
    · have hblock : m1.readBlock c (tagOf a) (setIndex a) =
          .done (Vector.ofFn fun i : Fin 32 => m1.mem.read (lineBase (tagOf a) (setIndex a) + i.val)) m1 := by
        rw [MemSys.readBlock, backRead_ok _ hin (by decide)]
      rw [MemSys.readByte, if_neg (by omega), tick_lookup, hl]
      simp only [hstart, andThen_done, hblock]
      rw [← hm', Vector.getElem_ofFn, hnone a rfl rfl]
    · rw [hpeek]
      split
      · rename_i hx
        rw [Vector.getElem_ofFn, hnone x hx.1 hx.2]
      · rfl

/-- `write_byte` on a sound cache (R222, R223): for an address inside Memory it answers; the byte written reads back; the
other bytes of its line read as `staleByte` says, which is as before on a hit or under `Fill`; every other byte reads as
before. -/
theorem writeByte_spec {c : Config} {m : MemSys} (h : MemOk c m) {a : Word} (ha : a.toNat < c.memSize) (b : Byte) :
    ∃ m', m.writeByte c a b = .done () m' ∧ ByteAccess c a m m' ∧
      ∀ x, m'.peek x = if x = a then b
        else if setIndex x = setIndex a ∧ tagOf x = tagOf a then staleByte c m x else m.peek x := by
  have hin := block_inside h.cfg ha
  have finish : ∀ (data : Vector Byte 32) (m' : MemSys),
      (∀ x, setIndex x = setIndex a → tagOf x = tagOf a → data[(offsetOf x).val] = staleByte c m x) →
      (∀ x, m'.peek x = if setIndex x = setIndex a ∧ tagOf x = tagOf a
        then (data.set (offsetOf a).val b)[(offsetOf x).val] else m.peek x) →
      ∀ x, m'.peek x = if x = a then b
        else if setIndex x = setIndex a ∧ tagOf x = tagOf a then staleByte c m x else m.peek x := by
    intro data m' hdata hpeek x
    rw [hpeek]
    by_cases hxa : x = a
    · subst hxa; simp
    · rw [if_neg hxa]
      split
      · rename_i hx
        rw [Vector.getElem_set_ne _ _ (offset_ne hx.1 hx.2 hxa), hdata x hx.1 hx.2]
      · rfl
  cases hl : m.cache.lookup (setIndex a) (tagOf a) with
  | some w =>
    obtain ⟨hv, ht⟩ := lookup_some hl
    obtain ⟨m', hm', hacc, hpeek⟩ := hit_spec h ha hl
      { m.cache.line (setIndex a) w with
          data := (m.cache.line (setIndex a) w).data.set (offsetOf a).val b, dirty := true,
          ts := m.cache.accessCounter + 1 } hv ht rfl (fun hd => by cases hd)
    refine ⟨m', ?_, hacc, finish _ m' (fun x hs ht' => ?_) hpeek⟩
    · rw [MemSys.writeByte, if_neg (by omega), tick_lookup, hl, hm']
      rfl
    · have hlx : m.cache.lookup (setIndex x) (tagOf x) = some w := by rw [hs, ht']; exact hl
      rw [staleByte_present hlx, peek_hit hlx]
      simp only [hs]
  | none =>
    obtain ⟨m1, hstart, hm⟩ := startMiss_spec h hl
    obtain ⟨block, hblock, hstale⟩ : ∃ block : Vector Byte 32,
        m1.allocateBlock c (tagOf a) (setIndex a) (m.cache.victim (setIndex a)) = .done block m1 ∧
        ∀ x, setIndex x = setIndex a → tagOf x = tagOf a → block[(offsetOf x).val] = staleByte c m x := by
      cases hf : c.waFill with
      | fill =>
        refine ⟨Vector.ofFn fun i : Fin 32 => m1.mem.read (lineBase (tagOf a) (setIndex a) + i.val), ?_,
          fun x hs ht => ?_⟩
        · rw [MemSys.allocateBlock, hf]
          simp only [MemSys.readBlock, backRead_ok _ hin (by decide : 0 < 32)]
        · rw [staleByte_fill x hf, ← hm.peek x, peek_miss (lookup_eq_none fun w' hv' => by
            rw [hs, hm.line] at hv' ⊢
            rw [ht]
            exact lookup_none hl w' hv'), address_eq x, hs, ht, Vector.getElem_ofFn]
      | noFill =>
        refine ⟨(m1.cache.line (setIndex a) (m.cache.victim (setIndex a))).data, by rw [MemSys.allocateBlock, hf],
          fun x hs ht => ?_⟩
        rw [staleByte_absent hf (by rw [hs, ht]; exact hl)]
        simp only [hm.line, hs]
    obtain ⟨m', hm', hacc, hpeek⟩ := install_spec h hm ha hl true (block.set (offsetOf a).val b)
      (fun hd => by cases hd)
    refine ⟨m', ?_, hacc, finish block m' hstale hpeek⟩
    rw [MemSys.writeByte, if_neg (by omega), tick_lookup, hl]
    simp only [hstart, andThen_done, hblock]
    rw [← hm']

/-- A word access whose span leaves Memory faults and changes nothing (R224, R226). -/
theorem readWord_fault {c : Config} {m : MemSys} {a : Word} (h : c.memSize ≤ a.toNat + 3) :
    m.readWord c a = .fault a m := by rw [MemSys.readWord, if_pos h]

theorem writeWord_fault {c : Config} {m : MemSys} {a v : Word} (h : c.memSize ≤ a.toNat + 3) :
    m.writeWord c a v = .fault a m := by rw [MemSys.writeWord, if_pos h]

/-- Inside Memory the four addresses of a word do not wrap. -/
theorem toNat_add_small {c : Config} (h : c.wellFormed) {a : Word} (ha : a.toNat + 3 < c.memSize) {i : Nat}
    (hi : i ≤ 3) : (a + BitVec.ofNat 32 i).toNat = a.toNat + i := by
  obtain ⟨-, -, h3⟩ := h
  rw [BitVec.toNat_add, BitVec.toNat_ofNat, Nat.mod_eq_of_lt (a := i) (by omega), Nat.mod_eq_of_lt (by omega)]

end Sys2Proof.Machine
end

