-- ==== Sys2Proof/Laws/Encoding.lean ====
section
/-! SUPPORT. The bits and fields of an encoded word (spec/30_encoding.md R301, R302), so that no later proof unfolds the
encoder. -/

namespace Sys2Proof

theorem getLsbD_encodeR (rs rt rd : RegIndex) (shamt : BitVec 5) (funct : BitVec 6) (k : Nat) :
    (encodeR rs rt rd shamt funct).getLsbD k =
      if k < 6 then funct.getLsbD k else if k < 11 then shamt.getLsbD (k - 6)
      else if k < 16 then rd.getLsbD (k - 11) else if k < 21 then rt.getLsbD (k - 16)
      else if k < 26 then rs.getLsbD (k - 21) else false := by
  unfold encodeR
  simp only [BitVec.getLsbD_append]
  grind

theorem getLsbD_encodeI (opcode : BitVec 6) (rs rt : RegIndex) (imm : BitVec 16) (k : Nat) :
    (encodeI opcode rs rt imm).getLsbD k =
      if k < 16 then imm.getLsbD k else if k < 21 then rt.getLsbD (k - 16)
      else if k < 26 then rs.getLsbD (k - 21) else opcode.getLsbD (k - 26) := by
  unfold encodeI
  simp only [BitVec.getLsbD_append]
  grind

theorem getLsbD_encodeJ (opcode : BitVec 6) (target : BitVec 26) (k : Nat) :
    (encodeJ opcode target).getLsbD k = if k < 26 then target.getLsbD k else opcode.getLsbD (k - 26) := by
  unfold encodeJ
  simp only [BitVec.getLsbD_append]

@[simp] theorem opcodeOf_encodeR (rs rt rd : RegIndex) (shamt : BitVec 5) (funct : BitVec 6) :
    opcodeOf (encodeR rs rt rd shamt funct) = 0x00#6 := by
  refine BitVec.eq_of_getLsbD_eq fun k hk => ?_
  simp only [opcodeOf, BitVec.getLsbD_extractLsb', getLsbD_encodeR, hk, decide_true, Bool.true_and]
  grind

@[simp] theorem rsOf_encodeR (rs rt rd : RegIndex) (shamt : BitVec 5) (funct : BitVec 6) :
    rsOf (encodeR rs rt rd shamt funct) = rs := by
  refine BitVec.eq_of_getLsbD_eq fun k hk => ?_
  simp only [rsOf, BitVec.getLsbD_extractLsb', getLsbD_encodeR, hk, decide_true, Bool.true_and]
  grind

@[simp] theorem rtOf_encodeR (rs rt rd : RegIndex) (shamt : BitVec 5) (funct : BitVec 6) :
    rtOf (encodeR rs rt rd shamt funct) = rt := by
  refine BitVec.eq_of_getLsbD_eq fun k hk => ?_
  simp only [rtOf, BitVec.getLsbD_extractLsb', getLsbD_encodeR, hk, decide_true, Bool.true_and]
  grind

@[simp] theorem rdOf_encodeR (rs rt rd : RegIndex) (shamt : BitVec 5) (funct : BitVec 6) :
    rdOf (encodeR rs rt rd shamt funct) = rd := by
  refine BitVec.eq_of_getLsbD_eq fun k hk => ?_
  simp only [rdOf, BitVec.getLsbD_extractLsb', getLsbD_encodeR, hk, decide_true, Bool.true_and]
  grind

@[simp] theorem shamtOf_encodeR (rs rt rd : RegIndex) (shamt : BitVec 5) (funct : BitVec 6) :
    shamtOf (encodeR rs rt rd shamt funct) = shamt := by
  refine BitVec.eq_of_getLsbD_eq fun k hk => ?_
  simp only [shamtOf, BitVec.getLsbD_extractLsb', getLsbD_encodeR, hk, decide_true, Bool.true_and]
  grind

@[simp] theorem functOf_encodeR (rs rt rd : RegIndex) (shamt : BitVec 5) (funct : BitVec 6) :
    functOf (encodeR rs rt rd shamt funct) = funct := by
  refine BitVec.eq_of_getLsbD_eq fun k hk => ?_
  simp only [functOf, BitVec.getLsbD_extractLsb', getLsbD_encodeR, hk, decide_true, Bool.true_and]
  grind

@[simp] theorem opcodeOf_encodeI (opcode : BitVec 6) (rs rt : RegIndex) (imm : BitVec 16) :
    opcodeOf (encodeI opcode rs rt imm) = opcode := by
  refine BitVec.eq_of_getLsbD_eq fun k hk => ?_
  simp only [opcodeOf, BitVec.getLsbD_extractLsb', getLsbD_encodeI, hk, decide_true, Bool.true_and]
  grind

@[simp] theorem rsOf_encodeI (opcode : BitVec 6) (rs rt : RegIndex) (imm : BitVec 16) :
    rsOf (encodeI opcode rs rt imm) = rs := by
  refine BitVec.eq_of_getLsbD_eq fun k hk => ?_
  simp only [rsOf, BitVec.getLsbD_extractLsb', getLsbD_encodeI, hk, decide_true, Bool.true_and]
  grind

@[simp] theorem rtOf_encodeI (opcode : BitVec 6) (rs rt : RegIndex) (imm : BitVec 16) :
    rtOf (encodeI opcode rs rt imm) = rt := by
  refine BitVec.eq_of_getLsbD_eq fun k hk => ?_
  simp only [rtOf, BitVec.getLsbD_extractLsb', getLsbD_encodeI, hk, decide_true, Bool.true_and]
  grind

@[simp] theorem immOf_encodeI (opcode : BitVec 6) (rs rt : RegIndex) (imm : BitVec 16) :
    immOf (encodeI opcode rs rt imm) = imm := by
  refine BitVec.eq_of_getLsbD_eq fun k hk => ?_
  simp only [immOf, BitVec.getLsbD_extractLsb', getLsbD_encodeI, hk, decide_true, Bool.true_and]
  grind

@[simp] theorem opcodeOf_encodeJ (opcode : BitVec 6) (target : BitVec 26) :
    opcodeOf (encodeJ opcode target) = opcode := by
  refine BitVec.eq_of_getLsbD_eq fun k hk => ?_
  simp only [opcodeOf, BitVec.getLsbD_extractLsb', getLsbD_encodeJ, hk, decide_true, Bool.true_and]
  grind

@[simp] theorem targetOf_encodeJ (opcode : BitVec 6) (target : BitVec 26) :
    targetOf (encodeJ opcode target) = target := by
  refine BitVec.eq_of_getLsbD_eq fun k hk => ?_
  simp only [targetOf, BitVec.getLsbD_extractLsb', getLsbD_encodeJ, hk, decide_true, Bool.true_and]
  grind

/-! What a row's mask keeps of a word (the masks of spec/opcode_table.json). -/

theorem encodeR_mask (rs rt rd : RegIndex) (shamt : BitVec 5) (funct : BitVec 6) :
    encodeR rs rt rd shamt funct &&& 0xFC00003F#32 = funct.zeroExtend 32 := by
  refine BitVec.eq_of_getLsbD_eq fun k hk => ?_
  rw [BitVec.getLsbD_and, getLsbD_encodeR]
  interval_cases k <;> simp

theorem encodeI_mask (opcode : BitVec 6) (rs rt : RegIndex) (imm : BitVec 16) :
    encodeI opcode rs rt imm &&& 0xFC000000#32 = opcode.zeroExtend 32 <<< 26 := by
  refine BitVec.eq_of_getLsbD_eq fun k hk => ?_
  rw [BitVec.getLsbD_and, getLsbD_encodeI]
  interval_cases k <;> simp

theorem encodeJ_mask (opcode : BitVec 6) (target : BitVec 26) :
    encodeJ opcode target &&& 0xFC000000#32 = opcode.zeroExtend 32 <<< 26 := by
  refine BitVec.eq_of_getLsbD_eq fun k hk => ?_
  rw [BitVec.getLsbD_and, getLsbD_encodeJ]
  interval_cases k <;> simp

end Sys2Proof
end

