-- ==== Sys2Proof/Laws/State.lean ====
section
/-! SUPPORT. One lemma per field per update of the state, and the register file's read-after-write laws, so that no
later proof unfolds a record update. -/

namespace Sys2Proof.Machine

/-! Registers. -/

@[simp] theorem readReg_zero (s : State) : s.readReg 0#5 = 0#32 := rfl

@[simp] theorem writeReg_zero (s : State) (v : Word) : s.writeReg 0#5 v = s := rfl

theorem readReg_of_ne {i : RegIndex} (s : State) (h : i ≠ 0#5) : s.readReg i = s.x[i.toNat] := by
  simp [State.readReg, h]

theorem writeReg_of_ne {i : RegIndex} (s : State) (v : Word) (h : i ≠ 0#5) :
    s.writeReg i v = { s with x := s.x.set i.toNat v } := by
  simp [State.writeReg, h]

/-- Reading after a write: the value written, 0 for register 0, and the old value of any other register (R101). -/
theorem readReg_writeReg (s : State) (i j : RegIndex) (v : Word) :
    (s.writeReg i v).readReg j = if j = i then (if i = 0#5 then 0#32 else v) else s.readReg j := by
  by_cases hi : i = 0#5
  · subst hi
    by_cases hj : j = 0#5 <;> simp [hj]
  · by_cases hj : j = 0#5
    · subst hj
      simp [Ne.symm hi]
    · rw [writeReg_of_ne s v hi, readReg_of_ne _ hj, readReg_of_ne _ hj]
      by_cases hji : j = i
      · subst hji
        simp [hi]
      · have : i.toNat ≠ j.toNat := fun e => hji (BitVec.eq_of_toNat_eq e.symm)
        simp [hji, Vector.getElem_set_ne _ _ this]

@[simp] theorem readReg_writeReg_same (s : State) (i : RegIndex) (v : Word) (h : i ≠ 0#5) :
    (s.writeReg i v).readReg i = v := by simp [readReg_writeReg, h]

theorem readReg_writeReg_other (s : State) {i j : RegIndex} (v : Word) (h : j ≠ i) :
    (s.writeReg i v).readReg j = s.readReg j := by simp [readReg_writeReg, h]

/-- Slot 0 is never written. -/
theorem writeReg_slot_zero (s : State) (i : RegIndex) (v : Word) : (s.writeReg i v).x[0] = s.x[0] := by
  by_cases hi : i = 0#5
  · simp [hi]
  · have : i.toNat ≠ 0 := fun e => hi (BitVec.eq_of_toNat_eq (by simpa using e))
    rw [writeReg_of_ne s v hi]
    simp [Vector.getElem_set_ne _ _ this]

@[simp] theorem writeReg_cfg (s : State) (i : RegIndex) (v : Word) : (s.writeReg i v).cfg = s.cfg := by
  unfold State.writeReg; split <;> rfl
@[simp] theorem writeReg_pc (s : State) (i : RegIndex) (v : Word) : (s.writeReg i v).pc = s.pc := by
  unfold State.writeReg; split <;> rfl
@[simp] theorem writeReg_hi (s : State) (i : RegIndex) (v : Word) : (s.writeReg i v).hi = s.hi := by
  unfold State.writeReg; split <;> rfl
@[simp] theorem writeReg_lo (s : State) (i : RegIndex) (v : Word) : (s.writeReg i v).lo = s.lo := by
  unfold State.writeReg; split <;> rfl
@[simp] theorem writeReg_msys (s : State) (i : RegIndex) (v : Word) : (s.writeReg i v).msys = s.msys := by
  unfold State.writeReg; split <;> rfl
@[simp] theorem writeReg_executed (s : State) (i : RegIndex) (v : Word) :
    (s.writeReg i v).executed = s.executed := by unfold State.writeReg; split <;> rfl
@[simp] theorem writeReg_branches (s : State) (i : RegIndex) (v : Word) :
    (s.writeReg i v).branches = s.branches := by unfold State.writeReg; split <;> rfl
@[simp] theorem writeReg_loads (s : State) (i : RegIndex) (v : Word) : (s.writeReg i v).loads = s.loads := by
  unfold State.writeReg; split <;> rfl
@[simp] theorem writeReg_stores (s : State) (i : RegIndex) (v : Word) : (s.writeReg i v).stores = s.stores := by
  unfold State.writeReg; split <;> rfl
@[simp] theorem writeReg_output (s : State) (i : RegIndex) (v : Word) : (s.writeReg i v).output = s.output := by
  unfold State.writeReg; split <;> rfl
@[simp] theorem writeReg_fetched (s : State) (i : RegIndex) (v : Word) : (s.writeReg i v).fetched = s.fetched := by
  unfold State.writeReg; split <;> rfl
@[simp] theorem writeReg_result (s : State) (i : RegIndex) (v : Word) : (s.writeReg i v).result = s.result := by
  unfold State.writeReg; split <;> rfl

/-! `setPc`. -/

@[simp] theorem setPc_cfg (s : State) (target : Word) : (s.setPc target).cfg = s.cfg := rfl
@[simp] theorem setPc_x (s : State) (target : Word) : (s.setPc target).x = s.x := rfl
@[simp] theorem setPc_pc (s : State) (target : Word) : (s.setPc target).pc = target := rfl
@[simp] theorem setPc_hi (s : State) (target : Word) : (s.setPc target).hi = s.hi := rfl
@[simp] theorem setPc_lo (s : State) (target : Word) : (s.setPc target).lo = s.lo := rfl
@[simp] theorem setPc_msys (s : State) (target : Word) : (s.setPc target).msys = s.msys := rfl
@[simp] theorem setPc_executed (s : State) (target : Word) : (s.setPc target).executed = s.executed := rfl
@[simp] theorem setPc_branches (s : State) (target : Word) : (s.setPc target).branches = s.branches := rfl
@[simp] theorem setPc_loads (s : State) (target : Word) : (s.setPc target).loads = s.loads := rfl
@[simp] theorem setPc_stores (s : State) (target : Word) : (s.setPc target).stores = s.stores := rfl
@[simp] theorem setPc_output (s : State) (target : Word) : (s.setPc target).output = s.output := rfl
@[simp] theorem setPc_fetched (s : State) (target : Word) : (s.setPc target).fetched = s.fetched := rfl
@[simp] theorem setPc_result (s : State) (target : Word) : (s.setPc target).result = s.result := rfl
@[simp] theorem readReg_setPc (s : State) (target : Word) (i : RegIndex) :
    (s.setPc target).readReg i = s.readReg i := rfl

/-! `setMsys`. -/

@[simp] theorem setMsys_cfg (s : State) (m : MemSys) : (s.setMsys m).cfg = s.cfg := rfl
@[simp] theorem setMsys_x (s : State) (m : MemSys) : (s.setMsys m).x = s.x := rfl
@[simp] theorem setMsys_pc (s : State) (m : MemSys) : (s.setMsys m).pc = s.pc := rfl
@[simp] theorem setMsys_hi (s : State) (m : MemSys) : (s.setMsys m).hi = s.hi := rfl
@[simp] theorem setMsys_lo (s : State) (m : MemSys) : (s.setMsys m).lo = s.lo := rfl
@[simp] theorem setMsys_msys (s : State) (m : MemSys) : (s.setMsys m).msys = m := rfl
@[simp] theorem setMsys_executed (s : State) (m : MemSys) : (s.setMsys m).executed = s.executed := rfl
@[simp] theorem setMsys_branches (s : State) (m : MemSys) : (s.setMsys m).branches = s.branches := rfl
@[simp] theorem setMsys_loads (s : State) (m : MemSys) : (s.setMsys m).loads = s.loads := rfl
@[simp] theorem setMsys_stores (s : State) (m : MemSys) : (s.setMsys m).stores = s.stores := rfl
@[simp] theorem setMsys_output (s : State) (m : MemSys) : (s.setMsys m).output = s.output := rfl
@[simp] theorem setMsys_fetched (s : State) (m : MemSys) : (s.setMsys m).fetched = s.fetched := rfl
@[simp] theorem setMsys_result (s : State) (m : MemSys) : (s.setMsys m).result = s.result := rfl
@[simp] theorem readReg_setMsys (s : State) (m : MemSys) (i : RegIndex) :
    (s.setMsys m).readReg i = s.readReg i := rfl

/-! `countLoad`. -/

@[simp] theorem countLoad_cfg (s : State) : s.countLoad.cfg = s.cfg := rfl
@[simp] theorem countLoad_x (s : State) : s.countLoad.x = s.x := rfl
@[simp] theorem countLoad_pc (s : State) : s.countLoad.pc = s.pc := rfl
@[simp] theorem countLoad_hi (s : State) : s.countLoad.hi = s.hi := rfl
@[simp] theorem countLoad_lo (s : State) : s.countLoad.lo = s.lo := rfl
@[simp] theorem countLoad_msys (s : State) : s.countLoad.msys = s.msys := rfl
@[simp] theorem countLoad_executed (s : State) : s.countLoad.executed = s.executed := rfl
@[simp] theorem countLoad_branches (s : State) : s.countLoad.branches = s.branches := rfl
@[simp] theorem countLoad_loads (s : State) : s.countLoad.loads = s.loads + 1 := rfl
@[simp] theorem countLoad_stores (s : State) : s.countLoad.stores = s.stores := rfl
@[simp] theorem countLoad_output (s : State) : s.countLoad.output = s.output := rfl
@[simp] theorem countLoad_fetched (s : State) : s.countLoad.fetched = s.fetched := rfl
@[simp] theorem countLoad_result (s : State) : s.countLoad.result = s.result := rfl
@[simp] theorem readReg_countLoad (s : State) (i : RegIndex) :
    s.countLoad.readReg i = s.readReg i := rfl

/-! `countStore`. -/

@[simp] theorem countStore_cfg (s : State) : s.countStore.cfg = s.cfg := rfl
@[simp] theorem countStore_x (s : State) : s.countStore.x = s.x := rfl
@[simp] theorem countStore_pc (s : State) : s.countStore.pc = s.pc := rfl
@[simp] theorem countStore_hi (s : State) : s.countStore.hi = s.hi := rfl
@[simp] theorem countStore_lo (s : State) : s.countStore.lo = s.lo := rfl
@[simp] theorem countStore_msys (s : State) : s.countStore.msys = s.msys := rfl
@[simp] theorem countStore_executed (s : State) : s.countStore.executed = s.executed := rfl
@[simp] theorem countStore_branches (s : State) : s.countStore.branches = s.branches := rfl
@[simp] theorem countStore_loads (s : State) : s.countStore.loads = s.loads := rfl
@[simp] theorem countStore_stores (s : State) : s.countStore.stores = s.stores + 1 := rfl
@[simp] theorem countStore_output (s : State) : s.countStore.output = s.output := rfl
@[simp] theorem countStore_fetched (s : State) : s.countStore.fetched = s.fetched := rfl
@[simp] theorem countStore_result (s : State) : s.countStore.result = s.result := rfl
@[simp] theorem readReg_countStore (s : State) (i : RegIndex) :
    s.countStore.readReg i = s.readReg i := rfl

/-! `emit`. -/

@[simp] theorem emit_cfg (s : State) (e : Event) : (s.emit e).cfg = s.cfg := rfl
@[simp] theorem emit_x (s : State) (e : Event) : (s.emit e).x = s.x := rfl
@[simp] theorem emit_pc (s : State) (e : Event) : (s.emit e).pc = s.pc := rfl
@[simp] theorem emit_hi (s : State) (e : Event) : (s.emit e).hi = s.hi := rfl
@[simp] theorem emit_lo (s : State) (e : Event) : (s.emit e).lo = s.lo := rfl
@[simp] theorem emit_msys (s : State) (e : Event) : (s.emit e).msys = s.msys := rfl
@[simp] theorem emit_executed (s : State) (e : Event) : (s.emit e).executed = s.executed := rfl
@[simp] theorem emit_branches (s : State) (e : Event) : (s.emit e).branches = s.branches := rfl
@[simp] theorem emit_loads (s : State) (e : Event) : (s.emit e).loads = s.loads := rfl
@[simp] theorem emit_stores (s : State) (e : Event) : (s.emit e).stores = s.stores := rfl
@[simp] theorem emit_output (s : State) (e : Event) : (s.emit e).output = s.output ++ [e] := rfl
@[simp] theorem emit_fetched (s : State) (e : Event) : (s.emit e).fetched = s.fetched := rfl
@[simp] theorem emit_result (s : State) (e : Event) : (s.emit e).result = s.result := rfl
@[simp] theorem readReg_emit (s : State) (e : Event) (i : RegIndex) :
    (s.emit e).readReg i = s.readReg i := rfl

/-! `setResult`. -/

@[simp] theorem setResult_cfg (s : State) (r : StepResult) : (s.setResult r).cfg = s.cfg := rfl
@[simp] theorem setResult_x (s : State) (r : StepResult) : (s.setResult r).x = s.x := rfl
@[simp] theorem setResult_pc (s : State) (r : StepResult) : (s.setResult r).pc = s.pc := rfl
@[simp] theorem setResult_hi (s : State) (r : StepResult) : (s.setResult r).hi = s.hi := rfl
@[simp] theorem setResult_lo (s : State) (r : StepResult) : (s.setResult r).lo = s.lo := rfl
@[simp] theorem setResult_msys (s : State) (r : StepResult) : (s.setResult r).msys = s.msys := rfl
@[simp] theorem setResult_executed (s : State) (r : StepResult) : (s.setResult r).executed = s.executed := rfl
@[simp] theorem setResult_branches (s : State) (r : StepResult) : (s.setResult r).branches = s.branches := rfl
@[simp] theorem setResult_loads (s : State) (r : StepResult) : (s.setResult r).loads = s.loads := rfl
@[simp] theorem setResult_stores (s : State) (r : StepResult) : (s.setResult r).stores = s.stores := rfl
@[simp] theorem setResult_output (s : State) (r : StepResult) : (s.setResult r).output = s.output := rfl
@[simp] theorem setResult_fetched (s : State) (r : StepResult) : (s.setResult r).fetched = s.fetched := rfl
@[simp] theorem setResult_result (s : State) (r : StepResult) : (s.setResult r).result = r := rfl
@[simp] theorem readReg_setResult (s : State) (r : StepResult) (i : RegIndex) :
    (s.setResult r).readReg i = s.readReg i := rfl

/-! `finish`. -/

@[simp] theorem finish_cfg (s : State) (t : Bool) : (s.finish t).cfg = s.cfg := rfl
@[simp] theorem finish_x (s : State) (t : Bool) : (s.finish t).x = s.x := rfl
@[simp] theorem finish_pc (s : State) (t : Bool) : (s.finish t).pc = s.pc := rfl
@[simp] theorem finish_hi (s : State) (t : Bool) : (s.finish t).hi = s.hi := rfl
@[simp] theorem finish_lo (s : State) (t : Bool) : (s.finish t).lo = s.lo := rfl
@[simp] theorem finish_msys (s : State) (t : Bool) : (s.finish t).msys = s.msys := rfl
@[simp] theorem finish_executed (s : State) (t : Bool) : (s.finish t).executed = s.executed := rfl
@[simp] theorem finish_branches (s : State) (t : Bool) : (s.finish t).branches = s.branches := rfl
@[simp] theorem finish_loads (s : State) (t : Bool) : (s.finish t).loads = s.loads := rfl
@[simp] theorem finish_stores (s : State) (t : Bool) : (s.finish t).stores = s.stores := rfl
@[simp] theorem finish_output (s : State) (t : Bool) : (s.finish t).output = s.output := rfl
@[simp] theorem finish_fetched (s : State) (t : Bool) : (s.finish t).fetched = s.fetched := rfl
@[simp] theorem finish_result (s : State) (t : Bool) : (s.finish t).result = .continued t := rfl
@[simp] theorem readReg_finish (s : State) (t : Bool) (i : RegIndex) :
    (s.finish t).readReg i = s.readReg i := rfl

/-! `beginExecute`. -/

@[simp] theorem beginExecute_cfg (s : State) (w : Word) (m : MemSys) : (beginExecute s w m).cfg = s.cfg := rfl
@[simp] theorem beginExecute_x (s : State) (w : Word) (m : MemSys) : (beginExecute s w m).x = s.x := rfl
@[simp] theorem beginExecute_pc (s : State) (w : Word) (m : MemSys) : (beginExecute s w m).pc = s.pc := rfl
@[simp] theorem beginExecute_hi (s : State) (w : Word) (m : MemSys) : (beginExecute s w m).hi = s.hi := rfl
@[simp] theorem beginExecute_lo (s : State) (w : Word) (m : MemSys) : (beginExecute s w m).lo = s.lo := rfl
@[simp] theorem beginExecute_msys (s : State) (w : Word) (m : MemSys) : (beginExecute s w m).msys = m := rfl
@[simp] theorem beginExecute_executed (s : State) (w : Word) (m : MemSys) : (beginExecute s w m).executed = s.executed := rfl
@[simp] theorem beginExecute_branches (s : State) (w : Word) (m : MemSys) : (beginExecute s w m).branches = s.branches := rfl
@[simp] theorem beginExecute_loads (s : State) (w : Word) (m : MemSys) : (beginExecute s w m).loads = s.loads := rfl
@[simp] theorem beginExecute_stores (s : State) (w : Word) (m : MemSys) : (beginExecute s w m).stores = s.stores := rfl
@[simp] theorem beginExecute_output (s : State) (w : Word) (m : MemSys) : (beginExecute s w m).output = s.output := rfl
@[simp] theorem beginExecute_fetched (s : State) (w : Word) (m : MemSys) : (beginExecute s w m).fetched = w := rfl
@[simp] theorem beginExecute_result (s : State) (w : Word) (m : MemSys) : (beginExecute s w m).result = s.result := rfl
@[simp] theorem readReg_beginExecute (s : State) (w : Word) (m : MemSys) (i : RegIndex) :
    (beginExecute s w m).readReg i = s.readReg i := rfl

/-! `advance` (R405, R406). -/

theorem advance_transfer {s : State} (h : s.result = .continued true) :
    advance s = { s with executed := s.executed + 1, branches := s.branches + 1 } := by simp [advance, h]

theorem advance_next {s : State} (h : s.result = .continued false) :
    advance s = { s with pc := s.pc + 4, executed := s.executed + 1 } := by simp [advance, h]

theorem advance_programEnd {s : State} (h : s.result = .programEnd) : advance s = s := by simp [advance, h]

/-- `advance` changes pc, `executed` and `branches` and nothing else. -/
theorem advance_frame (s : State) :
    advance s = { s with pc := (advance s).pc, executed := (advance s).executed, branches := (advance s).branches } := by
  unfold advance; split <;> rfl

end Sys2Proof.Machine
end

