-- ==== Sys2Proof/Laws/Exec.lean ====
section
/-! SUPPORT. What each shared operation of `execute` and `step` can do, said once: if it answers a next state, how that
state came about. Later proofs cite these and unfold none of the meanings. -/

namespace Sys2Proof.Machine

/-- `raise` never answers a next state. -/
theorem raise_ne_next (cause : Cause) (info : Word) (s t : State) : raise cause info s ≠ .next t := by
  intro h; cases cause <;> cases h

theorem raise_ne_refused (cause : Cause) (info : Word) (s : State) (r : Refusal) : raise cause info s ≠ .refused r := by
  intro h; cases cause <;> cases h

/-- What `raise` answers. -/
theorem raise_faults (cause : Cause) (info : Word) (s : State) : faultsFrom (raise cause info s) cause info s := by
  cases cause
  · exact ⟨_, rfl, rfl, rfl⟩
  · exact ⟨_, rfl, rfl, rfl⟩

theorem branchIf_true (imm : BitVec 16) (s : State) : branchIf true imm s = transferTo (branchTarget s.pc imm) s := rfl
theorem branchIf_false (imm : BitVec 16) (s : State) : branchIf false imm s = .next (s.finish false) := rfl

/-- A branch always answers a next state. -/
theorem branchIf_next {taken : Bool} {imm : BitVec 16} {s t : State} (h : branchIf taken imm s = .next t) :
    t = if taken then (s.setPc (branchTarget s.pc imm)).finish true else s.finish false := by
  cases taken <;> (cases h; rfl)

/-- Lw that answers: the word access answered, and the value, the counter and the access's effects are in the state. -/
theorem execLw_next {rt rs : RegIndex} {imm : BitVec 16} {s t : State} (h : execLw rt rs imm s = .next t) :
    ∃ v m, s.msys.readWord s.cfg (effectiveAddress (s.readReg rs) imm) = .done v m ∧
      t = (((s.setMsys m).writeReg rt v).countLoad).finish false := by
  rw [execLw] at h
  cases hr : s.msys.readWord s.cfg (effectiveAddress (s.readReg rs) imm) with
  | done v m => rw [hr] at h; cases h; exact ⟨v, m, rfl, rfl⟩
  | fault a m => rw [hr] at h; exact absurd h (raise_ne_next _ _ _ _)

/-- Sw that answers. -/
theorem execSw_next {rt rs : RegIndex} {imm : BitVec 16} {s t : State} (h : execSw rt rs imm s = .next t) :
    ∃ m, s.msys.writeWord s.cfg (effectiveAddress (s.readReg rs) imm) (s.readReg rt) = .done () m ∧
      t = ((s.setMsys m).countStore).finish false := by
  rw [execSw] at h
  cases hr : s.msys.writeWord s.cfg (effectiveAddress (s.readReg rs) imm) (s.readReg rt) with
  | done v m => rw [hr] at h; cases h; exact ⟨m, rfl, rfl⟩
  | fault a m => rw [hr] at h; exact absurd h (raise_ne_next _ _ _ _)

/-! The string read of syscall 4 (R803). -/

/-- The read answers the bytes exactly when they are the non-zero bytes up to the first NUL, all inside Memory. -/
theorem scanString_ok {mem : Memory} {left a : Nat} {bytes : List Byte} :
    scanString mem left a = .ok bytes ↔
      bytes.length < left ∧ (∀ i (h : i < bytes.length), bytes[i] = mem.read (a + i) ∧ bytes[i] ≠ 0#8) ∧
        mem.read (a + bytes.length) = 0#8 := by
  induction left generalizing a bytes with
  | zero => simp [scanString]
  | succ n ih =>
    by_cases h0 : mem.read a = 0#8
    · simp only [scanString, h0, if_true, Except.ok.injEq]
      constructor
      · rintro rfl; simp [h0]
      · rintro ⟨-, h2, -⟩
        cases bytes with
        | nil => rfl
        | cons b bs => have := h2 0 (by simp); simp [h0] at this
    · simp only [scanString, h0, if_false]
      cases hr : scanString mem n (a + 1) with
      | ok bs =>
        obtain ⟨h1, h2, h3⟩ := ih.1 hr
        simp only [Except.ok.injEq]
        constructor
        · rintro rfl
          refine ⟨by simp; omega, fun i hi => ?_, by rw [List.length_cons, ← h3]; congr 1; omega⟩
          cases i with
          | zero => exact ⟨rfl, h0⟩
          | succ k =>
            have := h2 k (by simpa using hi)
            rw [List.getElem_cons_succ, this.1]
            exact ⟨by congr 1; omega, this.1 ▸ this.2⟩
        · rintro ⟨g1, g2, g3⟩
          cases bytes with
          | nil => exact absurd g3 (by simpa using h0)
          | cons b cs =>
            have hcs : scanString mem n (a + 1) = .ok cs := ih.2 ⟨by simpa using g1, fun i hi => by
              have := g2 (i + 1) (by simpa using hi)
              rw [List.getElem_cons_succ] at this
              exact ⟨this.1.trans (by congr 1; omega), this.2⟩, by rw [← g3, List.length_cons]; congr 1; omega⟩
            have hb := (g2 0 (by simp)).1
            rw [hr] at hcs
            injection hcs with hcs
            rw [hcs]
            simpa using hb.symm
      | error e =>
        constructor
        · intro h; cases h
        · rintro ⟨g1, g2, g3⟩
          exfalso
          cases bytes with
          | nil => exact absurd g3 (by simpa using h0)
          | cons b cs =>
            have hcs : scanString mem n (a + 1) = .ok cs := ih.2 ⟨by simpa using g1, fun i hi => by
              have := g2 (i + 1) (by simpa using hi)
              rw [List.getElem_cons_succ] at this
              exact ⟨this.1.trans (by congr 1; omega), this.2⟩, by rw [← g3, List.length_cons]; congr 1; omega⟩
            rw [hr] at hcs
            cases hcs

/-- The read faults exactly when no NUL lies below the end, and then at the end. -/
theorem scanString_error {mem : Memory} {left a e : Nat} :
    scanString mem left a = .error e ↔ e = a + left ∧ ∀ i, i < left → mem.read (a + i) ≠ 0#8 := by
  induction left generalizing a e with
  | zero => simp [scanString, eq_comm]
  | succ n ih =>
    by_cases h0 : mem.read a = 0#8
    · simp only [scanString, h0, if_true]
      exact ⟨fun h => (by cases h), fun ⟨_, h2⟩ => absurd h0 (h2 0 (by omega))⟩
    · simp only [scanString, h0, if_false]
      have step : (∀ i, i < n + 1 → mem.read (a + i) ≠ 0#8) ↔ ∀ i, i < n → mem.read (a + 1 + i) ≠ 0#8 := by
        constructor
        · intro h i hi
          rw [show a + 1 + i = a + (i + 1) by omega]
          exact h (i + 1) (by omega)
        · intro h i hi
          cases i with
          | zero => exact h0
          | succ k => rw [show a + (k + 1) = a + 1 + k by omega]; exact h k (by omega)
      rw [step]
      cases hr : scanString mem n (a + 1) with
      | ok bs =>
        refine ⟨fun h => (by cases h), fun ⟨_, h2⟩ => ?_⟩
        have := (ih (a := a + 1) (e := a + 1 + n)).2 ⟨rfl, h2⟩
        rw [hr] at this
        cases this
      | error e' =>
        obtain ⟨h1, h2⟩ := (ih (a := a + 1) (e := e')).1 hr
        simp only [Except.error.injEq]
        exact ⟨fun h => ⟨by omega, h2⟩, fun h => by omega⟩

/-- Syscall that answers: one of the four codes (R800 to R805). -/
theorem execSyscall_next {s t : State} (h : execSyscall s = .next t) :
    (s.readReg 2#5 = 1#32 ∧ t = (s.emit (.printInt (s.readReg 4#5).toInt)).finish false) ∨
    (s.readReg 2#5 = 4#32 ∧ ∃ bytes, readString s.cfg s.msys.mem (s.readReg 4#5).toNat = .ok bytes ∧
      t = (s.emit (.printString bytes)).finish false) ∨
    (s.readReg 2#5 = 10#32 ∧ t = s.setResult .programEnd) ∨
    (s.readReg 2#5 = 11#32 ∧ t = (s.emit (.printChar ((s.readReg 4#5).setWidth 8))).finish false) := by
  unfold execSyscall at h
  split at h
  · rename_i hc; cases h; exact .inl ⟨hc, rfl⟩
  · rename_i hc
    refine .inr (.inl ⟨hc, ?_⟩)
    unfold printString at h
    split at h
    · rename_i bytes hb; cases h; exact ⟨bytes, hb, rfl⟩
    · exact absurd h (raise_ne_next _ _ _ _)
  · rename_i hc; cases h; exact .inr (.inr (.inl ⟨hc, rfl⟩))
  · rename_i hc; cases h; exact .inr (.inr (.inr ⟨hc, rfl⟩))
  · exact absurd h (raise_ne_next _ _ _ _)

/-- `complete` answers a next state exactly when the instruction did, and then it is that state advanced. -/
theorem complete_next {o : Host.Outcome State Fault Refusal} {t : State} (h : complete o = .next t) :
    ∃ u, o = .next u ∧ t = advance u := by
  cases o with
  | next u => cases h; exact ⟨u, rfl, rfl⟩
  | fault f => cases h
  | refused r => cases h

/-- A step that answers: the fetch answered, the word decoded to an instruction, the instruction answered, and the next
state is that one advanced (R400). -/
theorem step_next {s t : State} (h : step s = .next t) :
    ∃ w m i u, fetch s = .done w m ∧ decode w = .instr i ∧ exec i (beginExecute s w m) = .next u ∧ t = advance u := by
  unfold step at h
  split at h
  · exact absurd h (raise_ne_next _ _ _ _)
  · rename_i w m hf
    split at h
    · exact absurd h (raise_ne_next _ _ _ _)
    · rename_i i hd
      obtain ⟨u, hu, ht⟩ := complete_next h
      exact ⟨w, m, i, u, hf, hd, hu, ht⟩

end Sys2Proof.Machine
end

