-- ==== Sys2Proof/Laws/Flush.lean ====
section
/-! SUPPORT. One line's part of the cache's flush on a sound cache (spec/20_memory.md R227). -/

namespace Sys2Proof.Machine

/-- Clearing `dirty` in a line that agrees with Memory keeps the cache sound and changes no read. -/
theorem clearDirty_spec {c : Config} {m : MemSys} (h : MemOk c m) {s : Fin 64} {w : Fin 4}
    (hmem : (m.cache.line s w).valid = true → ∀ i : Fin 32,
      m.mem.read (lineBase (m.cache.line s w).tag s + i.val) = (m.cache.line s w).data[i.val]) :
    MemOk c (m.putLine s w { m.cache.line s w with dirty := false }) ∧
    ∀ a, (m.putLine s w { m.cache.line s w with dirty := false }).peek a = m.peek a := by
  have hline : ∀ s' w', (m.putLine s w { m.cache.line s w with dirty := false }).cache.line s' w' =
      if s' = s ∧ w' = w then { m.cache.line s' w' with dirty := false } else m.cache.line s' w' := by
    intro s' w'
    rw [putLine_line]
    split
    · rename_i hx; obtain ⟨rfl, rfl⟩ := hx; rfl
    · rfl
  have hac : (m.putLine s w { m.cache.line s w with dirty := false }).cache.accessCounter = m.cache.accessCounter := rfl
  have hmem' : (m.putLine s w { m.cache.line s w with dirty := false }).mem = m.mem := rfl
  generalize m.putLine s w { m.cache.line s w with dirty := false } = m' at *
  have e1 : ∀ s' w', (m'.cache.line s' w').valid = (m.cache.line s' w').valid := by
    intro s' w'; rw [hline]; split <;> rfl
  have e2 : ∀ s' w', (m'.cache.line s' w').tag = (m.cache.line s' w').tag := by
    intro s' w'; rw [hline]; split <;> rfl
  have e3 : ∀ s' w', (m'.cache.line s' w').data = (m.cache.line s' w').data := by
    intro s' w'; rw [hline]; split <;> rfl
  have e4 : ∀ s' w', (m'.cache.line s' w').ts = (m.cache.line s' w').ts := by
    intro s' w'; rw [hline]; split <;> rfl
  refine ⟨⟨h.cfg, hmem' ▸ h.memWf, hmem' ▸ h.memInside, fun s' w' => ⟨fun hv => ?_, ?_, ?_, fun hv hd i => ?_⟩,
    fun s' => ⟨?_, ?_⟩⟩, fun a => ?_⟩
  · rw [e1] at hv
    rw [e3]
    refine ⟨?_, ((h.lines s' w').fresh hv).2⟩
    rw [hline]
    split
    · rfl
    · exact ((h.lines s' w').fresh hv).1
  · rw [e1, e2]; exact (h.lines s' w').inside
  · rw [e1, e4, hac]; exact (h.lines s' w').stamped
  · rw [e1] at hv
    simp only [e3, e2, hmem']
    by_cases hx : s' = s ∧ w' = w
    · obtain ⟨rfl, rfl⟩ := hx; exact (hmem hv i).symm
    · rw [hline, if_neg hx] at hd; exact (h.lines s' w').clean hv hd i
  · simp only [e1, e2, e4]; exact (h.sets s').distinct
  · simp only [e1]; exact (h.sets s').filled
  · have : m'.cache.lookup (setIndex a) (tagOf a) = m.cache.lookup (setIndex a) (tagOf a) :=
      lookup_congr fun w' => ⟨e1 _ _, e2 _ _⟩
    simp only [MemSys.peek, this, e3, hmem']

/-- One line's part of `flush` on a sound cache: it answers, only that line's `dirty` changes, a write-back is counted
only for a dirty line and under `FLUSH_COUNTS_WB`, and no read sees a difference. -/
theorem flushLine_spec {c : Config} {m : MemSys} (h : MemOk c m) (s : Fin 64) (w : Fin 4) :
    ∃ m', m.flushLine c s w = .done () m' ∧ MemOk c m' ∧
      (∀ s' w', m'.cache.line s' w' =
        if s' = s ∧ w' = w then { m.cache.line s' w' with dirty := false } else m.cache.line s' w') ∧
      m'.cache.accessCounter = m.cache.accessCounter ∧ m'.cache.hits = m.cache.hits ∧
      m'.cache.misses = m.cache.misses ∧
      m'.cache.writebacks = m.cache.writebacks + (if c.flushCountsWb = true then
        (if (m.cache.line s w).valid && (m.cache.line s w).dirty then 1 else 0) else 0) ∧
      ∀ a, m'.peek a = m.peek a := by
  obtain ⟨m1, hev, hok, hline, hac, hh, hmi, hwb, -, hold, hpk⟩ := evict_spec h s w
  by_cases hd : ((m.cache.line s w).valid && (m.cache.line s w).dirty) = true
  · obtain ⟨hv, -⟩ := Bool.and_eq_true_iff.1 hd
    rw [MemSys.evict, if_pos hd] at hev
    cases hb : m.writeBack c s (m.cache.line s w) with
    | fault a m2 => rw [hb] at hev; cases hev
    | done u m2 =>
      rw [hb] at hev
      simp only [andThen_done, Access.done.injEq, true_and] at hev
      subst hev
      have hline2 : ∀ s' w', m2.cache.line s' w' = m.cache.line s' w' := hline
      have hok2 : MemOk c m2 := hok.of_same_lines (fun _ _ => rfl) rfl (Nat.le_refl _)
      obtain ⟨pok, ppk⟩ := clearDirty_spec hok2 (s := s) (w := w) (fun _ i => by simp only [hline2]; exact hold hv i)
      have pline : ∀ s' w', (m2.putLine s w { m2.cache.line s w with dirty := false }).cache.line s' w' =
          if s' = s ∧ w' = w then { m.cache.line s' w' with dirty := false } else m.cache.line s' w' := by
        intro s' w'
        rw [putLine_line]
        split
        · rename_i hx; obtain ⟨rfl, rfl⟩ := hx; rw [hline2]
        · exact hline2 _ _
      have pwb : m2.cache.writebacks = m.cache.writebacks := by simp [hd] at hwb; omega
      refine ⟨if c.flushCountsWb then (m2.putLine s w { m2.cache.line s w with dirty := false }).countWriteback
        else m2.putLine s w { m2.cache.line s w with dirty := false }, ?_, ?_⟩
      · rw [MemSys.flushLine, if_pos hd, hb]; rfl
      · cases c.flushCountsWb
        · simp only [Bool.false_eq_true, if_false]
          exact ⟨pok, pline, hac, hh, hmi, pwb, fun a => (ppk a).trans (hpk a)⟩
        · simp only [if_true]
          refine ⟨pok.of_same_lines (fun _ _ => rfl) rfl (Nat.le_refl _), pline, hac, hh, hmi, by simp [pwb, hd],
            fun a => Eq.trans ?_ ((ppk a).trans (hpk a))⟩
          exact peek_of_same_lines (fun _ _ => rfl) rfl a
  · refine ⟨m, by rw [MemSys.flushLine, if_neg hd], h, fun s' w' => ?_, rfl, rfl, rfl, by simp [hd], fun _ => rfl⟩
    split
    · rename_i hx
      obtain ⟨rfl, rfl⟩ := hx
      have : (m.cache.line s' w').dirty = false := by
        cases hv : (m.cache.line s' w').valid
        · exact ((h.lines s' w').fresh hv).1
        · simpa [hv] using hd
      rw [← this]
    · rfl

end Sys2Proof.Machine
end

