-- ==== Sys2Proof/Laws/PerInstr.lean ====
section
/-! SUPPORT. Statements about every instruction as syntax, one lemma per constructor. -/

namespace Sys2Proof.Laws

/-- The encoder puts an instruction on its own row of spec/opcode_table.json: the bits the row fixes have the row's
values (spec/30_encoding.md R310). -/
def RowBits.Statement (i : Instr) : Prop := encode i &&& rowMask i = rowMatch i

theorem RowBits.add (rd : RegIndex) (rs : RegIndex) (rt : RegIndex) : RowBits.Statement (.add rd rs rt) :=
  encodeR_mask rs rt rd 0 0x20#6

theorem RowBits.sub (rd : RegIndex) (rs : RegIndex) (rt : RegIndex) : RowBits.Statement (.sub rd rs rt) :=
  encodeR_mask rs rt rd 0 0x22#6

theorem RowBits.and (rd : RegIndex) (rs : RegIndex) (rt : RegIndex) : RowBits.Statement (.and rd rs rt) :=
  encodeR_mask rs rt rd 0 0x24#6

theorem RowBits.or (rd : RegIndex) (rs : RegIndex) (rt : RegIndex) : RowBits.Statement (.or rd rs rt) :=
  encodeR_mask rs rt rd 0 0x25#6

theorem RowBits.slt (rd : RegIndex) (rs : RegIndex) (rt : RegIndex) : RowBits.Statement (.slt rd rs rt) :=
  encodeR_mask rs rt rd 0 0x2A#6

theorem RowBits.sll (rd : RegIndex) (rt : RegIndex) (shamt : BitVec 5) : RowBits.Statement (.sll rd rt shamt) :=
  encodeR_mask 0 rt rd shamt 0x00#6

theorem RowBits.srl (rd : RegIndex) (rt : RegIndex) (shamt : BitVec 5) : RowBits.Statement (.srl rd rt shamt) :=
  encodeR_mask 0 rt rd shamt 0x02#6

theorem RowBits.jr (rs : RegIndex) : RowBits.Statement (.jr rs) :=
  encodeR_mask rs 0 0 0 0x08#6

theorem RowBits.syscall : RowBits.Statement (.syscall) :=
  encodeR_mask 0 0 0 0 0x0C#6

theorem RowBits.addi (rt : RegIndex) (rs : RegIndex) (imm : BitVec 16) : RowBits.Statement (.addi rt rs imm) :=
  encodeI_mask 0x08#6 rs rt imm

theorem RowBits.slti (rt : RegIndex) (rs : RegIndex) (imm : BitVec 16) : RowBits.Statement (.slti rt rs imm) :=
  encodeI_mask 0x0A#6 rs rt imm

theorem RowBits.lw (rt : RegIndex) (rs : RegIndex) (imm : BitVec 16) : RowBits.Statement (.lw rt rs imm) :=
  encodeI_mask 0x23#6 rs rt imm

theorem RowBits.sw (rt : RegIndex) (rs : RegIndex) (imm : BitVec 16) : RowBits.Statement (.sw rt rs imm) :=
  encodeI_mask 0x2B#6 rs rt imm

theorem RowBits.beq (rs : RegIndex) (rt : RegIndex) (imm : BitVec 16) : RowBits.Statement (.beq rs rt imm) :=
  encodeI_mask 0x04#6 rs rt imm

theorem RowBits.bne (rs : RegIndex) (rt : RegIndex) (imm : BitVec 16) : RowBits.Statement (.bne rs rt imm) :=
  encodeI_mask 0x05#6 rs rt imm

theorem RowBits.j (target : BitVec 26) : RowBits.Statement (.j target) :=
  encodeJ_mask 0x02#6 target

theorem RowBits.jal (target : BitVec 26) : RowBits.Statement (.jal target) :=
  encodeJ_mask 0x03#6 target

end Sys2Proof.Laws
end

