-- ==== Sys2Proof/Laws/Place.lean ====
section
/-! SUPPORT. A byte placed from outside the machine (notes/assumptions/8.md) on a sound cache. -/

namespace Sys2Proof.Machine

/-- Placing a byte inside Memory keeps the cache sound, makes every later read of the address give the byte, and leaves
every other read as it was. -/
theorem place_spec {c : Config} {m : MemSys} (h : MemOk c m) {a : Word} (ha : a.toNat < c.memSize) (b : Byte) :
    MemOk c (m.place a b) ∧ ∀ x, (m.place a b).peek x = if x = a then b else m.peek x := by
  have hmem := Memory.read_write h.memWf a.toNat (v := b)
  have hwf := Memory.wf_write h.memWf a.toNat b
  have hin : ∀ p ∈ Memory.write m.mem a.toNat b, p.1 < c.memSize := fun p hp => by
    rcases Memory.mem_write hp with hp | ⟨rfl, -⟩
    · exact h.memInside p hp
    · exact ha
  have tn : ∀ x : Word, x.toNat = a.toNat ↔ x = a := fun x => ⟨BitVec.eq_of_toNat_eq, fun h => by rw [h]⟩
  have hblock : ∀ (s : Fin 64) (w : Fin 4) (i : Fin 32), lineBase (m.cache.line s w).tag s + i.val = a.toNat →
      (m.cache.line s w).tag = tagOf a ∧ s = setIndex a ∧ i.val = (offsetOf a).val := fun s w i he =>
    lineBase_inj i.isLt (offsetOf a).isLt (he.trans (address_eq a))
  unfold MemSys.place
  cases hl : m.cache.lookup (setIndex a) (tagOf a) with
  | none =>
    refine ⟨⟨h.cfg, hwf, hin, fun s w => ⟨(h.lines s w).fresh, (h.lines s w).inside, (h.lines s w).stamped,
      fun hv hd i => ?_⟩, fun s => ⟨(h.sets s).distinct, (h.sets s).filled⟩⟩, fun x => ?_⟩
    · refine ((h.lines s w).clean hv hd i).trans ((hmem _).trans (if_neg fun he => ?_)).symm
      obtain ⟨h1, h2, -⟩ := hblock s w i he
      subst h2
      exact lookup_none hl w hv h1
    · simp only [MemSys.peek]
      cases hx : m.cache.lookup (setIndex x) (tagOf x) with
      | none => simp only [hmem, tn]
      | some w =>
        have : x ≠ a := by rintro rfl; rw [hl] at hx; cases hx
        simp [this]
  | some w0 =>
    obtain ⟨hv0, ht0⟩ := lookup_some hl
    dsimp only
    have e : ∀ s w, ((m.cache.setLine (setIndex a) w0 { m.cache.line (setIndex a) w0 with
        data := (m.cache.line (setIndex a) w0).data.set (offsetOf a).val b }).line s w) =
        if s = setIndex a ∧ w = w0 then
          { m.cache.line s w with data := (m.cache.line s w).data.set (offsetOf a).val b }
        else m.cache.line s w := by
      intro s w
      rw [setLine_line]
      split
      · rename_i hx; obtain ⟨rfl, rfl⟩ := hx; rfl
      · rfl
    have hac : (m.cache.setLine (setIndex a) w0 { m.cache.line (setIndex a) w0 with
        data := (m.cache.line (setIndex a) w0).data.set (offsetOf a).val b }).accessCounter
        = m.cache.accessCounter := rfl
    generalize m.cache.setLine (setIndex a) w0 { m.cache.line (setIndex a) w0 with
        data := (m.cache.line (setIndex a) w0).data.set (offsetOf a).val b } = k at *
    have e1 : ∀ s w, (k.line s w).valid = (m.cache.line s w).valid := by intro s w; rw [e]; split <;> rfl
    have e2 : ∀ s w, (k.line s w).tag = (m.cache.line s w).tag := by intro s w; rw [e]; split <;> rfl
    have e3 : ∀ s w, (k.line s w).ts = (m.cache.line s w).ts := by intro s w; rw [e]; split <;> rfl
    have e4 : ∀ s w, (k.line s w).dirty = (m.cache.line s w).dirty := by intro s w; rw [e]; split <;> rfl
    refine ⟨⟨h.cfg, hwf, hin, fun s w => ⟨fun hv => ?_, ?_, ?_, fun hv hd i => ?_⟩, fun s => ⟨?_, ?_⟩⟩, fun x => ?_⟩
    · dsimp only at hv ⊢
      rw [e1] at hv
      rw [e, if_neg]
      · exact (h.lines s w).fresh hv
      · rintro ⟨rfl, rfl⟩; rw [hv0] at hv; cases hv
    · dsimp only; rw [e1, e2]; exact (h.lines s w).inside
    · dsimp only; rw [e1, e3, hac]; exact (h.lines s w).stamped
    · dsimp only at hv hd ⊢
      rw [e1] at hv
      rw [e4] at hd
      have hclean := (h.lines s w).clean hv hd i
      rw [hmem]
      simp only [e2]
      by_cases hx : s = setIndex a ∧ w = w0
      · obtain ⟨rfl, rfl⟩ := hx
        simp only [e, and_self, if_true]
        rw [address_eq a]
        simp only [ht0] at hclean ⊢
        rw [Vector.getElem_set]
        by_cases hi : (offsetOf a).val = i.val
        · simp [hi]
        · rw [if_neg hi]; exact hclean.trans (if_neg (by omega)).symm
      · simp only [e, hx, if_false]
        refine hclean.trans (if_neg fun he => ?_).symm
        obtain ⟨h1, h2, -⟩ := hblock s w i he
        subst h2
        exact ((h.sets _).distinct w w0 (fun e => hx ⟨rfl, e⟩) hv hv0).1 (by rw [h1, ht0])
    · simp only [e1, e2, e3]; exact (h.sets s).distinct
    · simp only [e1]; exact (h.sets s).filled
    · have hlk : k.lookup (setIndex x) (tagOf x) = m.cache.lookup (setIndex x) (tagOf x) :=
        lookup_congr fun w => ⟨e1 _ _, e2 _ _⟩
      simp only [MemSys.peek, hlk]
      cases hx : m.cache.lookup (setIndex x) (tagOf x) with
      | none =>
        have : x ≠ a := by rintro rfl; rw [hl] at hx; cases hx
        simp only [hmem, tn]
      | some w =>
        dsimp only
        by_cases hxa : x = a
        · subst hxa
          rw [hl] at hx; cases hx
          simp [e]
        · rw [if_neg hxa]
          by_cases hq : setIndex x = setIndex a ∧ w = w0
          · simp only [e, hq, and_self, if_true]
            have : tagOf x = tagOf a := by
              have := (lookup_some hx).2
              rw [hq.1, hq.2, ht0] at this
              exact this.symm
            rw [Vector.getElem_set_ne _ _ (offset_ne hq.1 this hxa)]
          · simp only [e, hq, if_false]

end Sys2Proof.Machine
end

