-- ==== Sys2Proof/Laws/WordOps.lean ====
section
/-! SUPPORT. The word accesses on a sound cache, each from four byte accesses (spec/20_memory.md R224 to R226). -/

namespace Sys2Proof.Machine

/-- One line, by its index or by set and tag (R210). -/
theorem same_line_iff (x a : Word) :
    (setIndex x = setIndex a ∧ tagOf x = tagOf a) ↔ x.toNat / 32 = a.toNat / 32 := by
  simp only [setIndex, tagOf, Fin.mk.injEq]
  constructor
  · rintro ⟨h1, h2⟩; omega
  · intro h; rw [h]; exact ⟨rfl, rfl⟩

/-! What an access uses of the cache depends on its line alone, and on the lines of its set. -/

theorem absent_congr {m : MemSys} {a b : Word} (h : a.toNat / 32 = b.toNat / 32) : absent m a = absent m b := by
  obtain ⟨hs, ht⟩ := (same_line_iff a b).2 h
  simp only [absent, hs, ht]

theorem wayOf_congr {m : MemSys} {a b : Word} (h : a.toNat / 32 = b.toNat / 32) : wayOf m a = wayOf m b := by
  obtain ⟨hs, ht⟩ := (same_line_iff a b).2 h
  simp only [wayOf, hs, ht]

theorem evictsDirty_congr {m : MemSys} {a b : Word} (h : a.toNat / 32 = b.toNat / 32) :
    evictsDirty m a = evictsDirty m b := by
  rw [evictsDirty, evictsDirty, absent_congr h, ((same_line_iff a b).2 h).1]

theorem writtenBack_congr {m : MemSys} {a b : Word} (h : a.toNat / 32 = b.toNat / 32) (x : Nat) :
    writtenBack m a x = writtenBack m b x := by
  have hs := ((same_line_iff a b).2 h).1
  have hd : evictsDirty m a = evictsDirty m b := evictsDirty_congr h
  unfold writtenBack
  simp only [hs, hd]

theorem perLine_congr {a b b' : Word} (h : b.toNat / 32 = b'.toNat / 32) (f : Word → Bool)
    (hf : f b = f b') : perLine a b f = perLine a b' f := by simp only [perLine, h, hf]

/-- Two caches with the same lines in the set of `y` give an access to `y` the same lookup, victim and way. -/
theorem access_congr {m m' : MemSys} {y : Word}
    (h : ∀ w, m'.cache.line (setIndex y) w = m.cache.line (setIndex y) w) :
    absent m' y = absent m y ∧ wayOf m' y = wayOf m y ∧ evictsDirty m' y = evictsDirty m y ∧
    ∀ x, writtenBack m' y x = writtenBack m y x := by
  have hl : m'.cache.lookup (setIndex y) (tagOf y) = m.cache.lookup (setIndex y) (tagOf y) :=
    lookup_congr fun w => by simp [h]
  have hv : m'.cache.victim (setIndex y) = m.cache.victim (setIndex y) := victim_congr fun w => by simp [h]
  have hvl : victimLine m' (setIndex y) = victimLine m (setIndex y) := by simp only [victimLine, hv, h]
  have ha : absent m' y = absent m y := by simp only [absent, hl]
  have hd : evictsDirty m' y = evictsDirty m y := by simp only [evictsDirty, ha, hvl]
  exact ⟨ha, by simp only [wayOf, hl, hv], hd, fun x => by unfold writtenBack; simp only [hd, hvl]⟩

theorem evictsDirty_le_absent (m : MemSys) (a : Word) : (evictsDirty m a).toNat ≤ (absent m a).toNat := by
  cases h : absent m a
  · rw [evictsDirty_of_present h]
  · exact Bool.toNat_le _

/-- After `n` byte accesses to the line of `a` and then to the line of `b`: their effects, a sound cache, and the line of
`b` in the way it uses. -/
structure Span (c : Config) (m m' : MemSys) (n : Nat) (a b : Word) : Prop extends SpanEffects m m' n a b where
  ok : MemOk c m'
  way : m'.cache.lookup (setIndex b) (tagOf b) = some (wayOf m b)

/-- One byte access is a span. -/
theorem ByteAccess.span {c : Config} {a : Word} {m m' : MemSys} (h : ByteAccess c a m m') : Span c m m' 1 a a where
  accessCounter := h.accessCounter
  hits := by simpa [perLine] using h.hits
  misses := by simpa [perLine] using h.misses
  writebacks := by simpa [perLine] using h.writebacks
  memKept hd _ := h.memKept hd
  memory x := by rw [h.memory]; cases writtenBack m a x <;> rfl
  lines s w h1 _ := h.frame s w h1
  ok := h.ok
  way := h.way

/-- A span's last address may be any address of its last line. -/
theorem Span.moveEnd {c : Config} {m m' : MemSys} {n : Nat} {a b b' : Word} (h : Span c m m' n a b)
    (hb : b.toNat / 32 = b'.toNat / 32) : Span c m m' n a b' := by
  obtain ⟨hs, ht⟩ := (same_line_iff b b').2 hb
  exact {
    accessCounter := h.accessCounter
    hits := by rw [← perLine_congr hb _ (absent_congr hb)]; exact h.hits
    misses := by rw [← perLine_congr hb _ (absent_congr hb)]; exact h.misses
    writebacks := by rw [← perLine_congr hb _ (evictsDirty_congr hb)]; exact h.writebacks
    memKept := by rw [← evictsDirty_congr hb]; exact h.memKept
    memory := fun x => by rw [← writtenBack_congr hb]; exact h.memory x
    lines := by rw [← wayOf_congr hb, ← hs]; exact h.lines
    ok := h.ok
    way := by rw [← wayOf_congr hb, ← hs, ← ht]; exact h.way }

/-- A further access to the last line hits it. -/
theorem Span.again {c : Config} {m m1 m2 : MemSys} {n : Nat} {a b : Word} (h : Span c m m1 n a b)
    (hb : ByteAccess c b m1 m2) : Span c m m2 (n + 1) a b := by
  have habs := absent_hit h.way
  have hne := evictsDirty_of_present habs
  have hw : wayOf m1 b = wayOf m b := wayOf_hit h.way
  have h1 := hb.accessCounter; have h2 := hb.hits; have h3 := hb.misses; have h4 := hb.writebacks
  rw [habs] at h2 h3
  rw [hne] at h4
  have hmem := hb.memKept hne
  exact {
    accessCounter := by rw [h1, h.accessCounter]; omega
    hits := by have := h.hits; simp only [Bool.toNat_false] at h2; omega
    misses := by simpa [h3] using h.misses
    writebacks := by simpa [h4] using h.writebacks
    memKept := fun da db => hmem.trans (h.memKept da db)
    memory := fun x => by rw [hmem]; exact h.memory x
    lines := fun s w n1 n2 => (hb.frame s w (by rwa [hw])).trans (h.lines s w n1 n2)
    ok := hb.ok
    way := by rw [hb.way, hw] }

/-- A first access to a line of another set, after accesses to the line of `a`. -/
theorem Span.next {c : Config} {m m1 m2 : MemSys} {n : Nat} {a b : Word} (h : Span c m m1 n a a)
    (hset : setIndex b ≠ setIndex a) (hb : ByteAccess c b m1 m2) : Span c m m2 (n + 1) a b := by
  obtain ⟨habs, hway, hdirty, hwb⟩ := access_congr (m := m) (m' := m1) (y := b)
    (fun w => h.lines _ w (fun e => hset e.1) fun e => hset e.1)
  have hline : a.toNat / 32 ≠ b.toNat / 32 := fun e => hset ((same_line_iff b a).2 e.symm).1
  have h1 := hb.accessCounter; have h2 := hb.hits; have h3 := hb.misses; have h4 := hb.writebacks
  rw [habs] at h2 h3
  rw [hdirty] at h4
  have g2 := h.hits; have g3 := h.misses; have g4 := h.writebacks
  simp only [perLine, if_true] at g2 g3 g4
  exact {
    accessCounter := by rw [h1, h.accessCounter]; omega
    hits := by rw [perLine, if_neg hline]; omega
    misses := by rw [perLine, if_neg hline]; omega
    writebacks := by rw [perLine, if_neg hline]; omega
    memKept := fun da db => (hb.memKept (hdirty.trans db)).trans (h.memKept da da)
    memory := fun x => by
      rw [hb.memory, hwb, h.memory]
      cases writtenBack m a x <;> rfl
    lines := fun s w n1 n2 => (hb.frame s w (by rwa [hway])).trans (h.lines s w n1 n1)
    ok := hb.ok
    way := by rw [hb.way, hway] }

/-- The next address of a word: in the last line, or, when only the first line was used so far, in the next set. -/
theorem Span.step {c : Config} {m m1 m2 : MemSys} {n : Nat} {a b y : Word} (h : Span c m m1 n a b)
    (hy : b.toNat / 32 = y.toNat / 32 ∨ (b.toNat / 32 = a.toNat / 32 ∧ setIndex y ≠ setIndex a))
    (hb : ByteAccess c y m1 m2) : Span c m m2 (n + 1) a y := by
  rcases hy with hy | ⟨hy, hset⟩
  · exact (h.moveEnd hy).again hb
  · exact (h.moveEnd hy).next hset hb

/-- What every admitted word access does besides answering: `WordEffects`, and the cache stays sound (R224 to R226). -/
structure WordAccess (c : Config) (a : Word) (m m' : MemSys) : Prop extends WordEffects m m' a where
  ok : MemOk c m'

theorem perLine_le (a b : Word) (f : Word → Bool) : perLine a b f ≤ 2 := by
  have := Bool.toNat_le (f a); have := Bool.toNat_le (f b)
  unfold perLine; split <;> omega

theorem perLine_mono (a b : Word) {f g : Word → Bool} (h : ∀ x, (f x).toNat ≤ (g x).toNat) :
    perLine a b f ≤ perLine a b g := by
  have := h a; have := h b
  unfold perLine; split <;> omega

/-- The sums that follow from the effects of a word access: each access is a hit or a miss, no counter falls, and no more
write-backs than misses (R112, R213, R228). -/
theorem WordAccess.counts {c : Config} {a : Word} {m m' : MemSys} (h : WordAccess c a m m') :
    m'.cache.hits + m'.cache.misses = m.cache.hits + m.cache.misses + 4 ∧ m.cache.hits ≤ m'.cache.hits ∧
    m.cache.misses ≤ m'.cache.misses ∧ m.cache.writebacks ≤ m'.cache.writebacks ∧
    m'.cache.writebacks + m.cache.misses ≤ m.cache.writebacks + m'.cache.misses := by
  have h1 := h.hits; have h2 := h.misses; have h3 := h.writebacks
  have h4 := perLine_le a (a + 3) (absent m)
  have h5 := perLine_mono a (a + 3) (evictsDirty_le_absent m)
  omega

/-- The three higher addresses of a word inside Memory. -/
theorem word_addresses {c : Config} (h : c.wellFormed) {a : Word} (ha : a.toNat + 3 < c.memSize) :
    (a + 1).toNat = a.toNat + 1 ∧ (a + 2).toNat = a.toNat + 2 ∧ (a + 3).toNat = a.toNat + 3 :=
  ⟨toNat_add_small h ha (i := 1) (by omega), toNat_add_small h ha (i := 2) (by omega),
    toNat_add_small h ha (i := 3) (by omega)⟩

/-- Addresses less than a line apart are in one line or in two sets. -/
theorem line_or_set {x y : Word} (h1 : x.toNat ≤ y.toNat + 3) (h2 : y.toNat ≤ x.toNat + 3) :
    x.toNat / 32 = y.toNat / 32 ∨ setIndex x ≠ setIndex y := by
  by_cases hxy : x.toNat / 32 = y.toNat / 32
  · exact .inl hxy
  · refine .inr fun he => ?_
    have := congrArg Fin.val he
    simp only [setIndex] at this
    omega

/-- The four byte accesses of a word, in ascending order. -/
theorem WordAccess.of_bytes {c : Config} (hc : c.wellFormed) {a : Word} (ha : a.toNat + 3 < c.memSize)
    {m m0 m1 m2 m3 : MemSys} (h0 : ByteAccess c a m m0) (h1 : ByteAccess c (a + 1) m0 m1)
    (h2 : ByteAccess c (a + 2) m1 m2) (h3 : ByteAccess c (a + 3) m2 m3) : WordAccess c a m m3 := by
  obtain ⟨a1, a2, a3⟩ := word_addresses hc ha
  have next : ∀ x y : Word, a.toNat ≤ x.toNat → y.toNat = x.toNat + 1 → y.toNat ≤ a.toNat + 3 →
      x.toNat / 32 = y.toNat / 32 ∨ (x.toNat / 32 = a.toNat / 32 ∧ setIndex y ≠ setIndex a) := by
    intro x y g1 g2 g3
    by_cases hxy : x.toNat / 32 = y.toNat / 32
    · exact .inl hxy
    · exact .inr ⟨by omega, (line_or_set (x := y) (y := a) (by omega) (by omega)).resolve_left (by omega)⟩
  have t := ((h0.span.step (next a (a + 1) (by omega) (by omega) (by omega)) h1).step
    (next (a + 1) (a + 2) (by omega) (by omega) (by omega)) h2).step
    (next (a + 2) (a + 3) (by omega) (by omega) (by omega)) h3
  exact { t.toSpanEffects with ok := h3.ok }

/-- `read_word` on a sound cache, inside Memory: it answers the word the view shows, and no read sees a difference. -/
theorem readWord_spec {c : Config} {m : MemSys} (h : MemOk c m) {a : Word} (ha : a.toNat + 3 < c.memSize) :
    ∃ m', m.readWord c a = .done (m.peekWord a) m' ∧ WordAccess c a m m' ∧ ∀ x, m'.peek x = m.peek x := by
  obtain ⟨a1, a2, a3⟩ := word_addresses h.cfg ha
  obtain ⟨m0, e0, b0, p0⟩ := readByte_spec h (a := a) (by omega)
  obtain ⟨m1, e1, b1, p1⟩ := readByte_spec b0.ok (a := a + 1) (by omega)
  obtain ⟨m2, e2, b2, p2⟩ := readByte_spec b1.ok (a := a + 2) (by omega)
  obtain ⟨m3, e3, b3, p3⟩ := readByte_spec b2.ok (a := a + 3) (by omega)
  refine ⟨m3, ?_, .of_bytes h.cfg ha b0 b1 b2 b3, fun x => by rw [p3, p2, p1, p0]⟩
  rw [MemSys.readWord, if_neg (by omega), e0, andThen_done, e1, andThen_done, e2, andThen_done, e3, andThen_done]
  simp only [MemSys.peekWord, p0, p1, p2]

/-- After a byte access the bytes of its line are present, so a further write to the line leaves them alone. -/
theorem staleByte_same_line {c : Config} {a x : Word} {m m' : MemSys} (h : ByteAccess c a m m')
    (hx : x.toNat / 32 = a.toNat / 32) : staleByte c m' x = m'.peek x := by
  obtain ⟨hs, ht⟩ := (same_line_iff x a).2 hx
  exact staleByte_present (w := wayOf m a) (by rw [hs, ht]; exact h.way)

/-- A byte access to another set changes nothing that a later write miss would leave. -/
theorem staleByte_other_set {c : Config} {a x : Word} {m m' : MemSys} (h : ByteAccess c a m m')
    (hx : setIndex x ≠ setIndex a) (hpeek : m'.peek x = m.peek x) : staleByte c m' x = staleByte c m x := by
  have hline : ∀ w, m'.cache.line (setIndex x) w = m.cache.line (setIndex x) w := h.otherSets _ hx
  have hl : m'.cache.lookup (setIndex x) (tagOf x) = m.cache.lookup (setIndex x) (tagOf x) :=
    lookup_congr fun w => by simp [hline]
  have hv : m'.cache.victim (setIndex x) = m.cache.victim (setIndex x) := victim_congr fun w => by simp [hline]
  simp only [staleByte, hl, hv, hline, hpeek]

/-- Putting one byte write before a run of writes whose effect is known. `st` says what the later writes stored and `L`
which lines they touch; each such line is the first write's line or lies in another set. -/
theorem store_before {c : Config} {a : Word} {b : Byte} {m m0 m' : MemSys} (hacc : ByteAccess c a m m0)
    (hpeek : ∀ x, m0.peek x = if x = a then b
      else if setIndex x = setIndex a ∧ tagOf x = tagOf a then staleByte c m x else m.peek x)
    (st : Word → Option Byte) (L : Word → Prop) [DecidablePred L]
    (hL : ∀ x, L x → x.toNat / 32 = a.toNat / 32 ∨ setIndex x ≠ setIndex a)
    (hrest : ∀ x, m'.peek x = match st x with
      | some v => v
      | none => if L x then staleByte c m0 x else m0.peek x) (x : Word) :
    m'.peek x = match st x with
      | some v => v
      | none => if x = a then b
        else if x.toNat / 32 = a.toNat / 32 ∨ L x then staleByte c m x else m.peek x := by
  have hp : m0.peek x = if x = a then b
      else if x.toNat / 32 = a.toNat / 32 then staleByte c m x else m.peek x := by
    rw [hpeek]; simp only [same_line_iff]
  rw [hrest]
  cases st x with
  | some v => rfl
  | none =>
    by_cases hline : x.toNat / 32 = a.toNat / 32
    · have hp' : m0.peek x = if x = a then b else staleByte c m x := by rw [hp]; simp only [hline, if_true]
      have : staleByte c m0 x = m0.peek x := staleByte_same_line hacc hline
      simp only [this, hp', hline, true_or, if_true, ite_self]
    · have hxa : x ≠ a := fun e => hline (by rw [e])
      have hp' : m0.peek x = m.peek x := by rw [hp, if_neg hxa, if_neg hline]
      by_cases hLx : L x
      · have hs := (hL x hLx).resolve_left hline
        simp only [hLx, if_true, hxa, if_false, or_true, staleByte_other_set hacc hs hp']
      · simp only [hLx, hxa, hline, or_self, if_false, hp']

/-- `write_word` on a sound cache, inside Memory: it answers, and every later read sees `byteAfterStore` (R222, R223,
R225). -/
theorem writeWord_spec {c : Config} {m : MemSys} (h : MemOk c m) {a : Word} (ha : a.toNat + 3 < c.memSize) (v : Word) :
    ∃ m', m.writeWord c a v = .done () m' ∧ WordAccess c a m m' ∧ ∀ x, m'.peek x = byteAfterStore c m a v x := by
  obtain ⟨a1, a2, a3⟩ := word_addresses h.cfg ha
  obtain ⟨m0, e0, b0, p0⟩ := writeByte_spec h (a := a) (by omega) (byteOf v 0)
  obtain ⟨m1, e1, b1, p1⟩ := writeByte_spec b0.ok (a := a + 1) (by omega) (byteOf v 1)
  obtain ⟨m2, e2, b2, p2⟩ := writeByte_spec b1.ok (a := a + 2) (by omega) (byteOf v 2)
  obtain ⟨m3, e3, b3, p3⟩ := writeByte_spec b2.ok (a := a + 3) (by omega) (byteOf v 3)
  refine ⟨m3, ?_, .of_bytes h.cfg ha b0 b1 b2 b3, fun x => ?_⟩
  · rw [MemSys.writeWord, if_neg (by omega), e0, andThen_done, e1, andThen_done, e2, andThen_done, e3]
  · have lines : ∀ (x y z : Word), x.toNat / 32 = y.toNat / 32 → a.toNat ≤ y.toNat → y.toNat ≤ a.toNat + 3 →
        a.toNat ≤ z.toNat → z.toNat ≤ a.toNat + 3 → x.toNat / 32 = z.toNat / 32 ∨ setIndex x ≠ setIndex z := by
      intro x y z hxy h1 h2 h3 h4
      rcases line_or_set (x := y) (y := z) (by omega) (by omega) with hyz | hyz
      · exact .inl (hxy.trans hyz)
      · exact .inr (by rwa [((same_line_iff x y).2 hxy).1])
    have q3 : ∀ x, m3.peek x = match (if x = a + 3 then some (byteOf v 3) else none) with
        | some b => b
        | none => if x.toNat / 32 = (a + 3).toNat / 32 then staleByte c m2 x else m2.peek x := by
      intro x
      rw [p3]; simp only [same_line_iff]
      by_cases hx : x = a + 3
      · rw [if_pos hx, if_pos hx]
      · rw [if_neg hx, if_neg hx]
    have q2 := store_before b2 p2 _ _ (fun x hx => lines x (a + 3) (a + 2) hx (by omega) (by omega) (by omega) (by omega))
      q3
    have q2' : ∀ x, m3.peek x = match (if x = a + 2 then some (byteOf v 2) else if x = a + 3 then some (byteOf v 3)
          else none) with
        | some b => b
        | none => if x.toNat / 32 = (a + 2).toNat / 32 ∨ x.toNat / 32 = (a + 3).toNat / 32 then staleByte c m1 x
          else m1.peek x := by
      intro x
      rw [q2]
      by_cases hx : x = a + 2
      · have : x ≠ a + 3 := fun e => by have := congrArg BitVec.toNat (hx.symm.trans e); omega
        simp only [if_neg this, if_pos hx]
      · by_cases hx3 : x = a + 3
        · simp only [if_pos hx3, if_neg hx]
        · simp only [if_neg hx3, if_neg hx]
    have q1 := store_before b1 p1 _ _ (fun x hx => hx.elim
        (fun hx => lines x (a + 2) (a + 1) hx (by omega) (by omega) (by omega) (by omega))
        (fun hx => lines x (a + 3) (a + 1) hx (by omega) (by omega) (by omega) (by omega))) q2'
    have q1' : ∀ x, m3.peek x = match (if x = a + 1 then some (byteOf v 1) else if x = a + 2 then some (byteOf v 2)
          else if x = a + 3 then some (byteOf v 3) else none) with
        | some b => b
        | none => if x.toNat / 32 = (a + 1).toNat / 32 ∨ x.toNat / 32 = (a + 2).toNat / 32
            ∨ x.toNat / 32 = (a + 3).toNat / 32 then staleByte c m0 x else m0.peek x := by
      intro x
      rw [q1]
      by_cases hx : x = a + 1
      · have h2 : x ≠ a + 2 := fun e => by have := congrArg BitVec.toNat (hx.symm.trans e); omega
        have h3 : x ≠ a + 3 := fun e => by have := congrArg BitVec.toNat (hx.symm.trans e); omega
        simp only [if_neg h2, if_neg h3, if_pos hx]
      · by_cases hx2 : x = a + 2
        · simp only [if_pos hx2, if_neg hx]
        · by_cases hx3 : x = a + 3
          · simp only [if_neg hx2, if_pos hx3, if_neg hx]
          · simp only [if_neg hx2, if_neg hx3, if_neg hx]
    have q0 := store_before b0 p0 _ _ (fun x hx => hx.elim
        (fun hx => lines x (a + 1) a hx (by omega) (by omega) (by omega) (by omega)) fun hx => hx.elim
        (fun hx => lines x (a + 2) a hx (by omega) (by omega) (by omega) (by omega))
        (fun hx => lines x (a + 3) a hx (by omega) (by omega) (by omega) (by omega))) q1' x
    have span : (x.toNat / 32 = a.toNat / 32 ∨ x.toNat / 32 = (a + 1).toNat / 32 ∨ x.toNat / 32 = (a + 2).toNat / 32
        ∨ x.toNat / 32 = (a + 3).toNat / 32) ↔
        (x.toNat / 32 = a.toNat / 32 ∨ x.toNat / 32 = (a + 3).toNat / 32) := by omega
    rw [q0, byteAfterStore, storedByte]
    simp only [span]
    by_cases hx : x = a
    · have h1 : x ≠ a + 1 := fun e => by have := congrArg BitVec.toNat (hx.symm.trans e); omega
      have h2 : x ≠ a + 2 := fun e => by have := congrArg BitVec.toNat (hx.symm.trans e); omega
      have h3 : x ≠ a + 3 := fun e => by have := congrArg BitVec.toNat (hx.symm.trans e); omega
      rw [if_neg h1, if_neg h2, if_neg h3]
      simp only [hx, if_true]
    · rw [if_neg hx]
      simp only [if_neg hx] <;> rfl

/-- Under `Fill` a store changes its own four bytes and no other (R241). -/
theorem byteAfterStore_fill {c : Config} {m : MemSys} {a v x : Word} (hf : c.waFill = .fill)
    (h : storedByte a v x = none) : byteAfterStore c m a v x = m.peek x := by
  rw [byteAfterStore, h, staleByte_fill x hf]
  exact ite_self _

end Sys2Proof.Machine
end

