-- ==== Sys2Proof/Laws/Step.lean ====
section
/-! SUPPORT. What `exec` and `step` can do on a sound state, said once over all instructions. Later proofs cite these and
need no case split over the instructions. -/

namespace Sys2Proof.Machine

/-- What every instruction that answers leaves (R105, R107, R403, R406, R801): the fixed fields as they were, a sound
cache after at most one word access, one of the three results, and at most one load, store or event. -/
structure ExecNext (s t : State) : Prop where
  cfg : t.cfg = s.cfg
  hi : t.hi = s.hi
  lo : t.lo = s.lo
  slotZero : t.x[0] = s.x[0]
  fetched : t.fetched = s.fetched
  executed : t.executed = s.executed
  branches : t.branches = s.branches
  mem : MemOk t.cfg t.msys
  access : t.msys = s.msys ∨ ∃ a, WordAccess s.cfg a s.msys t.msys
  result : t.result = .continued false ∨ (t.result = .continued true ∧ t.loads = s.loads ∧ t.stores = s.stores) ∨
    t = s.setResult .programEnd
  counts : s.loads + s.stores ≤ t.loads + t.stores ∧ t.loads + t.stores ≤ s.loads + s.stores + 1
  output : t.output = s.output ∨ ∃ e, t.output = s.output ++ [e] ∧ e.ok

theorem exec_next {i : Instr} {s t : State} (hm : MemOk s.cfg s.msys) (h : exec i s = .next t) : ExecNext s t := by
  cases i
  case lw rt rs imm =>
    obtain ⟨v, m, hr, rfl⟩ := execLw_next h
    by_cases hp : (effectiveAddress (s.readReg rs) imm).toNat + 3 < s.cfg.memSize
    · obtain ⟨m', hr', ha, -⟩ := readWord_spec hm hp
      rw [hr] at hr'; cases hr'
      have hacc : ∃ a, WordAccess s.cfg a s.msys m := ⟨_, ha⟩
      constructor <;> simp [State.finish, State.setResult, writeReg_slot_zero, hacc, ha.ok, State.countLoad]; omega
    · rw [readWord_fault (by omega)] at hr; cases hr
  case sw rt rs imm =>
    obtain ⟨m, hr, rfl⟩ := execSw_next h
    by_cases hp : (effectiveAddress (s.readReg rs) imm).toNat + 3 < s.cfg.memSize
    · obtain ⟨m', hr', ha, -⟩ := writeWord_spec hm hp (s.readReg rt)
      rw [hr] at hr'; cases hr'
      have hacc : ∃ a, WordAccess s.cfg a s.msys m := ⟨_, ha⟩
      constructor <;> simp [State.finish, State.setResult, hacc, ha.ok, State.countStore, State.setMsys]; omega
    · rw [writeWord_fault (by omega)] at hr; cases hr
  case syscall =>
    rcases execSyscall_next h with ⟨hc, rfl⟩ | ⟨hc, bytes, hb, rfl⟩ | ⟨hc, rfl⟩ | ⟨hc, rfl⟩
    · constructor <;> simp [State.finish, State.setResult, State.emit, hm]
      have := BitVec.le_toInt (s.readReg 4#5)
      have := BitVec.toInt_lt (x := s.readReg 4#5)
      simp only [Event.ok]
      omega
    · constructor <;> simp [State.finish, State.setResult, State.emit, hm]
      intro b hb'
      obtain ⟨i, hi, rfl⟩ := List.getElem_of_mem hb'
      exact ((scanString_ok.1 hb).2.1 i hi).2
    · constructor <;> simp [State.setResult, hm]
    · constructor <;> simp [State.finish, State.setResult, State.emit, hm, Event.ok]
  case beq rs rt imm =>
    have := branchIf_next h
    subst this
    split <;> constructor <;> simp [State.finish, State.setResult, State.setPc, hm]
  case bne rs rt imm =>
    have := branchIf_next h
    subst this
    split <;> constructor <;> simp [State.finish, State.setResult, State.setPc, hm]
  all_goals
    cases h
    constructor <;> simp [State.finish, State.setResult, State.setPc, writeReg_slot_zero, hm]

/-- An instruction that faults on a sound state leaves that state, but for `result` (R409, R906). -/
theorem exec_fault {i : Instr} {s : State} (hm : MemOk s.cfg s.msys) {f : Fault} (h : exec i s = .fault f) :
    faultAfter f = s.setResult .faulted ∧ (faultRecord f).2.2 = s.pc := by
  cases i
  case lw rt rs imm =>
    by_cases hp : (effectiveAddress (s.readReg rs) imm).toNat + 3 < s.cfg.memSize
    · obtain ⟨m', hr', ha, -⟩ := readWord_spec hm hp
      simp only [exec, execLw, hr'] at h; cases h
    · simp only [exec, execLw, readWord_fault (Nat.le_of_not_lt hp)] at h; cases h; exact ⟨rfl, rfl⟩
  case sw rt rs imm =>
    by_cases hp : (effectiveAddress (s.readReg rs) imm).toNat + 3 < s.cfg.memSize
    · obtain ⟨m', hr', ha, -⟩ := writeWord_spec hm hp (s.readReg rt)
      simp only [exec, execSw, hr'] at h; cases h
    · simp only [exec, execSw, writeWord_fault (Nat.le_of_not_lt hp)] at h; cases h; exact ⟨rfl, rfl⟩
  case syscall =>
    simp only [exec, execSyscall] at h
    split at h
    · cases h
    · unfold printString at h
      split at h
      · cases h
      · cases h; exact ⟨rfl, rfl⟩
    · cases h
    · cases h
    · cases h; exact ⟨rfl, rfl⟩
  case beq rs rt imm => simp only [exec, execBeq, branchIf] at h; split at h <;> cases h
  case bne rs rt imm => simp only [exec, execBne, branchIf] at h; split at h <;> cases h
  all_goals cases h

/-- The fetch on a sound state (R401). -/
theorem fetch_inside {s : State} (h : MemOk s.cfg s.msys) (hp : s.pc.toNat + 3 < s.cfg.memSize) :
    ∃ m, fetch s = .done (s.msys.peekWord s.pc) m ∧ WordAccess s.cfg s.pc s.msys m ∧ ∀ x, m.peek x = s.msys.peek x :=
  readWord_spec h hp

theorem fetch_outside {s : State} (hp : s.cfg.memSize ≤ s.pc.toNat + 3) : fetch s = .fault s.pc s.msys :=
  readWord_fault hp

end Sys2Proof.Machine
end

