-- ==== Sys2Proof/Tests/Slice0.lean ====
section
/-! SUPPORT. Tests. Every expected value comes from the spec: the vectors of spec/95_test_vectors.md, named in each
comment by their id, or a rule. The last part shows, for each statement with hypotheses, a state that meets them. -/

namespace Sys2Proof.Tests

open Sys2Proof.Machine

/-! Helpers. -/

/-- A new core with the given registers, pc and words in Memory, in the configuration of `State.reset`. -/
def core (regs : List (RegIndex × Word)) (pc : Word) (words : List (Nat × Word)) : State :=
  { regs.foldl (fun s p => s.writeReg p.1 p.2) State.reset with
    pc := pc
    msys := { cache := .fresh, mem := words.foldl (fun mem p => mem.writeBytes p.1 (leBytes p.2).toList) [] } }

/-- The next state of an outcome. -/
def nextOf : Host.Outcome State Fault Refusal → Option State
  | .next s => some s
  | _ => none

/-- The record of the fault of an outcome. -/
def recordOf : Host.Outcome State Fault Refusal → Option (Cause × Word × Word)
  | .fault f => some (faultRecord f)
  | _ => none

/-- The state a fault leaves. -/
def afterFault : Host.Outcome State Fault Refusal → Option State
  | .fault f => some (faultAfter f)
  | _ => none

/-- One step of `word` at pc 0x100: register `i`, and pc. -/
def stepAt100 (word : Word) (regs : List (RegIndex × Word)) (i : RegIndex) : Option (Word × Word) :=
  (nextOf (step (core regs 0x100#32 [(0x100, word)]))).map fun t => (t.readReg i, t.pc)

/-- The value of an access. -/
def valueOf {α : Type} : Access α → Option α
  | .done v _ => some v
  | .fault _ _ => none

/-- The cache and Memory an access leaves. -/
def left {α : Type} : Access α → MemSys
  | .done _ m => m
  | .fault _ m => m

/-- The cache counters: hits, misses, write-backs, accesses. -/
def counters (m : MemSys) : Nat × Nat × Nat × Nat :=
  (m.cache.hits, m.cache.misses, m.cache.writebacks, m.cache.accessCounter)

/-- Read a byte at each address in turn. -/
def readAll (c : Config) (m : MemSys) (addrs : List Word) : MemSys :=
  addrs.foldl (fun m a => left (m.readByte c a)) m

/-- The configuration of `State.reset` with the other `WA_FILL`. -/
def cfgFill : Config := { Config.specExample with waFill := .fill }

def newMem (mem : Memory) : MemSys := { cache := .fresh, mem := mem }

/-! Well-formedness (spec/00_scope.md R10): each check refuses an ill-formed configuration. -/

theorem test_wellFormed_example : Config.specExample.wellFormed := by decide
theorem test_wellFormed_refuses_not_a_multiple_of_32 : ¬ { Config.specExample with memSize := 0x10010 }.wellFormed := by
  decide
theorem test_wellFormed_refuses_too_small : ¬ { Config.specExample with memSize := 0 }.wellFormed := by decide
theorem test_wellFormed_refuses_too_large : ¬ { Config.specExample with memSize := 2 ^ 32 + 32 }.wellFormed := by decide
theorem test_construct_refuses :
    construct { Config.specExample with memSize := 0x10010 } = .refused (.memSizeNotAllowed 0x10010) := by rfl

/-! Decoding: words from DEC1 to DEC28 and the ALU, LS and CT vectors, at least one for each constructor. -/

theorem test_decode_add : decode 0x00430820#32 = .instr (.add 1 2 3) := by decide  -- DEC1
theorem test_decode_sub : decode 0x00430822#32 = .instr (.sub 1 2 3) := by decide  -- ALU6
theorem test_decode_and : decode 0x00430824#32 = .instr (.and 1 2 3) := by decide  -- ALU9
theorem test_decode_or : decode 0x00430825#32 = .instr (.or 1 2 3) := by decide  -- ALU10
theorem test_decode_slt : decode 0x0043082A#32 = .instr (.slt 1 2 3) := by decide  -- ALU11
theorem test_decode_sll : decode 0x000520C0#32 = .instr (.sll 4 5 3) := by decide  -- ALU15
theorem test_decode_srl : decode 0x00020FC2#32 = .instr (.srl 1 2 31) := by decide  -- DEC28
theorem test_decode_jr : decode 0x03E00008#32 = .instr (.jr 31) := by decide  -- CT15
theorem test_decode_syscall : decode 0x0000000C#32 = .instr .syscall := by decide  -- DEC6
theorem test_decode_addi : decode 0x2041FFFF#32 = .instr (.addi 1 2 0xFFFF) := by decide  -- DEC19
theorem test_decode_slti : decode 0x28418000#32 = .instr (.slti 1 2 0x8000) := by decide  -- DEC20
theorem test_decode_lw : decode 0x8FA8FFFC#32 = .instr (.lw 8 29 0xFFFC) := by decide  -- DEC21
theorem test_decode_sw : decode 0xAFA8FFFC#32 = .instr (.sw 8 29 0xFFFC) := by decide  -- DEC22
theorem test_decode_beq : decode 0x1020FFFE#32 = .instr (.beq 1 0 0xFFFE) := by decide  -- DEC23
theorem test_decode_bne : decode 0x14220003#32 = .instr (.bne 1 2 3) := by decide  -- DEC24
theorem test_decode_j : decode 0x08000010#32 = .instr (.j 0x10) := by decide  -- DEC25
theorem test_decode_jal : decode 0x0FFFFFFF#32 = .instr (.jal 0x3FFFFFF) := by decide  -- DEC26
theorem test_decode_ignores_unused_bits :  -- DEC7 to DEC10
    decode 0x03FFFFCC#32 = .instr .syscall ∧ decode 0x00430860#32 = .instr (.add 1 2 3) ∧
    decode 0x03E52100#32 = .instr (.sll 4 5 4) ∧ decode 0x03E0F808#32 = .instr (.jr 31) := by decide
theorem test_decode_invalid :  -- DEC11 to DEC14, DEC16 to DEC18
    decode 0x03E0F809#32 = .invalid 0x03E0F809#32 ∧ decode 0x00430821#32 = .invalid 0x00430821#32 ∧
    decode 0x00000001#32 = .invalid 0x00000001#32 ∧ decode 0x0000003F#32 = .invalid 0x0000003F#32 ∧
    decode 0x18000000#32 = .invalid 0x18000000#32 ∧ decode 0xFC000000#32 = .invalid 0xFC000000#32 ∧
    decode 0xFFFFFFFF#32 = .invalid 0xFFFFFFFF#32 := by decide
theorem test_decodeTableWord : decodeTableWord 32 0x00430820 = some (.add 1 2 3) := by decide
theorem test_decodeTableWord_invalid : decodeTableWord 32 0x00430821 = none := by decide
theorem test_encode : encode (.add 1 2 3) = 0x00430820#32 ∧ encode (.lw 8 29 0xFFFC) = 0x8FA8FFFC#32 ∧
    encode (.jal 0x40) = 0x0C000040#32 := by decide
theorem test_disassemble :  -- R320
    disassemble (.instr (.sw 8 29 0xFFFC)) = "sw $8, -4($29)" ∧ disassemble (.instr (.jal 0x40)) = "jal 0x00000100" := by
  decide

/-! One step of each instruction. -/

theorem test_add_wraps : stepAt100 0x00430820#32 [(2, 0x7FFFFFFF), (3, 1)] 1 = some (0x80000000#32, 0x104#32) := by
  decide  -- ALU2
theorem test_add_to_zero : stepAt100 0x00430020#32 [(2, 1), (3, 2)] 0 = some (0#32, 0x104#32) := by decide  -- ALU5
theorem test_sub : stepAt100 0x00430822#32 [(2, 10), (3, 20)] 1 = some (0xFFFFFFF6#32, 0x104#32) := by decide  -- ALU6
theorem test_and : stepAt100 0x00430824#32 [(2, 0xFF0F), (3, 0xF0FFF)] 1 = some (0xF0F#32, 0x104#32) := by decide  -- ALU9
theorem test_or : stepAt100 0x00430825#32 [(2, 0xFF0F), (3, 0xF0FFF)] 1 = some (0xFFFFF#32, 0x104#32) := by
  decide  -- ALU10
theorem test_slt_signed : stepAt100 0x0043082A#32 [(2, 0xFFFFFFFF), (3, 1)] 1 = some (1#32, 0x104#32) := by
  decide  -- ALU11
theorem test_slt_not_less : stepAt100 0x0043082A#32 [(2, 1), (3, 0xFFFFFFFF)] 1 = some (0#32, 0x104#32) := by
  decide  -- ALU12
theorem test_sll : stepAt100 0x000520C0#32 [(5, 0x10000001)] 4 = some (0x80000008#32, 0x104#32) := by decide  -- ALU15
theorem test_srl_fills_zero : stepAt100 0x00020842#32 [(2, 0xFFFFFFFF)] 1 = some (0x7FFFFFFF#32, 0x104#32) := by
  decide  -- ALU20
theorem test_addi_sign_extends : stepAt100 0x2041FFFF#32 [(2, 0)] 1 = some (0xFFFFFFFF#32, 0x104#32) := by
  decide  -- ALU22
theorem test_slti_signed : stepAt100 0x28418000#32 [(2, 0xFFFF7FFF)] 1 = some (1#32, 0x104#32) := by decide  -- ALU30
theorem test_slti_equal : stepAt100 0x28418000#32 [(2, 0xFFFF8000)] 1 = some (0#32, 0x104#32) := by decide  -- ALU29

theorem test_lw_two_lines :  -- LS6
    (nextOf (step (core [(9, 0x1E)] 0#32 [(0, 0x8D280000#32), (0x1E, 0x06050403#32)]))).map
      (fun t => (t.readReg 8, t.loads, counters t.msys)) = some (0x06050403#32, 1, 6, 2, 0, 8) := by decide
theorem test_lw_fault :  -- LS3
    recordOf (step (core [] 0#32 [(0, 0x8C08FFFC#32)])) = some (.address, 0xFFFFFFFC#32, 0#32) ∧
    (afterFault (step (core [] 0#32 [(0, 0x8C08FFFC#32)]))).map
      (fun t => (t.loads, t.executed, counters t.msys)) = some (0, 0, 3, 1, 0, 4) := by decide
theorem test_sw :  -- LS7
    (nextOf (step (core [(8, 0x12345678), (9, 0x100)] 0#32 [(0, 0xAD280000#32)]))).map
      (fun t => (t.msys.peekWord 0x100#32, t.msys.mem.read 0x100, t.stores)) = some (0x12345678#32, 0#8, 1) := by decide
theorem test_sw_fault :  -- LS8
    recordOf (step (core [(8, 1), (9, 0xFFFFFFFF)] 0#32 [(0, 0xAD280000#32)]))
      = some (.address, 0xFFFFFFFF#32, 0#32) := by decide

theorem test_beq_taken :  -- CT8: it wraps
    (nextOf (step (core [] 0x10#32 [(0x10, 0x10008000#32)]))).map (fun t => (t.pc, t.branches))
      = some (0xFFFE0010#32, 1) := by decide
theorem test_beq_not_taken : stepAt100 0x10220003#32 [(1, 7), (2, 8)] 0 = some (0#32, 0x104#32) := by decide  -- CT2
theorem test_bne_taken : stepAt100 0x14220003#32 [(1, 1), (2, 2)] 0 = some (0#32, 0x10C#32) := by decide  -- CT3
theorem test_bne_not_taken : stepAt100 0x14220003#32 [(1, 2), (2, 2)] 0 = some (0#32, 0x104#32) := by decide  -- CT4
theorem test_j_region :  -- CT11: `execute` alone, at an address with high bits
    (nextOf (exec (.j 0x10) { State.reset with pc := 0x30000100#32 })).map (fun t => t.pc)
      = some 0x30000040#32 := by decide
theorem test_jal_region_and_link :  -- CT14
    (nextOf (exec (.jal 0x10) { State.reset with pc := 0x0FFFFFFC#32 })).map (fun t => (t.pc, t.readReg 31))
      = some (0x40#32, 0x10000000#32) := by decide
theorem test_jr_misaligned :  -- CT16
    (nextOf (step (core [(8, 0x102)] 0x20#32 [(0x20, 0x01000008#32)]))).map (fun t => (t.pc, t.branches))
      = some (0x102#32, 1) := by decide

theorem test_syscall_print_int :  -- SYS2
    (nextOf (step (core [(2, 1), (4, 0x80000000)] 0x20#32 [(0x20, 0xC#32)]))).map (fun t => (t.output, t.pc))
      = some ([.printInt (-2147483648)], 0x24#32) := by decide
theorem test_syscall_print_string :  -- SYS3: no cache access but the fetch's
    (nextOf (step (core [(2, 4), (4, 0x200)] 0x20#32 [(0x20, 0xC#32), (0x200, 0x6948#32)]))).map
      (fun t => (t.output, t.msys.cache.accessCounter)) = some ([.printString [0x48, 0x69]], 4) := by decide
theorem test_syscall_print_string_runs_off :  -- SYS5
    recordOf (step (core [(2, 4), (4, 0xFFFE)] 0x20#32 [(0x20, 0xC#32), (0xFFFC, 0x42410000#32)]))
      = some (.address, 0x10000#32, 0x20#32) := by decide
theorem test_syscall_end :  -- SYS7
    (nextOf (step (core [(2, 10)] 0x20#32 [(0x20, 0xC#32)]))).map (fun t => (t.result, t.pc, t.executed))
      = some (.programEnd, 0x20#32, 0) := by decide
theorem test_syscall_print_char :  -- SYS8
    (nextOf (step (core [(2, 11), (4, 0x141)] 0x20#32 [(0x20, 0xC#32)]))).map (fun t => t.output)
      = some [.printChar 0x41] := by decide
theorem test_syscall_unrecognised :  -- SYS11
    recordOf (step (core [(2, 3)] 0x20#32 [(0x20, 0x03FFFFCC#32)]))
      = some (.invalidInstruction, 0x03FFFFCC#32, 0x20#32) := by decide
theorem test_invalid :  -- DEC12, R410
    recordOf (step (core [] 0x20#32 [(0x20, 0x00430821#32)]))
      = some (.invalidInstruction, 0x00430821#32, 0x20#32) := by decide
theorem test_fetch_fault :  -- ST3: no cache access
    recordOf (step (core [] 0xFFFE#32 [])) = some (.address, 0xFFFE#32, 0xFFFE#32) ∧
    (afterFault (step (core [] 0xFFFE#32 []))).map (fun t => counters t.msys) = some (0, 0, 0, 0) := by decide
theorem test_withFetchWord :
    (nextOf (step (State.reset.withFetchWord 32 0x2001FFFF))).map (fun t => t.readReg 1) = some 0xFFFFFFFF#32 := by
  decide

/-! The cache. -/

theorem test_cache_same_line :  -- CA1
    counters (readAll Config.specExample (newMem []) [0x123, 0x13F, 0x120, 0x140]) = (2, 2, 0, 4) := by decide
theorem test_cache_lru :  -- CA2, through its ten accesses
    counters (readAll Config.specExample (newMem [])
      [0x0, 0x800, 0x1000, 0x1800, 0x2000, 0x0, 0x1000, 0x1800, 0x2000, 0x800]) = (3, 7, 0, 10) := by decide
theorem test_cache_stale :  -- CA3, `NoFill`: the neighbour reads the invalid way's zero byte
    (valueOf ((left ((newMem [(0x44, 0xA4)]).writeByte Config.specExample 0x45 0x55)).readByte Config.specExample 0x44),
     valueOf ((left ((newMem [(0x44, 0xA4)]).writeByte Config.specExample 0x45 0x55)).readByte Config.specExample 0x45))
      = (some 0x00#8, some 0x55#8) := by decide
theorem test_cache_fill :  -- CA3, `Fill`
    valueOf ((left ((newMem [(0x44, 0xA4)]).writeByte cfgFill 0x45 0x55)).readByte cfgFill 0x44)
      = some 0xA4#8 := by decide
theorem test_cache_write_hit :  -- R222: a hit writes the cache only
    (fun m : MemSys => (m.peek 0x44, m.mem.read 0x44, counters m))
      (left ((readAll Config.specExample (newMem [(0x44, 0xA4)]) [0x40]).writeByte Config.specExample 0x44 0x55))
      = (0x55#8, 0xA4#8, 1, 1, 0, 2) := by decide
theorem test_cache_dirty_eviction :  -- CA5
    (fun m : MemSys => (counters m, m.mem.read 0x40, m.mem.read 0x43))
      (readAll Config.specExample (left ((newMem []).writeWord Config.specExample 0x40 0xDEADBEEF))
        [0x840, 0x1040, 0x1840, 0x2040]) = ((3, 5, 1, 8), 0xEF#8, 0xDE#8) := by decide
theorem test_cache_bounds :  -- CA8
    valueOf ((newMem []).readWord Config.specExample 0xFFFC) = some 0#32 ∧
    (newMem []).readWord Config.specExample 0xFFFFFFFE = .fault 0xFFFFFFFE (newMem []) ∧
    (newMem []).readByte Config.specExample 0x10000 = .fault 0x10000 (newMem []) :=
  ⟨by decide, rfl, rfl⟩

theorem test_flush :  -- CA6: the part of `flush` that meets the one dirty line, set 16, way 0
    (fun m : MemSys => (m.mem.read 0x200, m.mem.read 0x203, (m.cache.line 16 0).dirty, (m.cache.line 16 0).valid))
      (left ((left ((newMem []).writeWord Config.specExample 0x200 0xCAFEF00D)).flushLine Config.specExample 16 0))
      = (0x0D#8, 0xCA#8, false, true) := by decide

/-! The host's operations. -/

theorem test_load :  -- R1001: little-endian, at `START`
    (nextOf (load [0x11223344#32] State.reset)).map (fun t => (t.msys.mem.read 0, t.msys.mem.read 3))
      = some (0x44#8, 0x11#8) := by decide
theorem test_load_after_step :  -- R1001
    load [0#32] { State.reset with result := .continued false } = .refused .loadAfterStep := by rfl
theorem test_run_at_halt :  -- ST2
    run { State.reset with pc := 0xFFFFFFFC#32 } = .halted { State.reset with pc := 0xFFFFFFFC#32 } := by rfl

/-! Witnesses: for each statement with hypotheses, a state and operands that meet them all, each clause at a boundary. -/

theorem next_of {o : Host.Outcome State Fault Refusal} (h : (nextOf o).isSome = true) : ∃ t, o = .next t := by
  cases o with
  | next t => exact ⟨t, rfl⟩
  | fault f => cases h
  | refused r => cases h

theorem fault_of {o : Host.Outcome State Fault Refusal} (h : (recordOf o).isSome = true) : ∃ f, o = .fault f := by
  cases o with
  | next t => cases h
  | fault f => exact ⟨f, rfl⟩
  | refused r => cases h

theorem done_of {α : Type} {r : Access α} {v : α} (h : valueOf r = some v) : ∃ m, r = .done v m := by
  cases r with
  | done u m => cases h; exact ⟨m, rfl⟩
  | fault a m => cases h

/-- A new cache over any Memory in canonical form is sound: no line is valid. -/
theorem memOk_new {c : Config} (hc : c.wellFormed) {mem : Memory} (hwf : Memory.wf mem)
    (hin : ∀ p ∈ mem, p.1 < c.memSize) : MemOk c (newMem mem) := by
  have hline : ∀ s w, (newMem mem).cache.line s w = CacheLine.fresh := fun s w => by
    simp [newMem, Cache.line, Cache.fresh]
  have hfalse : ∀ s w, (newMem mem).cache.line s w ≠ CacheLine.fresh → False := fun s w h => h (hline s w)
  refine ⟨hc, hwf, hin, fun s w => ?_, fun s => ?_⟩
  · constructor <;> rw [hline]
    · exact fun _ => ⟨rfl, rfl⟩
    all_goals intro h; cases h
  · constructor
    · intro w w' _ h; rw [hline] at h; cases h
    · intro w w' _ h; rw [hline] at h; cases h

theorem memOk_readByte {c : Config} {m : MemSys} (h : MemOk c m) {a : Word} (ha : a.toNat < c.memSize) :
    MemOk c (left (m.readByte c a)) := by
  obtain ⟨m', e, acc, -⟩ := readByte_spec h ha
  rw [e]
  exact acc.ok

theorem memOk_writeByte {c : Config} {m : MemSys} (h : MemOk c m) {a : Word} (ha : a.toNat < c.memSize) (b : Byte) :
    MemOk c (left (m.writeByte c a b)) := by
  obtain ⟨m', e, acc, -⟩ := writeByte_spec h ha b
  rw [e]
  exact acc.ok

theorem memOk_readAll {c : Config} {m : MemSys} (h : MemOk c m) (addrs : List Word)
    (ha : ∀ a ∈ addrs, a.toNat < c.memSize) : MemOk c (readAll c m addrs) := by
  induction addrs generalizing m with
  | nil => exact h
  | cons a rest ih =>
    exact ih (memOk_readByte h (ha a (List.mem_cons_self ..))) fun b hb => ha b (List.mem_cons_of_mem _ hb)

theorem memOk_empty : MemOk Config.specExample (newMem []) := memOk_new (by decide) (by decide) (by decide)

theorem memOk_lw : MemOk (core [(9, 0xFFFC)] 0#32 [(0, 0x8D280000#32)]).cfg
    (core [(9, 0xFFFC)] 0#32 [(0, 0x8D280000#32)]).msys :=
  memOk_new (c := Config.specExample) (by decide) (by decide) (by decide)

/-- DecodeReadsExactlyTheUsedBits: DEC9, with ignored bits set. -/
theorem witness_used_bits : decode 0x03E52100#32 = .instr (.sll 4 5 4) ∧
    0x03E52100#32 &&& usedMask (.sll 4 5 4) = encode (.sll 4 5 4) := by decide

/-- InvalidExactlyOnTheIllegalSpace: both parts of the illegal space, and a word outside it. -/
theorem witness_invalid :
    (opcodeOf 0x00430821#32 = 0x00#6 ∧ decode 0x00430821#32 = .invalid 0x00430821#32) ∧
    decode 0xFC000000#32 = .invalid 0xFC000000#32 ∧ decode 0x00430820#32 ≠ .invalid 0x00430820#32 := by decide

/-- RegisterZeroIsHardwired: the load clause, at the last word of Memory. -/
theorem witness_register_zero : ∃ (s : State) (rs : RegIndex) (imm : BitVec 16) (v : Word) (m : MemSys),
    s.msys.readWord s.cfg (effectiveAddress (s.readReg rs) imm) = .done v m ∧ (31#5 : RegIndex) ≠ 0#5 ∧
    (effectiveAddress (s.readReg rs) imm).toNat + 4 = s.cfg.memSize := by
  obtain ⟨m, h⟩ := done_of (show valueOf ((core [(9, 0xFFFC)] 0#32 []).msys.readWord (core [(9, 0xFFFC)] 0#32 []).cfg
    (effectiveAddress ((core [(9, 0xFFFC)] 0#32 []).readReg 9) 0)) = some 0#32 by decide)
  exact ⟨_, 9, 0, _, m, h, by decide, by decide⟩

/-- BranchOffsetIsTheImmediateTimesFour: both clauses, at the largest backward offset. -/
theorem witness_branch_offset : ∃ (s : State), s.readReg 1 = s.readReg 2 ∧ s.readReg 1 ≠ s.readReg 3 ∧
    (∃ t, exec (.beq 1 2 0x8000) s = .next t) ∧ ∃ t, exec (.bne 1 3 0x8000) s = .next t :=
  ⟨core [(1, 7), (2, 7), (3, 8)] 0#32 [], by decide, by decide, next_of (by decide), next_of (by decide)⟩

/-- JumpTargetIsInTheJumpsOwnRegion. -/
theorem witness_jump_target : (∃ t, exec (.j 0x3FFFFFF) State.reset = .next t) ∧
    ∃ t, exec (.jal 0x3FFFFFF) State.reset = .next t := ⟨next_of (by decide), next_of (by decide)⟩

/-- LwLoadsTheWordAtTheEffectiveAddress, SwStoresTheWordAtTheEffectiveAddress: the last word of Memory. -/
theorem witness_lw_sw : ∃ (s : State) (rs : RegIndex) (imm : BitVec 16), MemOk s.cfg s.msys ∧
    (effectiveAddress (s.readReg rs) imm).toNat + 3 < s.cfg.memSize ∧
    s.cfg.memSize ≤ (effectiveAddress (s.readReg rs) imm).toNat + 4 :=
  ⟨_, 9, 0, memOk_lw, by decide, by decide⟩

/-- SwStoresTheWordAtTheEffectiveAddress, its clauses for a byte not stored: a byte in the same line, when the line is
absent under `NoFill`; when the line is present; and under `Fill`. A byte in another line is `a = 0`. -/
theorem witness_sw_other_bytes :
    (∃ (s : State) (a : Word), MemOk s.cfg s.msys ∧ s.cfg.waFill = .noFill ∧
      s.msys.cache.lookup (setIndex a) (tagOf a) = none ∧
      a.toNat / 32 = (effectiveAddress (s.readReg 9) 0).toNat / 32 ∧
      (∀ i, i < 4 → a ≠ effectiveAddress (s.readReg 9) 0 + BitVec.ofNat 32 i) ∧
      (0#32).toNat / 32 ≠ (effectiveAddress (s.readReg 9) 0).toNat / 32) ∧
    (∃ (s : State) (a : Word), MemOk s.cfg s.msys ∧ (s.msys.cache.lookup (setIndex a) (tagOf a)).isSome ∧
      ∀ i, i < 4 → a ≠ effectiveAddress (s.readReg 9) 0 + BitVec.ofNat 32 i) ∧
    ∃ (s : State) (a : Word), MemOk s.cfg s.msys ∧ s.cfg.waFill = .fill ∧
      ∀ i, i < 4 → a ≠ effectiveAddress (s.readReg 9) 0 + BitVec.ofNat 32 i :=
  ⟨⟨_, 0xFFE0, memOk_lw, by decide, by decide, by decide, by decide, by decide⟩,
    ⟨(core [(9, 0xFFFC)] 0#32 []).setMsys (readAll Config.specExample (newMem []) [0xFFE0]), 0xFFE0,
      memOk_readAll memOk_empty _ (by simp [Config.specExample]), by decide, by decide⟩,
    ⟨(core [(9, 0xFFFC)] 0#32 []).withCfg cfgFill, 0xFFE0,
      memOk_new (c := cfgFill) (by decide) (by decide) (by decide), by decide, by decide⟩⟩

/-- LwSwOutsideMemoryFault: the first address that does not fit, and the last of all. -/
theorem witness_lw_sw_outside : ∃ s : State,
    s.cfg.memSize = (effectiveAddress (s.readReg 9) 0).toNat + 3 ∧
    s.cfg.memSize ≤ (effectiveAddress (s.readReg 0) 0xFFFF).toNat + 3 :=
  ⟨core [(9, 0xFFFD)] 0#32 [], by decide, by decide⟩

/-- StoredWordReadsBack: the last word of Memory, both clauses. -/
theorem witness_stored_word : MemOk Config.specExample (newMem []) ∧ Memory.wf [] ∧
    (0xFFFC#32).toNat + 3 < Config.specExample.memSize := ⟨memOk_empty, by decide, by decide⟩

/-- The print syscalls and the end of the program: a register holds each code. -/
theorem witness_syscall_codes : ∀ code ∈ [1#32, 4#32, 10#32, 11#32], ∃ s : State, s.readReg 2#5 = code := by
  intro code _
  exact ⟨State.reset.writeReg 2#5 code, readReg_writeReg_same _ _ _ (by decide)⟩

/-- SyscallFourPrintsTheStringInMemory: a string whose NUL is the last byte of Memory, and the empty string there. -/
theorem witness_string : ∃ (s : State) (bytes : List Byte), s.readReg 2#5 = 4#32 ∧ bytes = [0x48, 0x69] ∧
    (s.readReg 4#5).toNat + bytes.length + 1 = s.cfg.memSize ∧
    (∀ i (h : i < bytes.length), s.msys.mem.read ((s.readReg 4#5).toNat + i) = bytes[i] ∧ bytes[i] ≠ 0#8) ∧
    s.msys.mem.read ((s.readReg 4#5).toNat + bytes.length) = 0#8 :=
  ⟨core [(2, 4), (4, 0xFFFD)] 0#32 [(0xFFFC, 0x00694800#32)], [0x48, 0x69], by decide, rfl, by decide, by decide,
    by decide⟩

theorem witness_empty_string : ∃ s : State, s.readReg 2#5 = 4#32 ∧ (s.readReg 4#5).toNat + 1 = s.cfg.memSize ∧
    s.msys.mem.read (s.readReg 4#5).toNat = 0#8 :=
  ⟨core [(2, 4), (4, 0xFFFF)] 0#32 [], by decide, by decide, by decide⟩

/-- SyscallFourWithoutNulFaults: a start in Memory's last byte, one at `MEM_SIZE`, and one beyond. -/
theorem witness_no_nul :
    (∃ s : State, s.readReg 2#5 = 4#32 ∧ (s.readReg 4#5).toNat + 1 = s.cfg.memSize ∧
      ∀ a, (s.readReg 4#5).toNat ≤ a → a < s.cfg.memSize → s.msys.mem.read a ≠ 0#8) ∧
    (∃ s : State, s.readReg 2#5 = 4#32 ∧ (s.readReg 4#5).toNat = s.cfg.memSize) ∧
    ∃ s : State, s.readReg 2#5 = 4#32 ∧ s.cfg.memSize < (s.readReg 4#5).toNat := by
  refine ⟨⟨core [(2, 4), (4, 0xFFFF)] 0#32 [(0xFFFC, 0x41000000#32)], by decide, by decide, fun a h1 h2 => ?_⟩,
    ⟨core [(2, 4), (4, 0x10000)] 0#32 [], by decide, by decide⟩,
    ⟨core [(2, 4), (4, 0xFFFFFFFF)] 0#32 [], by decide, by decide⟩⟩
  have h1' : 0xFFFF ≤ a := h1
  have h2' : a < 0x10000 := h2
  obtain rfl : a = 0xFFFF := by omega
  decide

/-- A syscall at pc 0x20, with `$2` and `$4` given. -/
def syscallAt (code arg : Word) : State := core [(2, code), (4, arg)] 0x20#32 [(0x20, 0xC#32)]

theorem memOk_syscallAt (code arg : Word) : MemOk (syscallAt code arg).cfg (syscallAt code arg).msys :=
  memOk_new (c := Config.specExample) (by decide) (by decide) (by decide)

/-- SyscallTenEndsTheProgram, UnrecognisedSyscallCodeFaults, the statements over a fetched Syscall. -/
theorem witness_syscall_step : (∃ m, fetch (syscallAt 10 0) = .done 0xC#32 m) ∧ (syscallAt 10 0).readReg 2#5 = 10#32 ∧
    (∃ m, fetch (syscallAt 0x101 0) = .done 0xC#32 m) ∧
    (syscallAt 0x101 0).readReg 2#5 ∉ [1#32, 4#32, 10#32, 11#32] ∧ decode 0xC#32 = .instr .syscall :=
  ⟨done_of (by decide), by decide, done_of (by decide), by decide, by decide⟩

/-- StepRunsTheDecodedInstruction, FetchReadsTheWordAtPcThroughTheCache, PlacedWordIsFetched: the last word of Memory. -/
theorem witness_step_runs : ∃ s : State, MemOk s.cfg s.msys ∧ s.pc.toNat + 4 = s.cfg.memSize ∧
    decode (s.msys.peekWord s.pc) = .instr (.add 1 2 3) ∧ ∃ m, fetch s = .done 0x00430820#32 m :=
  ⟨core [] 0xFFFC#32 [(0xFFFC, 0x00430820#32)],
    memOk_new (c := Config.specExample) (by decide) (by decide) (by decide), by decide, by decide, done_of (by decide)⟩

/-- StepAdvancesPcAndStatistics, HiLoAndConfigurationNeverChange, LoadIsRefusedAfterAnyStep: the three ways a step goes on, and a fault. -/
theorem witness_step_outcomes :
    (∃ t, step (syscallAt 1 5) = .next t) ∧ (∃ t, step (core [] 0x40#32 [(0x40, 0x10000001#32)]) = .next t) ∧
    (∃ t, step (syscallAt 10 0) = .next t) ∧ ∃ f, step (syscallAt 0 0) = .fault f :=
  ⟨next_of (by decide), next_of (by decide), next_of (by decide), fault_of (by decide)⟩

/-- ExecuteReturnsTrueExactlyForTakenTransfers: a transfer, no transfer, and the end of the program. -/
theorem witness_execute_returns :
    (transfers (.beq 0 0 1) State.reset ∧ ∃ t, exec (.beq 0 0 1) State.reset = .next t) ∧
    (¬ transfers (.bne 0 0 1) State.reset ∧ ∃ t, exec (.bne 0 0 1) State.reset = .next t) ∧
    ¬ transfers .syscall (syscallAt 10 0) ∧ ∃ t, exec .syscall (syscallAt 10 0) = .next t :=
  ⟨⟨rfl, next_of (by decide)⟩, ⟨fun h => h rfl, next_of (by decide)⟩, id, next_of (by decide)⟩

/-- FetchOutsideMemoryFaults: the first pc that does not fit. -/
theorem witness_fetch_outside : ∃ s : State, s.cfg.memSize = s.pc.toNat + 3 := ⟨core [] 0xFFFD#32 [], by decide⟩

/-- InvalidWordFaults. -/
theorem witness_invalid_word : (∃ m, fetch (core [] 0x20#32 [(0x20, 0x00430821#32)]) = .done 0x00430821#32 m) ∧
    decode 0x00430821#32 = .invalid 0x00430821#32 := ⟨done_of (by decide), by decide⟩

/-- FaultsArePrecise, StepFaultsExactlyWhenTheSpecSays, StatisticsOnlyIncrease: each cause of a fault, in a sound state, and no fault. -/
theorem witness_faults :
    (MemOk (syscallAt 0 0).cfg (syscallAt 0 0).msys ∧ ∃ f, step (syscallAt 0 0) = .fault f) ∧
    (∃ s : State, MemOk s.cfg s.msys ∧ s.cfg.memSize ≤ s.pc.toNat + 3 ∧ ∃ f, step s = .fault f) ∧
    (∃ s : State, MemOk s.cfg s.msys ∧ decode (s.msys.peekWord s.pc) = .invalid 0x00430821#32 ∧
      ∃ f, step s = .fault f) ∧
    ∃ t, step (syscallAt 1 5) = .next t :=
  ⟨⟨memOk_syscallAt 0 0, fault_of (by decide)⟩,
    ⟨core [] 0xFFFD#32 [], memOk_new (c := Config.specExample) (by decide) (by decide) (by decide), by decide,
      fault_of (by decide)⟩,
    ⟨core [] 0x20#32 [(0x20, 0x00430821#32)], memOk_new (c := Config.specExample) (by decide) (by decide) (by decide),
      by decide, fault_of (by decide)⟩, next_of (by decide)⟩

/-- StepAfterATerminalOutcomeRepeatsIt: a fault, and the end of the program, in a sound state. -/
theorem witness_terminal :
    (MemOk (syscallAt 0 0).cfg (syscallAt 0 0).msys ∧ ∃ f, step (syscallAt 0 0) = .fault f) ∧
    MemOk (syscallAt 10 0).cfg (syscallAt 10 0).msys ∧
    ∃ t, step (syscallAt 10 0) = .next t ∧ t.result = .programEnd := by
  refine ⟨⟨memOk_syscallAt 0 0, fault_of (by decide)⟩, memOk_syscallAt 10 0, ?_⟩
  obtain ⟨t, ht⟩ := next_of (show (nextOf (step (syscallAt 10 0))).isSome = true by decide)
  have hr : (nextOf (step (syscallAt 10 0))).map (fun t => t.result) = some .programEnd := by decide
  rw [ht] at hr
  exact ⟨t, ht, Option.some.inj hr⟩

/-- EveryStepKeepsTheInvariant: a state with the invariant that goes on, and one that faults. -/
theorem witness_invariant :
    ((syscallAt 1 5).Inv ∧ ∃ t, step (syscallAt 1 5) = .next t) ∧
    (syscallAt 0 0).Inv ∧ ∃ f, step (syscallAt 0 0) = .fault f :=
  ⟨⟨⟨memOk_syscallAt 1 5, by decide, rfl, rfl, rfl, by decide, by decide,
      fun _ h => absurd h List.not_mem_nil⟩, next_of (by decide)⟩,
    ⟨memOk_syscallAt 0 0, by decide, rfl, rfl, rfl, by decide, by decide,
      fun _ h => absurd h List.not_mem_nil⟩, fault_of (by decide)⟩

/-- ConstructedCoreHasTheInvariant, ConstructionGivesTheResetValues: the smallest and the largest allowed Memory, and
configurations that are not allowed. -/
theorem witness_configurations : { Config.specExample with memSize := 32 }.wellFormed ∧
    { Config.specExample with memSize := 2 ^ 32 }.wellFormed ∧
    ¬ { Config.specExample with memSize := 33 }.wellFormed := by decide

/-- OnlyTheDestinationRegisterChanges, OnlySyscallAppendsToTheOutput, StatisticsOnlyIncrease: an instruction with a
destination and one without. -/
theorem witness_destination :
    (∃ s t w m, fetch s = .done w m ∧ decode w = .instr (.add 1 2 3) ∧ step s = .next t ∧
      destination (.add 1 2 3) ≠ some 0#5 ∧ MemOk s.cfg s.msys) ∧
    ∃ s t w m, fetch s = .done w m ∧ decode w = .instr .syscall ∧ step s = .next t ∧
      destination .syscall ≠ some 2#5 ∧ MemOk s.cfg s.msys := by
  constructor
  · obtain ⟨m, hm⟩ := done_of (show valueOf (fetch (core [] 0#32 [(0, 0x00430820#32)])) = some 0x00430820#32 by decide)
    obtain ⟨t, ht⟩ := next_of (show (nextOf (step (core [] 0#32 [(0, 0x00430820#32)]))).isSome = true by decide)
    exact ⟨_, t, _, m, hm, by decide, ht, by decide,
      memOk_new (c := Config.specExample) (by decide) (by decide) (by decide)⟩
  · obtain ⟨m, hm⟩ := done_of (show valueOf (fetch (syscallAt 1 5)) = some 0xC#32 by decide)
    obtain ⟨t, ht⟩ := next_of (show (nextOf (step (syscallAt 1 5))).isSome = true by decide)
    exact ⟨_, t, _, m, hm, by decide, ht, by decide, memOk_syscallAt 1 5⟩

/-- StepReadsOnlyMemSizeAndFill: a configuration that differs in everything else. -/
theorem witness_other_config : ∃ c : Config, c.memSize = State.reset.cfg.memSize ∧ c.waFill = State.reset.cfg.waFill ∧
    c ≠ State.reset.cfg ∧ c.haltAddr ≠ State.reset.cfg.haltAddr ∧ c.maxSteps ≠ State.reset.cfg.maxSteps :=
  ⟨{ Config.specExample with haltAddr := 0, maxSteps := 0, start := 4, spInit := 0, resultReg := 2, flushCountsWb := true },
    by decide⟩

/-- CacheIsInvisibleUnderFill: a cold cache, and the same bytes with one line in the cache. -/
theorem witness_visible : ∃ s t : State, s.cfg.waFill = .fill ∧ MemOk s.cfg s.msys ∧ MemOk t.cfg t.msys ∧
    sameVisible s t ∧ s.msys.cache.misses ≠ t.msys.cache.misses ∧
    ¬ (decode (s.msys.peekWord s.pc) = .instr .syscall ∧ s.readReg 2#5 = 4#32) := by
  have h : MemOk cfgFill (newMem []) := memOk_new (by decide) (by decide) (by decide)
  obtain ⟨m', e, acc, hpeek⟩ := readByte_spec h (a := 0x40#32) (by decide)
  refine ⟨(core [] 0#32 []).withCfg cfgFill, ((core [] 0#32 []).withCfg cfgFill).setMsys m', rfl, h, acc.ok, ⟨rfl, hpeek⟩,
    ?_, by decide⟩
  have hmiss : m'.cache.misses = 0 + 1 := by
    have := acc.misses
    rwa [show absent (newMem []) 0x40#32 = true by decide] at this
  intro hne
  exact absurd (hne.trans hmiss) (by decide)

/-- ReadMissThenItsLineHits, ReadByteStampsOrFillsOneLine, WriteByteDirtiesAndStampsOneLine: the last line of Memory,
absent and then present. -/
theorem witness_last_line : ∃ a b : Word, (∃ m, MemOk Config.specExample m ∧
      m.cache.lookup (setIndex a) (tagOf a) = none) ∧ a.toNat + 1 = Config.specExample.memSize ∧
    a.toNat / 32 = b.toNat / 32 ∧ a ≠ b ∧
    ∃ m, MemOk Config.specExample m ∧ (m.cache.lookup (setIndex a) (tagOf a)).isSome :=
  ⟨0xFFFF, 0xFFE0, ⟨_, memOk_empty, by decide⟩, by decide, by decide, by decide, _,
    memOk_readAll memOk_empty [0xFFFF] (by simp [Config.specExample]), by decide⟩

/-- Four lines of set 0, so that the set is full. -/
def fullSet : MemSys := readAll Config.specExample (newMem []) [0x0, 0x800, 0x1000, 0x1800]

theorem memOk_fullSet : MemOk Config.specExample fullSet :=
  memOk_readAll memOk_empty _ (by simp [Config.specExample])

/-- ReadMissEvictsTheLeastRecentlyUsedLine, VictimIsInvalidFirstThenOldest: a full set, and one with an invalid way. -/
theorem witness_full_set : MemOk Config.specExample fullSet ∧
    fullSet.cache.lookup (setIndex 0x2000#32) (tagOf 0x2000#32) = none ∧
    (∀ w, (fullSet.cache.line (setIndex 0x2000#32) w).valid = true) ∧
    ∃ w, ((newMem []).cache.line 0 w).valid = false :=
  ⟨memOk_fullSet, by decide, by decide, 0, by decide⟩

/-- DirtyVictimIsWrittenBack, FlushMakesMemoryShowTheCache: the full set with its oldest line dirty. -/
theorem witness_dirty_victim : ∃ m : MemSys, MemOk Config.specExample m ∧
    m.cache.lookup (setIndex 0x2000#32) (tagOf 0x2000#32) = none ∧
    (m.cache.line (setIndex 0x2000#32) (m.cache.victim (setIndex 0x2000#32))).valid = true ∧
    (m.cache.line (setIndex 0x2000#32) (m.cache.victim (setIndex 0x2000#32))).dirty = true :=
  ⟨readAll Config.specExample (left ((newMem []).writeByte Config.specExample 0x0 0x55)) [0x800, 0x1000, 0x1800],
    memOk_readAll (memOk_writeByte memOk_empty (by decide) _) _ (by simp [Config.specExample]), by decide, by decide, by decide⟩

/-- LoadWritesTheProgramAtStart: the empty program and one that does not fit in the smallest Memory (32 bytes), and a
load after a step. -/
theorem witness_load : ∃ s : State, s.result = .notStarted ∧ Memory.wf s.msys.mem ∧
    s.cfg.start.toNat + 4 * (List.replicate 8 0#32).length = s.cfg.memSize ∧
    s.cfg.memSize < s.cfg.start.toNat + 4 * (List.replicate 9 0#32).length ∧
    { s with result := .faulted }.result ≠ .notStarted :=
  ⟨State.constructed { Config.specExample with memSize := 32 }, rfl, by decide, by decide, by decide, by decide⟩

/-- RunEndsAsItsOutcomeSays: a run that starts at `HALT_ADDR`. -/
theorem witness_run_at_halt : ∃ s : State, s.pc = s.cfg.haltAddr := ⟨core [] 0xFFFFFFFC#32 [], by decide⟩

/-- The run of a core with the given `MAX_STEPS` and `HALT_ADDR`: its end, and the instructions executed. -/
def runEnd (maxSteps : Nat) (haltAddr : Word) (s : State) : Option (RunEnd × Nat) :=
  match run (s.withCfg { Config.specExample with haltAddr := haltAddr, maxSteps := maxSteps }) with
  | .halted t => some (.halted, t.executed)
  | .ended t => some (.ended, t.executed)
  | .boundReached t => some (.boundReached, t.executed)
  | .fault f => some (.fault (faultRecord f).1 (faultRecord f).2.1 (faultRecord f).2.2, (faultAfter f).executed)
  | .refused _ => none

/-! RunEndsAsItsOutcomeSays: each outcome, after one completed no-op. -/

theorem witness_run_halted : runEnd 3 4#32 (core [] 0#32 []) = some (.halted, 1) := by decide
theorem witness_run_bound : runEnd 1 8#32 (core [] 0#32 []) = some (.boundReached, 1) := by decide
theorem witness_run_ended : runEnd 2 8#32 (core [(2, 10)] 0#32 [(4, 0xC#32)]) = some (.ended, 1) := by decide
theorem witness_run_fault : runEnd 2 8#32 (core [] 0#32 [(4, 0x00430821#32)])
    = some (.fault .invalidInstruction 0x00430821#32 4#32, 1) := by decide

/-- The effects of a word access with a dirty victim (`WordEffects`): one that writes back, and one that does not. -/
theorem witness_word_evicts : ∃ m : MemSys, MemOk Config.specExample m ∧ evictsDirty m 0x2000#32 = true ∧
    evictsDirty m 0x1800#32 = false ∧ (writtenBack m 0x2000#32 0).isSome :=
  ⟨readAll Config.specExample (left ((newMem []).writeByte Config.specExample 0x0 0x55)) [0x800, 0x1000, 0x1800],
    memOk_readAll (memOk_writeByte memOk_empty (by decide) _) _ (by simp [Config.specExample]), by decide, by decide,
    by decide⟩

end Sys2Proof.Tests
end

/-! Register 0 (spec/10_state.md R101): what an instruction does when its destination is register 0. -/

namespace Sys2Proof.Machine

/-- The ALU family's shared operation with destination 0: only `execute`'s answer is left of it (R101, R500). -/
@[simp] theorem writeResult_zero (v : Word) (s : State) : writeResult 0#5 v s = .next (s.finish false) := by
  rw [writeResult, writeReg_zero]

/-- Lw whose word access answers, the converse of `execLw_next` (R601). -/
theorem execLw_of_readWord_done {rs : RegIndex} {imm : BitVec 16} {s : State} {v : Word} {m : MemSys} (rt : RegIndex)
    (h : s.msys.readWord s.cfg (effectiveAddress (s.readReg rs) imm) = .done v m) :
    execLw rt rs imm s = .next ((((s.setMsys m).writeReg rt v).countLoad).finish false) := by
  rw [execLw, h]

/-- Every ALU form is `writeResult` at its destination, so with destination 0 it writes nothing. -/
theorem exec_alu_zero (s : State) (rs rt : RegIndex) (sh : BitVec 5) (imm : BitVec 16) :
    ∀ i ∈ [Instr.add 0 rs rt, .sub 0 rs rt, .and 0 rs rt, .or 0 rs rt, .slt 0 rs rt, .sll 0 rt sh, .srl 0 rt sh,
        .addi 0 rs imm, .slti 0 rs imm],
      exec i s = .next (s.finish false) := by
  simp only [List.forall_mem_cons]
  exact ⟨writeResult_zero (s.readReg rs + s.readReg rt) s,
    writeResult_zero (s.readReg rs - s.readReg rt) s,
    writeResult_zero (s.readReg rs &&& s.readReg rt) s,
    writeResult_zero (s.readReg rs ||| s.readReg rt) s,
    writeResult_zero (signedLess (s.readReg rs) (s.readReg rt)) s,
    writeResult_zero (s.readReg rt <<< sh.toNat) s,
    writeResult_zero (s.readReg rt >>> sh.toNat) s,
    writeResult_zero (s.readReg rs + immWord imm) s,
    writeResult_zero (signedLess (s.readReg rs) (immWord imm)) s,
    nofun⟩

/-- Lw with destination 0 drops the loaded word and keeps the access and the count (R101, R601). -/
theorem exec_lw_zero {s : State} {rs : RegIndex} {imm : BitVec 16} {v : Word} {m : MemSys}
    (h : s.msys.readWord s.cfg (effectiveAddress (s.readReg rs) imm) = .done v m) :
    exec (.lw 0 rs imm) s = .next (((s.setMsys m).countLoad).finish false) := by
  have hlw : exec (.lw 0 rs imm) s = .next ((((s.setMsys m).writeReg 0#5 v).countLoad).finish false) :=
    execLw_of_readWord_done 0#5 h
  rw [hlw, writeReg_zero]

/-- Settles O7: the register file's laws (R101), and for each kind of instruction that can name register 0 its
effect with the write discarded. -/
theorem registerZeroIsHardwired : Obligations.RegisterZeroIsHardwired :=
  ⟨readReg_zero, writeReg_zero, readReg_writeReg_same, fun s _ _ v h => readReg_writeReg_other s v h, exec_alu_zero,
    fun _ _ _ _ _ h => exec_lw_zero h⟩

end Sys2Proof.Machine

/-! Control transfers: where a taken branch and a jump go (spec/30_encoding.md R304, R305). -/

namespace Sys2Proof.Machine

theorem transferTo_next_pc {target : Word} {s t : State} (h : transferTo target s = .next t) : t.pc = target := by
  cases h
  rw [finish_pc, setPc_pc]

/-! Branches. -/

theorem wordsEqual_iff {a b : Word} : wordsEqual a b = true ↔ a = b := beq_iff_eq

/-- Beq on equal registers is the transfer to its branch target (R702). -/
theorem exec_beq_of_eq {rs rt : RegIndex} {s : State} (imm : BitVec 16) (h : s.readReg rs = s.readReg rt) :
    exec (.beq rs rt imm) s = transferTo (branchTarget s.pc imm) s := by
  have hexec : exec (.beq rs rt imm) s = branchIf (wordsEqual (s.readReg rs) (s.readReg rt)) imm s := rfl
  rw [hexec, wordsEqual_iff.2 h, branchIf_true]

/-- Bne on different registers is the transfer to its branch target (R703). -/
theorem exec_bne_of_ne {rs rt : RegIndex} {s : State} (imm : BitVec 16) (h : s.readReg rs ≠ s.readReg rt) :
    exec (.bne rs rt imm) s = transferTo (branchTarget s.pc imm) s := by
  have hexec : exec (.bne rs rt imm) s = branchIf (!wordsEqual (s.readReg rs) (s.readReg rt)) imm s := rfl
  rw [hexec, Bool.eq_false_iff.2 (mt wordsEqual_iff.1 h), Bool.not_false, branchIf_true]

/-- Sign extension is the word of the signed value, and the shift multiplies that word by 4. -/
theorem immWord_shiftLeft_two (imm : BitVec 16) : immWord imm <<< 2 = BitVec.ofInt 32 (imm.toInt * 4) := by
  calc immWord imm <<< 2
      = immWord imm * BitVec.twoPow 32 2 := BitVec.shiftLeft_eq_mul_twoPow _ 2
    _ = BitVec.ofInt 32 imm.toInt * BitVec.ofInt 32 4 := rfl
    _ = BitVec.ofInt 32 (imm.toInt * 4) := (BitVec.ofInt_mul _ _).symm

theorem branchTarget_eq_add_ofInt (pc : Word) (imm : BitVec 16) :
    branchTarget pc imm = pc + BitVec.ofInt 32 (imm.toInt * 4) := by
  rw [branchTarget, immWord_shiftLeft_two]

/-- The range of the branch offset, from the 16 signed bits of the immediate. -/
theorem branchOffset_range (imm : BitVec 16) : -131072 ≤ imm.toInt * 4 ∧ imm.toInt * 4 ≤ 131068 := by
  have hlow : -2 ^ 15 ≤ imm.toInt := BitVec.le_toInt imm
  have hhigh : imm.toInt < 2 ^ 15 := BitVec.toInt_lt
  omega

/-- Settles O12: the two forms of the offset agree, and each taken branch is the transfer to `branchTarget`. -/
theorem branchOffsetIsTheImmediateTimesFour : Obligations.BranchOffsetIsTheImmediateTimesFour := by
  refine ⟨fun imm => ⟨(immWord_shiftLeft_two imm).symm, branchOffset_range imm⟩,
    fun s t rs rt imm => ⟨fun heq h => ?_, fun hne h => ?_⟩⟩
  · rw [exec_beq_of_eq imm heq] at h
    rw [transferTo_next_pc h, branchTarget_eq_add_ofInt]
  · rw [exec_bne_of_ne imm hne] at h
    rw [transferTo_next_pc h, branchTarget_eq_add_ofInt]

/-! Jumps. -/

theorem exec_j (target : BitVec 26) (s : State) : exec (.j target) s = transferTo (jumpTarget s.pc target) s := rfl

/-- Jal writes its link and takes the jump target from its own address (R705). -/
theorem exec_jal (target : BitVec 26) (s : State) :
    exec (.jal target) s = transferTo (jumpTarget s.pc target) (s.writeReg 31#5 (s.pc + 4)) := rfl

/-- The mask `0xF0000000` keeps the region number, the top 4 bits, at its place. -/
theorem toNat_and_regionMask (pc : Word) : (pc &&& 0xF0000000#32).toNat = 2 ^ 28 * (pc.toNat / 2 ^ 28) := by
  have hmask : 0xF0000000#32 = BitVec.allOnes 32 <<< 28 := by decide
  have hpc : pc.toNat < 2 ^ 32 := pc.isLt
  rw [hmask, ← BitVec.shiftLeft_ushiftRight, BitVec.toNat_shiftLeft, BitVec.toNat_ushiftRight, Nat.shiftRight_eq_div_pow, Nat.shiftLeft_eq]
  omega

/-- The target times four needs 28 bits, so extending and shifting it lose nothing. -/
theorem toNat_zeroExtend_shiftLeft_two (target : BitVec 26) :
    (target.zeroExtend 32 <<< 2).toNat = target.toNat * 4 := by
  have htarget : target.toNat < 2 ^ 26 := target.isLt
  rw [BitVec.toNat_shiftLeft, BitVec.toNat_setWidth, Nat.shiftLeft_eq]
  omega

/-- The region and the target times four share no bit, so the `|||` of R305 adds them. -/
theorem toNat_jumpTarget (pc : Word) (target : BitVec 26) :
    (jumpTarget pc target).toNat = pc.toNat / 2 ^ 28 * 2 ^ 28 + target.toNat * 4 := by
  have htarget : target.toNat * 4 < 2 ^ 28 := by
    have := target.isLt
    omega
  rw [jumpTarget, BitVec.toNat_or, toNat_and_regionMask, toNat_zeroExtend_shiftLeft_two,
    ← Nat.two_pow_add_eq_or_of_lt htarget, Nat.mul_comm]

theorem jumpTarget_aligned (pc : Word) (target : BitVec 26) : (jumpTarget pc target).toNat % 4 = 0 := by
  rw [toNat_jumpTarget]
  omega

theorem jumpTarget_region (pc : Word) (target : BitVec 26) :
    (jumpTarget pc target).toNat / 2 ^ 28 = pc.toNat / 2 ^ 28 := by
  have htarget : target.toNat < 2 ^ 26 := target.isLt
  rw [toNat_jumpTarget]
  omega

/-- Settles O13: the jump address as a sum of the region and the target times four, and the two jumps as transfers to
it. -/
theorem jumpTargetIsInTheJumpsOwnRegion : Obligations.JumpTargetIsInTheJumpsOwnRegion := by
  refine ⟨fun pc target => ⟨toNat_jumpTarget pc target, jumpTarget_aligned pc target, jumpTarget_region pc target⟩,
    fun s t target h => ?_⟩
  rcases h with hj | hjal
  · rw [exec_j] at hj
    exact transferTo_next_pc hj
  · rw [exec_jal] at hjal
    exact transferTo_next_pc hjal

end Sys2Proof.Machine

/-! One step (spec/40_execution_step.md): what it does to pc and the statistics, and what a fault leaves. The lemmas hold
in every state, so they say less of the cache than `exec_next` and `exec_fault` do of a sound one. -/

namespace Sys2Proof.Machine

/-! Pc and the statistics after `execute` (R403, R405, R406, R407). -/

/-- The loads an instruction that answers counts (R406). -/
def loadsCounted : Instr → Nat
  | .lw .. => 1
  | _ => 0

/-- The stores an instruction that answers counts (R406). -/
def storesCounted : Instr → Nat
  | .sw .. => 1
  | _ => 0

/-- How an instruction that answers leaves pc and the statistics: only the step counts `executed` and `branches`, and pc
moves only where `execute` returns true. -/
structure ExecStats (s u : State) (loads stores : Nat) : Prop where
  executed : u.executed = s.executed
  branches : u.branches = s.branches
  loads : u.loads = s.loads + loads
  stores : u.stores = s.stores + stores
  ends : (u.result = .continued false ∧ u.pc = s.pc) ∨ u.result = .continued true ∨
    (u.result = .programEnd ∧ u.pc = s.pc)

theorem writeResult_stats {rd : RegIndex} {v : Word} {s u : State} (h : writeResult rd v s = .next u) :
    ExecStats s u 0 0 := by
  cases h
  constructor <;> simp

theorem transferTo_stats {target : Word} {s u : State} (h : transferTo target s = .next u) : ExecStats s u 0 0 := by
  cases h
  constructor <;> simp

theorem branchIf_stats {taken : Bool} {imm : BitVec 16} {s u : State} (h : branchIf taken imm s = .next u) :
    ExecStats s u 0 0 := by
  cases taken with
  | true => exact transferTo_stats h
  | false =>
    rw [branchIf_false] at h
    cases h
    constructor <;> simp

/-- Jal's link register is written before the transfer and counts nothing (R705). -/
theorem execJal_stats {target : BitVec 26} {s u : State} (h : execJal target s = .next u) : ExecStats s u 0 0 := by
  cases h
  constructor <;> simp

theorem execLw_stats {rt rs : RegIndex} {imm : BitVec 16} {s u : State} (h : execLw rt rs imm s = .next u) :
    ExecStats s u 1 0 := by
  obtain ⟨v, m, -, rfl⟩ := execLw_next h
  constructor <;> simp

theorem execSw_stats {rt rs : RegIndex} {imm : BitVec 16} {s u : State} (h : execSw rt rs imm s = .next u) :
    ExecStats s u 0 1 := by
  obtain ⟨m, -, rfl⟩ := execSw_next h
  constructor <;> simp

/-- The print codes and the end of the program count nothing and leave pc (R800, R804). -/
theorem execSyscall_stats {s u : State} (h : execSyscall s = .next u) : ExecStats s u 0 0 := by
  rcases execSyscall_next h with ⟨-, rfl⟩ | ⟨-, bytes, -, rfl⟩ | ⟨-, rfl⟩ | ⟨-, rfl⟩ <;> constructor <;> simp

theorem exec_stats {i : Instr} {s u : State} (h : exec i s = .next u) :
    ExecStats s u (loadsCounted i) (storesCounted i) := by
  cases i with
  | add | sub | and | or | slt | sll | srl | addi | slti => exact writeResult_stats h
  | jr | j => exact transferTo_stats h
  | jal => exact execJal_stats h
  | beq | bne => exact branchIf_stats h
  | lw => exact execLw_stats h
  | sw => exact execSw_stats h
  | syscall => exact execSyscall_stats h

@[simp] theorem advance_loads (s : State) : (advance s).loads = s.loads := by rw [advance_frame]

@[simp] theorem advance_stores (s : State) : (advance s).stores = s.stores := by rw [advance_frame]

@[simp] theorem advance_result (s : State) : (advance s).result = s.result := by rw [advance_frame]

/-- The wrapping sum of R405, as the statements write it. -/
theorem word_add_four (a : Word) : a + 4 = BitVec.ofNat 32 (a.toNat + 4) := by
  rw [BitVec.ofNat_add, BitVec.ofNat_toNat, BitVec.setWidth_eq]
  rfl

/-- The end of the step, by what the instruction returned (R405, R406, R804). -/
theorem ExecStats.advance_cases {s u : State} {loads stores : Nat} (h : ExecStats s u loads stores) :
    (u.result = .continued false ∧ (advance u).pc = BitVec.ofNat 32 (s.pc.toNat + 4) ∧
      (advance u).executed = s.executed + 1 ∧ (advance u).branches = s.branches) ∨
    (u.result = .continued true ∧ (advance u).pc = u.pc ∧ (advance u).executed = s.executed + 1 ∧
      (advance u).branches = s.branches + 1) ∨
    (u.result = .programEnd ∧ (advance u).pc = s.pc ∧ (advance u).executed = s.executed ∧
      (advance u).branches = s.branches) := by
  rcases h.ends with ⟨hr, hpc⟩ | hr | ⟨hr, hpc⟩
  · rw [advance_next hr, ← h.executed, ← h.branches, ← hpc]
    exact .inl ⟨hr, word_add_four u.pc, rfl, rfl⟩
  · rw [advance_transfer hr, ← h.executed, ← h.branches]
    exact .inr (.inl ⟨hr, rfl, rfl, rfl⟩)
  · rw [advance_programEnd hr]
    exact .inr (.inr ⟨hr, hpc, h.executed, h.branches⟩)

/-! Faults (R409, R906). -/

/-- The fault was raised in the state `s`: its record has the pc of `s`, and it leaves `s` but for the model's own
`result`. -/
def RaisedIn (s : State) (f : Fault) : Prop :=
  faultAfter f = s.setResult .faulted ∧ (faultRecord f).2.2 = s.pc

theorem raise_raisedIn {cause : Cause} {info : Word} {s : State} {f : Fault} (h : raise cause info s = .fault f) :
    RaisedIn s f := by
  cases cause <;> (cases h; exact ⟨rfl, rfl⟩)

theorem branchIf_ne_fault (taken : Bool) (imm : BitVec 16) (s : State) (f : Fault) : branchIf taken imm s ≠ .fault f := by
  cases taken <;> nofun

/-- Lw that faults: what the word access did before it remains, and nothing else has changed. -/
theorem execLw_raisedIn {rt rs : RegIndex} {imm : BitVec 16} {s : State} {f : Fault} (h : execLw rt rs imm s = .fault f) :
    ∃ m, RaisedIn (s.setMsys m) f := by
  unfold execLw at h
  split at h
  · cases h
  · exact ⟨_, raise_raisedIn h⟩

/-- Sw that faults, as Lw. -/
theorem execSw_raisedIn {rt rs : RegIndex} {imm : BitVec 16} {s : State} {f : Fault} (h : execSw rt rs imm s = .fault f) :
    ∃ m, RaisedIn (s.setMsys m) f := by
  unfold execSw at h
  split at h
  · cases h
  · exact ⟨_, raise_raisedIn h⟩

theorem printString_raisedIn {s : State} {f : Fault} (h : printString s = .fault f) : RaisedIn s f := by
  unfold printString at h
  split at h
  · cases h
  · exact raise_raisedIn h

theorem execSyscall_raisedIn {s : State} {f : Fault} (h : execSyscall s = .fault f) : RaisedIn s f := by
  unfold execSyscall at h
  split at h
  · cases h
  · exact printString_raisedIn h
  · cases h
  · cases h
  · exact raise_raisedIn h

/-- An instruction that faults, in any state: only the cache and Memory may have changed. -/
theorem exec_raisedIn {i : Instr} {s : State} {f : Fault} (h : exec i s = .fault f) :
    ∃ m, RaisedIn (s.setMsys m) f := by
  cases i with
  | add | sub | and | or | slt | sll | srl | addi | slti | jr | j | jal => cases h
  | beq | bne => exact absurd h (branchIf_ne_fault _ _ _ _)
  | lw => exact execLw_raisedIn h
  | sw => exact execSw_raisedIn h
  | syscall => exact ⟨s.msys, execSyscall_raisedIn h⟩

theorem complete_fault {o : Host.Outcome State Fault Refusal} {f : Fault} (h : complete o = .fault f) : o = .fault f := by
  cases o with
  | next u => cases h
  | fault g => exact h
  | refused r => cases h

/-- A step that faults: in the fetch, on an Invalid word, or in the instruction (R907). -/
theorem step_fault {s : State} {f : Fault} (h : step s = .fault f) :
    (∃ a m, fetch s = .fault a m ∧ RaisedIn (s.setMsys m) f) ∨
    ∃ w m, fetch s = .done w m ∧
      (RaisedIn (beginExecute s w m) f ∨ ∃ i, exec i (beginExecute s w m) = .fault f) := by
  unfold step at h
  split at h
  · rename_i a m hf
    exact .inl ⟨a, m, hf, raise_raisedIn h⟩
  · rename_i w m hf
    split at h
    · exact .inr ⟨w, m, hf, .inl (raise_raisedIn h)⟩
    · rename_i i hd
      exact .inr ⟨w, m, hf, .inr ⟨i, complete_fault h⟩⟩

/-- A step that faults, in any state: it leaves the state but for the cache and Memory, and the model's own raw word and
`result`. -/
theorem step_raisedIn {s : State} {f : Fault} (h : step s = .fault f) : ∃ w m, RaisedIn (beginExecute s w m) f := by
  rcases step_fault h with ⟨a, m, -, hr⟩ | ⟨w, m, -, hr | ⟨i, hi⟩⟩
  · exact ⟨s.fetched, m, hr⟩
  · exact ⟨w, m, hr⟩
  · obtain ⟨m', hr⟩ := exec_raisedIn hi
    exact ⟨w, m', hr⟩

theorem fetch_done_sound {s : State} {w : Word} {m : MemSys} (hm : MemOk s.cfg s.msys) (h : fetch s = .done w m) :
    MemOk s.cfg m ∧ ∀ x, m.peek x = s.msys.peek x := by
  by_cases hp : s.pc.toNat + 3 < s.cfg.memSize
  · obtain ⟨m', hf, hacc, hpeek⟩ := fetch_inside hm hp
    rw [h] at hf
    cases hf
    exact ⟨hacc.ok, hpeek⟩
  · rw [fetch_outside (Nat.le_of_not_lt hp)] at h
    cases h

theorem fetch_fault_sound {s : State} {a : Word} {m : MemSys} (hm : MemOk s.cfg s.msys) (h : fetch s = .fault a m) :
    m = s.msys := by
  by_cases hp : s.pc.toNat + 3 < s.cfg.memSize
  · obtain ⟨m', hf, -⟩ := fetch_inside hm hp
    rw [h] at hf
    cases hf
  · rw [fetch_outside (Nat.le_of_not_lt hp)] at h
    cases h
    rfl

/-- A step of a sound state that faults leaves of the cache and Memory what its fetch left: an instruction that faults
has touched neither (R409). -/
theorem step_fault_msys {s : State} {f : Fault} (hm : MemOk s.cfg s.msys) (h : step s = .fault f) :
    (∃ a m, fetch s = .fault a m ∧ (faultAfter f).msys = s.msys) ∨
    ∃ w, fetch s = .done w (faultAfter f).msys := by
  rcases step_fault h with ⟨a, m, hf, hr, -⟩ | ⟨w, m, hf, ⟨hr, -⟩ | ⟨i, hi⟩⟩
  · refine .inl ⟨a, m, hf, ?_⟩
    rw [hr]
    exact fetch_fault_sound hm hf
  · refine .inr ⟨w, ?_⟩
    rw [hr]
    exact hf
  · obtain ⟨hsound, -⟩ := fetch_done_sound hm hf
    obtain ⟨hr, -⟩ := exec_fault (s := beginExecute s w m) hsound hi
    refine .inr ⟨w, ?_⟩
    rw [hr]
    exact hf

/-- Settles O28: the counts and the pc of the instruction (`exec_stats`), then the end of the step by what it returned;
a fault leaves the counters of the state it is raised in. -/
theorem stepAdvancesPcAndStatistics : Obligations.StepAdvancesPcAndStatistics := by
  refine ⟨fun s t h => ?_, fun s f h => ?_⟩
  · obtain ⟨w, m, i, u, hf, hd, hu, rfl⟩ := step_next h
    have hs := exec_stats hu
    refine ⟨w, m, i, u, hf, hd, hu, advance_result u, hs.advance_cases, ?_, ?_⟩
    · rw [advance_loads, hs.loads]
      rfl
    · rw [advance_stores, hs.stores]
      rfl
  · obtain ⟨w, m, hr, -⟩ := step_raisedIn h
    rw [hr]
    exact ⟨rfl, rfl⟩

/-- Settles O32: outside the cache a fault leaves the state the step started from (`step_raisedIn`), and in a sound
state the cache and Memory are as the fetch left them (`step_fault_msys`). -/
theorem faultsArePrecise : Obligations.FaultsArePrecise := by
  intro s f h
  obtain ⟨w, m, hr, hpc⟩ := step_raisedIn h
  have hframe : sameRegs s (faultAfter f) ∧ (faultAfter f).pc = s.pc ∧ sameFixed s (faultAfter f) ∧
      sameStats s (faultAfter f) ∧ (faultAfter f).output = s.output := by
    rw [hr]
    exact ⟨fun _ => rfl, rfl, ⟨rfl, rfl, rfl⟩, ⟨rfl, rfl, rfl, rfl⟩, rfl⟩
  obtain ⟨hregs, hpcAfter, hfixed, hstats, hout⟩ := hframe
  refine ⟨hregs, hpcAfter, hpc, hfixed, hstats, hout, fun hm => ?_⟩
  rcases step_fault_msys hm h with ⟨a, m₁, hf, hkept⟩ | ⟨w₁, hf⟩
  · refine ⟨fun w' m' hd => ?_, fun _ => hkept, fun a => by rw [hkept]⟩
    rw [hf] at hd
    cases hd
  · obtain ⟨-, hpeek⟩ := fetch_done_sound hm hf
    refine ⟨fun w' m' hd => ?_, fun hnot => absurd hf (hnot _ _), hpeek⟩
    rw [hf] at hd
    cases hd
    rfl

end Sys2Proof.Machine

/-! Syscall (spec/44_syscall.md): the print codes that read one register, and an unrecognised code. -/

namespace Sys2Proof.Machine

/-! What Syscall does for a code in `x[2]` (R800, D29). -/

/-- Code 1 (R802). -/
theorem exec_syscall_one {s : State} (h : s.readReg 2#5 = 1#32) :
    exec .syscall s = printEvent (.printInt (s.readReg 4#5).toInt) s := by
  simp only [exec, execSyscall, h]

/-- Code 11 (R805). -/
theorem exec_syscall_eleven {s : State} (h : s.readReg 2#5 = 11#32) :
    exec .syscall s = printEvent (.printChar ((s.readReg 4#5).setWidth 8)) s := by
  simp only [exec, execSyscall, h]

/-- A code that is none of the four, as a whole word, carries the raw word into the fault (R806). -/
theorem exec_syscall_unrecognised {s : State} (h : s.readReg 2#5 ∉ [1#32, 4#32, 10#32, 11#32]) :
    exec .syscall s = raise .invalidInstruction s.fetched s := by
  obtain ⟨hone, hfour, hten, heleven⟩ : s.readReg 2#5 ≠ 1#32 ∧ s.readReg 2#5 ≠ 4#32 ∧ s.readReg 2#5 ≠ 10#32 ∧
      s.readReg 2#5 ≠ 11#32 := by simpa using h
  change execSyscall s = _
  unfold execSyscall
  split
  · next hcode => exact absurd hcode hone
  · next hcode => exact absurd hcode hfour
  · next hcode => exact absurd hcode hten
  · next hcode => exact absurd hcode heleven
  · rfl

/-! The print codes. -/

/-- A print syscall appends its event and touches nothing else but `result` (R800, R801). -/
theorem printEvent_printNext (e : Event) (s : State) : ∃ t, printEvent e s = .next t ∧ printNext s t e :=
  ⟨(s.emit e).finish false, rfl, rfl, rfl, rfl, fun _ => rfl, ⟨rfl, rfl, rfl⟩, ⟨rfl, rfl, rfl, rfl⟩, rfl, fun _ => rfl,
    rfl⟩

/-- Settles O20: code 1 is the print of the signed argument, and a print leaves what `printNext` says. -/
theorem syscallOnePrintsASignedInteger : Obligations.SyscallOnePrintsASignedInteger := by
  intro s h
  rw [exec_syscall_one h]
  exact printEvent_printNext _ s

/-- The low byte of a word, as R805 writes it. -/
theorem setWidth_eight_eq_ofNat_mod (w : Word) : w.setWidth 8 = BitVec.ofNat 8 (w.toNat % 256) :=
  BitVec.eq_of_toNat_eq (by simp)

/-- Settles O21: code 11 is the print of the argument's low 8 bits, which are its value modulo 256. -/
theorem syscallElevenPrintsTheLowByte : Obligations.SyscallElevenPrintsTheLowByte := by
  intro s h
  rw [exec_syscall_eleven h, setWidth_eight_eq_ofNat_mod]
  exact printEvent_printNext _ s

/-! The unrecognised code, in a step. -/

/-- A step whose fetch answers an instruction's word is that instruction, completed (R400). -/
theorem step_of_fetch_decode {s : State} {w : Word} {m : MemSys} {i : Instr} (hf : fetch s = .done w m)
    (hd : decode w = .instr i) : step s = complete (exec i (beginExecute s w m)) := by
  simp only [step, hf, hd]

/-- Nothing happens after a fault: `complete` passes it on (R400, R409). -/
theorem complete_faultsFrom {o : Host.Outcome State Fault Refusal} {cause : Cause} {info : Word} {s : State}
    (h : faultsFrom o cause info s) : faultsFrom (complete o) cause info s := by
  obtain ⟨f, rfl, hrecord, hafter⟩ := h
  exact ⟨f, rfl, hrecord, hafter⟩

/-- Settles O25: the step is a completed Syscall, which raises with the word that the fetch answered; the fault leaves
the output and the pc of the state `execute` started from, and the fetch changed neither. -/
theorem unrecognisedSyscallCodeFaults : Obligations.UnrecognisedSyscallCodeFaults := by
  intro s w m hf hd hcode
  have hexec : exec .syscall (beginExecute s w m) = raise .invalidInstruction w (beginExecute s w m) :=
    exec_syscall_unrecognised hcode
  obtain ⟨f, hstep, hrecord, hafter⟩ :=
    complete_faultsFrom (raise_faults .invalidInstruction w (beginExecute s w m))
  refine ⟨f, ?_, hrecord, ?_, ?_⟩
  · rw [step_of_fetch_decode hf hd, hexec, hstep]
  · rw [hafter, beginExecute_output]
  · rw [hafter, beginExecute_pc]

end Sys2Proof.Machine

/-! Encoding (spec/30_encoding.md): the decoder against the encoder, the illegal space, and the byte order. -/

namespace Sys2Proof

/-! Decoding what the encoder writes. -/

/-- A word of opcode 0 goes to the funct map, where its funct selects the row (R310). -/
theorem decode_encodeR (rs rt rd : RegIndex) (shamt : BitVec 5) (funct : BitVec 6) :
    decode (encodeR rs rt rd shamt funct) = decodeFunct (encodeR rs rt rd shamt funct) := by
  simp only [decode, opcodeOf_encodeR]

/-- Settles O1: the opcode, or for R-format the funct, that the encoder writes selects the instruction's own row, and
each field reads back what was written there. -/
theorem decodeOfEncodeIsTheInstruction : Obligations.DecodeOfEncodeIsTheInstruction := by
  intro i
  cases i with
  | add | sub | and | or | slt | sll | srl | jr | syscall => simp [encode, decode_encodeR, decodeFunct]
  | addi | slti | lw | sw | beq | bne => simp [encode, decode]
  | j | jal => simp [encode, decode]

/-! The bits that a row uses (R302, R311). A mask that covers a field keeps it; a word is the concatenation of its
fields, so masking the unused ones leaves the encoding. -/

/-- A field that the mask covers reads the same from the word and from the masked word. -/
theorem extractLsb'_of_and_eq {w mask e : Word} {start len : Nat} (h : w &&& mask = e)
    (hmask : mask.extractLsb' start len = BitVec.allOnes len) : w.extractLsb' start len = e.extractLsb' start len := by
  rw [← h, BitVec.extractLsb'_and, hmask, BitVec.and_allOnes]

/-- A word of opcode 0 is made of its R-format fields (R301). -/
theorem eq_encodeR {w : Word} (h : opcodeOf w = 0x00#6) :
    w = encodeR (rsOf w) (rtOf w) (rdOf w) (shamtOf w) (functOf w) := by
  refine BitVec.eq_of_getLsbD_eq fun k hk => ?_
  have hop : ∀ j, 26 ≤ j → j < 32 → w.getLsbD j = false := fun j hlow hhigh => by
    have hbit := congrArg (fun v : BitVec 6 => v.getLsbD (j - 26)) h
    simpa [opcodeOf, show j - 26 < 6 by omega, Nat.add_sub_cancel' hlow] using hbit
  rw [getLsbD_encodeR]
  simp only [rsOf, rtOf, rdOf, shamtOf, functOf, BitVec.getLsbD_extractLsb']
  split_ifs <;> grind

/-- Any word is made of its I-format fields (R301). -/
theorem eq_encodeI (w : Word) : w = encodeI (opcodeOf w) (rsOf w) (rtOf w) (immOf w) := by
  refine BitVec.eq_of_getLsbD_eq fun k hk => ?_
  rw [getLsbD_encodeI]
  simp only [opcodeOf, rsOf, rtOf, immOf, BitVec.getLsbD_extractLsb']
  split_ifs <;> grind

/-- Any word is made of its J-format fields (R301). -/
theorem eq_encodeJ (w : Word) : w = encodeJ (opcodeOf w) (targetOf w) := by
  refine BitVec.eq_of_getLsbD_eq fun k hk => ?_
  rw [getLsbD_encodeJ]
  simp only [opcodeOf, targetOf, BitVec.getLsbD_extractLsb']
  split_ifs <;> grind


theorem encodeR_and_threeReg (rs rt rd : RegIndex) (shamt : BitVec 5) (funct : BitVec 6) :
    encodeR rs rt rd shamt funct &&& 0xFFFFF83F#32 = encodeR rs rt rd 0 funct := by
  refine BitVec.eq_of_getLsbD_eq fun k hk => ?_
  rw [BitVec.getLsbD_and, getLsbD_encodeR, getLsbD_encodeR]
  interval_cases k <;> simp

theorem encodeR_and_shift (rs rt rd : RegIndex) (shamt : BitVec 5) (funct : BitVec 6) :
    encodeR rs rt rd shamt funct &&& 0xFC1FFFFF#32 = encodeR 0 rt rd shamt funct := by
  refine BitVec.eq_of_getLsbD_eq fun k hk => ?_
  rw [BitVec.getLsbD_and, getLsbD_encodeR, getLsbD_encodeR]
  interval_cases k <;> simp

theorem encodeR_and_jr (rs rt rd : RegIndex) (shamt : BitVec 5) (funct : BitVec 6) :
    encodeR rs rt rd shamt funct &&& 0xFFE0003F#32 = encodeR rs 0 0 0 funct := by
  refine BitVec.eq_of_getLsbD_eq fun k hk => ?_
  rw [BitVec.getLsbD_and, getLsbD_encodeR, getLsbD_encodeR]
  interval_cases k <;> simp

theorem encodeR_and_syscall (rs rt rd : RegIndex) (shamt : BitVec 5) (funct : BitVec 6) :
    encodeR rs rt rd shamt funct &&& 0xFC00003F#32 = encodeR 0 0 0 0 funct := by
  refine BitVec.eq_of_getLsbD_eq fun k hk => ?_
  rw [BitVec.getLsbD_and, getLsbD_encodeR, getLsbD_encodeR]
  interval_cases k <;> simp

/-! What the mask of each format leaves of a word, from its opcode and funct. -/

theorem and_threeReg {w : Word} {funct : BitVec 6} (hop : opcodeOf w = 0x00#6) (hfunct : functOf w = funct) :
    w &&& 0xFFFFF83F#32 = encodeR (rsOf w) (rtOf w) (rdOf w) 0 funct := by
  rw [← hfunct, ← encodeR_and_threeReg _ _ _ (shamtOf w), ← eq_encodeR hop]

theorem and_shift {w : Word} {funct : BitVec 6} (hop : opcodeOf w = 0x00#6) (hfunct : functOf w = funct) :
    w &&& 0xFC1FFFFF#32 = encodeR 0 (rtOf w) (rdOf w) (shamtOf w) funct := by
  rw [← hfunct, ← encodeR_and_shift (rsOf w), ← eq_encodeR hop]

theorem and_jr {w : Word} {funct : BitVec 6} (hop : opcodeOf w = 0x00#6) (hfunct : functOf w = funct) :
    w &&& 0xFFE0003F#32 = encodeR (rsOf w) 0 0 0 funct := by
  rw [← hfunct, ← encodeR_and_jr _ (rtOf w) (rdOf w) (shamtOf w), ← eq_encodeR hop]

theorem and_syscall {w : Word} {funct : BitVec 6} (hop : opcodeOf w = 0x00#6) (hfunct : functOf w = funct) :
    w &&& 0xFC00003F#32 = encodeR 0 0 0 0 funct := by
  rw [← hfunct, ← encodeR_and_syscall (rsOf w) (rtOf w) (rdOf w) (shamtOf w), ← eq_encodeR hop]

theorem and_allOnes_encodeI {w : Word} {opcode : BitVec 6} (hop : opcodeOf w = opcode) :
    w &&& 0xFFFFFFFF#32 = encodeI opcode (rsOf w) (rtOf w) (immOf w) := by
  rw [← hop, ← eq_encodeI]
  exact BitVec.and_allOnes

theorem and_allOnes_encodeJ {w : Word} {opcode : BitVec 6} (hop : opcodeOf w = opcode) :
    w &&& 0xFFFFFFFF#32 = encodeJ opcode (targetOf w) := by
  rw [← hop, ← eq_encodeJ]
  exact BitVec.and_allOnes

/-- A word of the funct map, on the bits its row uses. -/
theorem encode_of_decodeFunct {w : Word} {i : Instr} (hop : opcodeOf w = 0x00#6) (h : decodeFunct w = .instr i) :
    w &&& usedMask i = encode i := by
  unfold decodeFunct at h
  split at h
  iterate 5 next hf => cases h; exact and_threeReg hop hf
  iterate 2 next hf => cases h; exact and_shift hop hf
  · next hf => cases h; exact and_jr hop hf
  · next hf => cases h; exact and_syscall hop hf
  · cases h

/-- A word that decodes to an instruction is its encoding on the bits the row uses: its opcode and funct are the row's,
and the instruction's operands are the word's own fields. -/
theorem encode_of_decode {w : Word} {i : Instr} (h : decode w = .instr i) : w &&& usedMask i = encode i := by
  unfold decode at h
  split at h
  · next hop => exact encode_of_decodeFunct hop h
  iterate 6 next hop => cases h; exact and_allOnes_encodeI hop
  iterate 2 next hop => cases h; exact and_allOnes_encodeJ hop
  · cases h

/-- The fields of a word whose used bits are an encoding: the opcode, the funct and each operand field. -/
theorem fields_threeReg {w : Word} {rs rt rd : RegIndex} {funct : BitVec 6}
    (h : w &&& 0xFFFFF83F#32 = encodeR rs rt rd 0 funct) :
    opcodeOf w = 0x00#6 ∧ functOf w = funct ∧ rsOf w = rs ∧ rtOf w = rt ∧ rdOf w = rd :=
  ⟨(extractLsb'_of_and_eq h (by decide)).trans (opcodeOf_encodeR rs rt rd 0 funct),
    (extractLsb'_of_and_eq h (by decide)).trans (functOf_encodeR rs rt rd 0 funct),
    (extractLsb'_of_and_eq h (by decide)).trans (rsOf_encodeR rs rt rd 0 funct),
    (extractLsb'_of_and_eq h (by decide)).trans (rtOf_encodeR rs rt rd 0 funct),
    (extractLsb'_of_and_eq h (by decide)).trans (rdOf_encodeR rs rt rd 0 funct)⟩

theorem fields_shift {w : Word} {rt rd : RegIndex} {shamt : BitVec 5} {funct : BitVec 6}
    (h : w &&& 0xFC1FFFFF#32 = encodeR 0 rt rd shamt funct) :
    opcodeOf w = 0x00#6 ∧ functOf w = funct ∧ rtOf w = rt ∧ rdOf w = rd ∧ shamtOf w = shamt :=
  ⟨(extractLsb'_of_and_eq h (by decide)).trans (opcodeOf_encodeR 0 rt rd shamt funct),
    (extractLsb'_of_and_eq h (by decide)).trans (functOf_encodeR 0 rt rd shamt funct),
    (extractLsb'_of_and_eq h (by decide)).trans (rtOf_encodeR 0 rt rd shamt funct),
    (extractLsb'_of_and_eq h (by decide)).trans (rdOf_encodeR 0 rt rd shamt funct),
    (extractLsb'_of_and_eq h (by decide)).trans (shamtOf_encodeR 0 rt rd shamt funct)⟩

theorem fields_jr {w : Word} {rs : RegIndex} {funct : BitVec 6} (h : w &&& 0xFFE0003F#32 = encodeR rs 0 0 0 funct) :
    opcodeOf w = 0x00#6 ∧ functOf w = funct ∧ rsOf w = rs :=
  ⟨(extractLsb'_of_and_eq h (by decide)).trans (opcodeOf_encodeR rs 0 0 0 funct),
    (extractLsb'_of_and_eq h (by decide)).trans (functOf_encodeR rs 0 0 0 funct),
    (extractLsb'_of_and_eq h (by decide)).trans (rsOf_encodeR rs 0 0 0 funct)⟩

theorem fields_syscall {w : Word} {funct : BitVec 6} (h : w &&& 0xFC00003F#32 = encodeR 0 0 0 0 funct) :
    opcodeOf w = 0x00#6 ∧ functOf w = funct :=
  ⟨(extractLsb'_of_and_eq h (by decide)).trans (opcodeOf_encodeR 0 0 0 0 funct),
    (extractLsb'_of_and_eq h (by decide)).trans (functOf_encodeR 0 0 0 0 funct)⟩

/-- The converse: the used bits of a word fix what it decodes to, since decoding reads no other. -/
theorem decode_of_encode {w : Word} {i : Instr} (h : w &&& usedMask i = encode i) : decode w = .instr i := by
  cases i with
  | add | sub | and | or | slt =>
    obtain ⟨hop, hfunct, hrs, hrt, hrd⟩ := fields_threeReg h
    simp only [decode, decodeFunct, hop, hfunct, hrs, hrt, hrd]
  | sll | srl =>
    obtain ⟨hop, hfunct, hrt, hrd, hshamt⟩ := fields_shift h
    simp only [decode, decodeFunct, hop, hfunct, hrt, hrd, hshamt]
  | jr =>
    obtain ⟨hop, hfunct, hrs⟩ := fields_jr h
    simp only [decode, decodeFunct, hop, hfunct, hrs]
  | syscall =>
    obtain ⟨hop, hfunct⟩ := fields_syscall h
    simp only [decode, decodeFunct, hop, hfunct]
  | addi | slti | lw | sw | beq | bne | j | jal =>
    have hw : w = encode _ := BitVec.and_allOnes.symm.trans h
    rw [hw]
    exact decodeOfEncodeIsTheInstruction _

/-- Every instruction is on its own row of the opcode table. -/
theorem encode_and_rowMask (i : Instr) : encode i &&& rowMask i = rowMatch i := by
  cases i with
  | add | sub | and | or | slt | sll | srl | jr | syscall => exact encodeR_mask _ _ _ _ _
  | addi | slti | lw | sw | beq | bne => exact encodeI_mask _ _ _ _
  | j | jal => exact encodeJ_mask _ _

/-- A row uses every bit it fixes. -/
theorem usedMask_and_rowMask (i : Instr) : usedMask i &&& rowMask i = rowMask i := by
  cases i with
  | add | sub | and | or | slt => exact (by decide : 0xFFFFF83F#32 &&& 0xFC00003F#32 = 0xFC00003F#32)
  | sll | srl => exact (by decide : 0xFC1FFFFF#32 &&& 0xFC00003F#32 = 0xFC00003F#32)
  | jr => exact (by decide : 0xFFE0003F#32 &&& 0xFC00003F#32 = 0xFC00003F#32)
  | syscall => exact (by decide : 0xFC00003F#32 &&& 0xFC00003F#32 = 0xFC00003F#32)
  | addi | slti | lw | sw | beq | bne | j | jal =>
    exact (by decide : 0xFFFFFFFF#32 &&& 0xFC000000#32 = 0xFC000000#32)

/-- Settles O2: decoding to `i` is the same as agreeing with `encode i` on its used bits, and the bits its row fixes are
among them. -/
theorem decodeReadsExactlyTheUsedBits : Obligations.DecodeReadsExactlyTheUsedBits := by
  refine ⟨fun w i h => ⟨encode_of_decode h, ?_⟩, fun w i h => decode_of_encode h⟩
  calc w &&& rowMask i
      = (w &&& usedMask i) &&& rowMask i := by rw [BitVec.and_assoc, usedMask_and_rowMask]
    _ = encode i &&& rowMask i := by rw [encode_of_decode h]
    _ = rowMatch i := encode_and_rowMask i

/-! The illegal space (R312). -/

theorem decodeFunct_invalid_iff {w u : Word} : decodeFunct w = .invalid u ↔
    u = w ∧ functOf w ∉ [0x00#6, 0x02#6, 0x08#6, 0x0C#6, 0x20#6, 0x22#6, 0x24#6, 0x25#6, 0x2A#6] := by
  unfold decodeFunct
  split
  iterate 9 next hf => simp [hf]
  · simp_all [eq_comm]

theorem decode_invalid_iff {w u : Word} : decode w = .invalid u ↔
    u = w ∧ ((opcodeOf w = 0x00#6 ∧
        functOf w ∉ [0x00#6, 0x02#6, 0x08#6, 0x0C#6, 0x20#6, 0x22#6, 0x24#6, 0x25#6, 0x2A#6]) ∨
      opcodeOf w ∉ [0x00#6, 0x02#6, 0x03#6, 0x04#6, 0x05#6, 0x08#6, 0x0A#6, 0x23#6, 0x2B#6]) := by
  unfold decode
  split
  · next hop => rw [decodeFunct_invalid_iff]; simp [hop]
  iterate 8 next hop => simp [hop]
  · simp_all [eq_comm]

/-- Settles O3: both tables' defaults answer `Invalid` of the word itself, and no row does. -/
theorem invalidExactlyOnTheIllegalSpace : Obligations.InvalidExactlyOnTheIllegalSpace := by
  refine fun w => ⟨⟨fun ⟨u, h⟩ => (decode_invalid_iff.1 h).2, fun h => ⟨w, decode_invalid_iff.2 ⟨rfl, h⟩⟩⟩,
    fun u h => (decode_invalid_iff.1 h).1⟩

/-- Settles O4: each word evaluates to the instruction the spec's vector names. -/
theorem wordsWrittenFromTheSpecDecode : Obligations.WordsWrittenFromTheSpecDecode := by
  unfold Obligations.WordsWrittenFromTheSpecDecode
  decide

/-- Settles O6: each example of R320's table evaluates to its text. -/
theorem disassemblyFollowsTheExamples : Obligations.DisassemblyFollowsTheExamples := by
  unfold Obligations.DisassemblyFollowsTheExamples
  decide

/-! Byte order (R203, R300). -/

/-- The four bytes of a word, put together again, are the word. -/
@[simp] theorem wordOfBytes_byteOf (w : Word) :
    wordOfBytes (byteOf w 0) (byteOf w 1) (byteOf w 2) (byteOf w 3) = w := by
  refine BitVec.eq_of_getLsbD_eq fun k hk => ?_
  simp only [wordOfBytes, byteOf, BitVec.getLsbD_append, BitVec.getLsbD_extractLsb']
  split_ifs <;> grind

theorem toNat_wordOfBytes (b0 b1 b2 b3 : Byte) : (wordOfBytes b0 b1 b2 b3).toNat =
    b0.toNat + 2 ^ 8 * b1.toNat + 2 ^ 16 * b2.toNat + 2 ^ 24 * b3.toNat := by
  simp only [wordOfBytes, BitVec.toNat_append]
  rw [← Nat.shiftLeft_add_eq_or_of_lt b2.isLt, ← Nat.shiftLeft_add_eq_or_of_lt b1.isLt,
    ← Nat.shiftLeft_add_eq_or_of_lt b0.isLt]
  simp only [Nat.shiftLeft_eq]
  omega

/-- Settles O5: the round trip, the weight of each byte, and so the decoding of a word's four bytes. -/
theorem wordsAreLittleEndian : Obligations.WordsAreLittleEndian := by
  refine ⟨wordOfBytes_byteOf, toNat_wordOfBytes, fun w rest => ?_⟩
  have hbytes : (leBytes w).toList ++ rest = byteOf w 0 :: byteOf w 1 :: byteOf w 2 :: byteOf w 3 :: rest := rfl
  cases hd : decode w with
  | instr i => simp only [hbytes, decodeBytes, wordOfBytes_byteOf, hd]
  | invalid u => simp only [hbytes, decodeBytes, wordOfBytes_byteOf, hd]

end Sys2Proof

/-! The invariant of the machine (`State.Inv`): what `execute` starts from has it, the end of the step restores the part
that an instruction opens (its own load, store or transfer is not yet counted as executed), and a fault leaves a state
that has it. -/

namespace Sys2Proof.Machine

/-- A word access counts each of its four byte accesses as a hit or a miss, and writes back only on a miss. -/
theorem WordAccess.counted {c : Config} {a : Word} {m m' : MemSys} (h : WordAccess c a m m')
    (hcount : m.cache.hits + m.cache.misses = m.cache.accessCounter) (hwb : m.cache.writebacks ≤ m.cache.misses) :
    m'.cache.hits + m'.cache.misses = m'.cache.accessCounter ∧ m'.cache.writebacks ≤ m'.cache.misses := by
  have hac := h.accessCounter
  obtain ⟨hsum, -, -, -, hwrites⟩ := h.counts
  omega

/-- A fetch that answers is inside Memory, and is a word access at pc that changes no byte (R401). -/
theorem fetch_done {s : State} {w : Word} {m : MemSys} (hm : MemOk s.cfg s.msys) (h : fetch s = .done w m) :
    s.pc.toNat + 3 < s.cfg.memSize ∧ w = s.msys.peekWord s.pc ∧ WordAccess s.cfg s.pc s.msys m ∧
      ∀ x, m.peek x = s.msys.peek x := by
  by_cases hp : s.pc.toNat + 3 < s.cfg.memSize
  · obtain ⟨m', hf, hacc, hpeek⟩ := fetch_inside hm hp
    rw [h] at hf
    cases hf
    exact ⟨hp, rfl, hacc, hpeek⟩
  · rw [fetch_outside (Nat.le_of_not_lt hp)] at h
    cases h

/-- A step that faults from a sound state faults in the fetch, which has then changed nothing, or after it, and then it
leaves the state `execute` started from (R409). -/
theorem step_fault_sound {s : State} {f : Fault} (hm : MemOk s.cfg s.msys) (h : step s = .fault f) :
    faultAfter f = s.setResult .faulted ∨
    ∃ w m, fetch s = .done w m ∧ faultAfter f = (beginExecute s w m).setResult .faulted := by
  rcases step_fault h with ⟨a, m, hf, hr, -⟩ | ⟨w, m, hf, ⟨hr, -⟩ | ⟨i, hi⟩⟩
  · rw [fetch_fault_sound hm hf] at hr
    exact .inl hr
  · exact .inr ⟨w, m, hf, hr⟩
  · obtain ⟨hr, -⟩ := exec_fault (s := beginExecute s w m) (fetch_done_sound hm hf).1 hi
    exact .inr ⟨w, m, hf, hr⟩

theorem inv_setResult {s : State} (h : s.Inv) (r : StepResult) : (s.setResult r).Inv where
  mem := h.mem
  zero := h.zero
  hi := h.hi
  lo := h.lo
  counted := h.counted
  writebacks := h.writebacks
  kinds := h.kinds
  events := h.events

/-- The fetch keeps the invariant: it only accesses the cache. -/
theorem inv_beginExecute {s : State} {w : Word} {m : MemSys} (h : s.Inv) (hf : fetch s = .done w m) :
    (beginExecute s w m).Inv := by
  obtain ⟨-, -, hacc, -⟩ := fetch_done h.mem hf
  obtain ⟨hcounted, hwb⟩ := hacc.counted h.counted h.writebacks
  exact {
    mem := hacc.ok
    zero := h.zero
    hi := h.hi
    lo := h.lo
    counted := hcounted
    writebacks := hwb
    kinds := h.kinds
    events := h.events }

/-- The counters of the cache after an instruction that answers. -/
theorem ExecNext.counted {s u : State} (hx : ExecNext s u) (h : s.Inv) :
    u.msys.cache.hits + u.msys.cache.misses = u.msys.cache.accessCounter ∧
      u.msys.cache.writebacks ≤ u.msys.cache.misses := by
  rcases hx.access with hsame | ⟨a, hacc⟩
  · rw [hsame]
    exact ⟨h.counted, h.writebacks⟩
  · exact hacc.counted h.counted h.writebacks

/-- Only allowed events are appended (R801). -/
theorem ExecNext.events {s u : State} (hx : ExecNext s u) (h : s.Inv) : ∀ e ∈ u.output, e.ok := by
  rcases hx.output with hsame | ⟨e, happend, hok⟩
  · rw [hsame]
    exact h.events
  · rw [happend]
    intro e' he
    rcases List.mem_append.1 he with he | he
    · exact h.events e' he
    · rw [List.mem_singleton.1 he]
      exact hok

/-- A completed instruction is one of a load, a store and a taken transfer at most, and is counted once (R406). -/
theorem ExecNext.advance_kinds {s u : State} (hx : ExecNext s u) (h : s.Inv) :
    (advance u).loads + (advance u).stores + (advance u).branches ≤ (advance u).executed := by
  have hkinds := h.kinds
  have hexecuted := hx.executed
  have hbranches := hx.branches
  obtain ⟨-, hone⟩ := hx.counts
  rcases hx.result with hr | ⟨hr, hloads, hstores⟩ | rfl
  · rw [advance_next hr]
    dsimp only
    omega
  · rw [advance_transfer hr]
    dsimp only
    omega
  · exact hkinds

/-- The end of the step restores the invariant after an instruction that answers. -/
theorem ExecNext.inv_advance {s u : State} (hx : ExecNext s u) (h : s.Inv) : (advance u).Inv := by
  obtain ⟨hcounted, hwb⟩ := hx.counted h
  refine ⟨?_, ?_, ?_, ?_, ?_, ?_, hx.advance_kinds h, ?_⟩ <;> rw [advance_frame]
  · exact hx.mem
  · exact hx.slotZero.trans h.zero
  · exact hx.hi.trans h.hi
  · exact hx.lo.trans h.lo
  · exact hcounted
  · exact hwb
  · exact hx.events h

/-- Settles O36: the fetch keeps the invariant (`inv_beginExecute`), an instruction with the end of its step keeps it
(`ExecNext.inv_advance`), and a fault leaves the state of before or after the fetch. -/
theorem everyStepKeepsTheInvariant : Obligations.EveryStepKeepsTheInvariant := by
  refine fun s h => ⟨fun t ht => ?_, fun f hf => ?_⟩
  · obtain ⟨w, m, i, u, hfetch, -, hu, rfl⟩ := step_next ht
    have hbegin := inv_beginExecute h hfetch
    exact (exec_next hbegin.mem hu).inv_advance hbegin
  · rcases step_fault_sound h.mem hf with hr | ⟨w, m, hfetch, hr⟩
    · rw [hr]
      exact inv_setResult h _
    · rw [hr]
      exact inv_setResult (inv_beginExecute h hfetch) _

theorem constructed_line (c : Config) (s : Fin 64) (w : Fin 4) :
    (State.constructed c).msys.cache.line s w = CacheLine.fresh := by
  simp [State.constructed, Cache.line, Cache.fresh]

/-- Settles O37: no line is valid, Memory is empty and every counter is 0. -/
theorem constructedCoreHasTheInvariant : Obligations.ConstructedCoreHasTheInvariant := by
  intro c hc
  refine ⟨?_, rfl, rfl, rfl, rfl, Nat.le_refl _, Nat.le_refl _, nofun⟩
  refine ⟨hc, Memory.wf_nil, nofun, fun s w => ?_, fun s => ?_⟩
  · constructor <;> rw [constructed_line]
    · exact fun _ => ⟨rfl, rfl⟩
    all_goals nofun
  · constructor <;> simp only [constructed_line] <;> nofun

/-- The registers after construction: 0 but for the stack pointer (R120). -/
theorem readReg_constructed (c : Config) (i : RegIndex) :
    (State.constructed c).readReg i = if i = 29#5 then c.spInit else 0#32 := by
  by_cases h0 : i = 0#5
  · subst h0
    rfl
  · rw [readReg_of_ne _ h0]
    by_cases hi : i = 29#5
    · subst hi
      rfl
    · have hne : 29 ≠ i.toNat := fun e => hi (BitVec.eq_of_toNat_eq e.symm)
      simp [State.constructed, hi, Vector.getElem_set_ne _ _ hne]

/-- Settles O38: an allowed configuration is constructed and any other is refused; each field of R120 is read off. -/
theorem constructionGivesTheResetValues : Obligations.ConstructionGivesTheResetValues := by
  refine ⟨fun c hc => ⟨State.constructed c, if_pos hc, rfl, readReg_constructed c, rfl, rfl, rfl, fun k w => ?_, rfl,
    rfl, rfl, rfl, rfl, rfl, rfl, rfl, rfl, fun a => rfl⟩, fun c hc => if_neg hc, if_pos (by decide)⟩
  rw [constructed_line]
  exact ⟨rfl, rfl, rfl, rfl, rfl⟩

end Sys2Proof.Machine

/-! The cache under `Fill` (spec/20_memory.md R241): two sound states that show the same bytes go on the same way. Each
operation on the state commutes with the replacement of the cache and Memory, so it keeps `sameVisible`; the word
accesses answer by the view, which the two states share. -/

namespace Sys2Proof.Machine

/-! The operations on the state, and the replacement of the cache and Memory. -/

theorem writeReg_setMsys (s : State) (m : MemSys) (i : RegIndex) (v : Word) :
    (s.setMsys m).writeReg i v = (s.writeReg i v).setMsys m := by
  unfold State.writeReg
  split <;> rfl

theorem advance_setMsys (s : State) (m : MemSys) : advance (s.setMsys m) = (advance s).setMsys m := by
  unfold advance
  rw [setMsys_result]
  split <;> rfl

@[simp] theorem advance_msys (s : State) : (advance s).msys = s.msys := by rw [advance_frame]

/-! What two such states share. -/

theorem sameVisible.eq_setMsys {s t : State} (h : sameVisible s t) : t = s.setMsys t.msys := h.1

theorem sameVisible.readReg {s t : State} (h : sameVisible s t) (i : RegIndex) : t.readReg i = s.readReg i := by
  rw [h.eq_setMsys, readReg_setMsys]

theorem sameVisible.pc {s t : State} (h : sameVisible s t) : t.pc = s.pc := by rw [h.eq_setMsys, setMsys_pc]

theorem sameVisible.cfg {s t : State} (h : sameVisible s t) : t.cfg = s.cfg := by rw [h.eq_setMsys, setMsys_cfg]

theorem sameVisible.fetched {s t : State} (h : sameVisible s t) : t.fetched = s.fetched := by
  rw [h.eq_setMsys, setMsys_fetched]

theorem sameVisible.peekWord {s t : State} (h : sameVisible s t) (a : Word) :
    t.msys.peekWord a = s.msys.peekWord a := by
  simp only [MemSys.peekWord, h.2 _]

/-- An operation that leaves the cache and Memory to themselves keeps the relation. -/
theorem sameVisible.map {f : State → State} (hcomm : ∀ s m, f (s.setMsys m) = (f s).setMsys m)
    (hmsys : ∀ s, (f s).msys = s.msys) {s t : State} (h : sameVisible s t) : sameVisible (f s) (f t) := by
  refine ⟨?_, fun a => ?_⟩
  · rw [hmsys t]
    exact (congrArg f h.eq_setMsys).trans (hcomm s t.msys)
  · rw [hmsys s, hmsys t]
    exact h.2 a

/-- New caches and Memories that show the same bytes keep the relation. -/
theorem sameVisible.setMsys {s t : State} (h : sameVisible s t) {m m' : MemSys} (hpeek : ∀ a, m'.peek a = m.peek a) :
    sameVisible (s.setMsys m) (t.setMsys m') := by
  refine ⟨?_, hpeek⟩
  rw [h.eq_setMsys]
  rfl

theorem sameVisible.writeReg {s t : State} (h : sameVisible s t) (i : RegIndex) (v : Word) :
    sameVisible (s.writeReg i v) (t.writeReg i v) :=
  h.map (f := fun s => s.writeReg i v) (fun s m => writeReg_setMsys s m i v) fun s => writeReg_msys s i v

theorem sameVisible.finish {s t : State} (h : sameVisible s t) (b : Bool) : sameVisible (s.finish b) (t.finish b) :=
  h.map (f := fun s => s.finish b) (fun _ _ => rfl) fun _ => rfl

theorem sameVisible.setResult {s t : State} (h : sameVisible s t) (r : StepResult) :
    sameVisible (s.setResult r) (t.setResult r) :=
  h.map (f := fun s => s.setResult r) (fun _ _ => rfl) fun _ => rfl

theorem sameVisible.setPc {s t : State} (h : sameVisible s t) (target : Word) :
    sameVisible (s.setPc target) (t.setPc target) :=
  h.map (f := fun s => s.setPc target) (fun _ _ => rfl) fun _ => rfl

theorem sameVisible.countLoad {s t : State} (h : sameVisible s t) : sameVisible s.countLoad t.countLoad :=
  h.map (f := State.countLoad) (fun _ _ => rfl) fun _ => rfl

theorem sameVisible.countStore {s t : State} (h : sameVisible s t) : sameVisible s.countStore t.countStore :=
  h.map (f := State.countStore) (fun _ _ => rfl) fun _ => rfl

theorem sameVisible.emit {s t : State} (h : sameVisible s t) (e : Event) : sameVisible (s.emit e) (t.emit e) :=
  h.map (f := fun s => s.emit e) (fun _ _ => rfl) fun _ => rfl

theorem sameVisible.advance {s t : State} (h : sameVisible s t) : sameVisible (advance s) (advance t) :=
  h.map advance_setMsys advance_msys

theorem sameVisible.beginExecute {s t : State} (h : sameVisible s t) (w : Word) {m m' : MemSys}
    (hpeek : ∀ a, m'.peek a = m.peek a) : sameVisible (beginExecute s w m) (beginExecute t w m') := by
  refine ⟨?_, hpeek⟩
  rw [h.eq_setMsys]
  rfl

/-! The outcomes of the shared operations. -/

theorem raise_agree {s t : State} (h : sameVisible s t) (cause : Cause) (info : Word) :
    outcomesAgree (raise cause info s) (raise cause info t) := by
  cases cause with
  | address => exact ⟨by simp only [faultRecord, h.pc], h.setResult _⟩
  | invalidInstruction => exact ⟨by simp only [faultRecord, h.pc], h.setResult _⟩

theorem complete_agree {o p : Host.Outcome State Fault Refusal} (h : outcomesAgree o p) :
    outcomesAgree (complete o) (complete p) := by
  cases o with
  | next s =>
    cases p with
    | next t => exact sameVisible.advance h
    | fault g => exact h
    | refused r => exact h
  | fault f => cases p <;> exact h
  | refused q => cases p <;> exact h

theorem writeResult_agree {s t : State} (h : sameVisible s t) (rd : RegIndex) (v : Word) :
    outcomesAgree (writeResult rd v s) (writeResult rd v t) := (h.writeReg rd v).finish false

theorem transferTo_agree {s t : State} (h : sameVisible s t) (target : Word) :
    outcomesAgree (transferTo target s) (transferTo target t) := (h.setPc target).finish true

theorem branchIf_agree {s t : State} (h : sameVisible s t) (taken : Bool) (imm : BitVec 16) :
    outcomesAgree (branchIf taken imm s) (branchIf taken imm t) := by
  cases taken with
  | true =>
    rw [branchIf_true, branchIf_true, h.pc]
    exact transferTo_agree h _
  | false => exact h.finish false

theorem printEvent_agree {s t : State} (h : sameVisible s t) (e : Event) :
    outcomesAgree (printEvent e s) (printEvent e t) := (h.emit e).finish false

/-! The instructions that use the cache, and Syscall. -/

/-- Lw: the two states bound-check the same address, read the same word, and show the same bytes after it. -/
theorem execLw_agree {s t : State} (h : sameVisible s t) (hs : MemOk s.cfg s.msys) (ht : MemOk t.cfg t.msys)
    (rt rs : RegIndex) (imm : BitVec 16) : outcomesAgree (execLw rt rs imm s) (execLw rt rs imm t) := by
  have hcfg := h.cfg
  simp only [execLw, h.readReg]
  generalize effectiveAddress (s.readReg rs) imm = ea
  by_cases hin : ea.toNat + 3 < s.cfg.memSize
  · obtain ⟨m, hr, -, hpeek⟩ := readWord_spec hs hin
    obtain ⟨m', hr', -, hpeek'⟩ := readWord_spec ht (a := ea) (by rwa [hcfg])
    rw [hr, hr', h.peekWord]
    refine (((h.setMsys fun a => ?_).writeReg _ _).countLoad).finish false
    rw [hpeek, hpeek', h.2]
  · rw [readWord_fault (by omega), readWord_fault (by rw [hcfg]; omega)]
    exact raise_agree h _ _

/-- Under `Fill` a store shows its own four bytes and leaves every other (R241). -/
theorem byteAfterStore_eq_getD {c : Config} {m : MemSys} (hf : c.waFill = .fill) (a v x : Word) :
    byteAfterStore c m a v x = (storedByte a v x).getD (m.peek x) := by
  cases hstored : storedByte a v x with
  | none => exact byteAfterStore_fill hf hstored
  | some b => simp only [byteAfterStore, hstored, Option.getD_some]

/-- Sw, as Lw. -/
theorem execSw_agree {s t : State} (h : sameVisible s t) (hf : s.cfg.waFill = .fill) (hs : MemOk s.cfg s.msys)
    (ht : MemOk t.cfg t.msys) (rt rs : RegIndex) (imm : BitVec 16) :
    outcomesAgree (execSw rt rs imm s) (execSw rt rs imm t) := by
  have hcfg := h.cfg
  simp only [execSw, h.readReg]
  generalize effectiveAddress (s.readReg rs) imm = ea
  by_cases hin : ea.toNat + 3 < s.cfg.memSize
  · obtain ⟨m, hr, -, hpeek⟩ := writeWord_spec hs hin (s.readReg rt)
    obtain ⟨m', hr', -, hpeek'⟩ := writeWord_spec ht (a := ea) (by rwa [hcfg]) (s.readReg rt)
    rw [hr, hr']
    refine ((h.setMsys fun a => ?_).countStore).finish false
    rw [hpeek, hpeek', byteAfterStore_eq_getD hf, byteAfterStore_eq_getD (by rwa [hcfg]), h.2]
  · rw [writeWord_fault (by omega), writeWord_fault (by rw [hcfg]; omega)]
    exact raise_agree h _ _

/-- Syscall, but for code 4, reads registers and the raw word alone. -/
theorem execSyscall_agree {s t : State} (h : sameVisible s t) (hcode : s.readReg 2#5 ≠ 4#32) :
    outcomesAgree (execSyscall s) (execSyscall t) := by
  unfold execSyscall
  rw [h.readReg, h.readReg, h.fetched]
  split
  · exact printEvent_agree h _
  · next hfour => exact absurd hfour hcode
  · exact h.setResult _
  · exact printEvent_agree h _
  · exact raise_agree h _ _

theorem exec_agree {s t : State} {i : Instr} (h : sameVisible s t) (hf : s.cfg.waFill = .fill)
    (hs : MemOk s.cfg s.msys) (ht : MemOk t.cfg t.msys) (hcode : ¬(i = .syscall ∧ s.readReg 2#5 = 4#32)) :
    outcomesAgree (exec i s) (exec i t) := by
  cases i with
  | add | sub | and | or | slt | sll | srl | addi | slti =>
    simp only [exec, execAdd, execSub, execAnd, execOr, execSlt, execSll, execSrl, execAddi, execSlti, h.readReg]
    exact writeResult_agree h _ _
  | jr =>
    simp only [exec, execJr, h.readReg]
    exact transferTo_agree h _
  | j =>
    simp only [exec, execJ, h.pc]
    exact transferTo_agree h _
  | jal =>
    simp only [exec, execJal, h.pc]
    exact transferTo_agree (h.writeReg _ _) _
  | beq | bne =>
    simp only [exec, execBeq, execBne, h.readReg]
    exact branchIf_agree h _ _
  | lw => exact execLw_agree h hs ht _ _ _
  | sw => exact execSw_agree h hf hs ht _ _ _
  | syscall => exact execSyscall_agree h fun hfour => hcode ⟨rfl, hfour⟩

/-- A step whose fetch answers no instruction's word raises with that word (R410). -/
theorem step_of_fetch_invalid {s : State} {w u : Word} {m : MemSys} (hf : fetch s = .done w m)
    (hd : decode w = .invalid u) : step s = raise .invalidInstruction u (beginExecute s w m) := by
  simp only [step, hf, hd]

theorem step_outside {s : State} (hp : s.cfg.memSize ≤ s.pc.toNat + 3) : step s = raise .address s.pc s := by
  rw [step, fetch_outside hp]
  rfl

/-- Settles O44: both fetches answer the word the states show at pc, and the instruction agrees on the states `execute`
starts from (`exec_agree`). -/
theorem cacheIsInvisibleUnderFill : Obligations.CacheIsInvisibleUnderFill := by
  intro s t hf hs ht h hcode
  have hcfg := h.cfg
  have hpc := h.pc
  by_cases hp : s.pc.toNat + 3 < s.cfg.memSize
  · obtain ⟨m, hfetch, hacc, hpeek⟩ := fetch_inside hs hp
    obtain ⟨m', hfetch', hacc', hpeek'⟩ := fetch_inside ht (by rwa [hcfg, hpc])
    rw [hpc, h.peekWord] at hfetch'
    have hbegin : sameVisible (beginExecute s (s.msys.peekWord s.pc) m) (beginExecute t (s.msys.peekWord s.pc) m') :=
      h.beginExecute _ fun a => by rw [hpeek, hpeek', h.2]
    cases hd : decode (s.msys.peekWord s.pc) with
    | invalid word =>
      rw [step_of_fetch_invalid hfetch hd, step_of_fetch_invalid hfetch' hd]
      exact raise_agree hbegin _ _
    | instr i =>
      rw [step_of_fetch_decode hfetch hd, step_of_fetch_decode hfetch' hd]
      refine complete_agree (exec_agree hbegin hf hacc.ok hacc'.ok fun hi => hcode ⟨?_, hi.2⟩)
      rw [hd, hi.1]
  · rw [step_outside (Nat.le_of_not_lt hp), step_outside (by rw [hcfg, hpc]; omega), hpc]
    exact raise_agree h _ _

end Sys2Proof.Machine

/-! The ALU family (spec/41_alu.md), the transfers (spec/43_control.md), and what `execute` returns. -/

namespace Sys2Proof.Machine

/-! The register write, and what it leaves. -/

theorem wroteOnly_writeReg (s : State) (rd : RegIndex) (v : Word) : wroteOnly s (s.writeReg rd v) rd v := by
  refine ⟨?_, fun h0 => ?_, fun i hi => readReg_writeReg_other s v hi⟩
  · rw [readReg_writeReg, if_pos rfl]
  · rw [h0, writeReg_zero]

theorem sameRest_writeReg_finish (s : State) (rd : RegIndex) (v : Word) (b : Bool) :
    sameRest s ((s.writeReg rd v).finish b) := by
  refine ⟨⟨?_, ?_, ?_⟩, ⟨?_, ?_, ?_, ?_⟩, ?_, fun a => ?_, ?_, ?_⟩ <;> simp

/-- What the ALU family shares, as the statements read it (R500). -/
theorem writeResult_aluNext (rd : RegIndex) (v : Word) (s : State) :
    ∃ t, writeResult rd v s = .next t ∧ aluNext s t rd v :=
  ⟨(s.writeReg rd v).finish false, rfl, wroteOnly_writeReg s rd v, writeReg_pc s rd v, rfl,
    sameRest_writeReg_finish s rd v false⟩

/-! The values: sums, differences and shifts on exact integers, reduced modulo 2^32. -/

theorem word_add_eq_ofNat (a b : Word) : a + b = BitVec.ofNat 32 (a.toNat + b.toNat) := by
  simp only [BitVec.ofNat_add, BitVec.ofNat_toNat, BitVec.setWidth_eq]

theorem word_add_eq_ofInt (a b : Word) : a + b = BitVec.ofInt 32 (a.toInt + b.toInt) := by
  rw [BitVec.ofInt_add, BitVec.ofInt_toInt, BitVec.ofInt_toInt]

theorem word_ofInt_sub (i j : Int) : BitVec.ofInt 32 (i - j) = BitVec.ofInt 32 i - BitVec.ofInt 32 j := by
  rw [Int.sub_eq_add_neg, BitVec.ofInt_add, BitVec.ofInt_neg, BitVec.sub_eq_add_neg]

theorem word_sub_eq_ofInt_toInt (a b : Word) : a - b = BitVec.ofInt 32 (a.toInt - b.toInt) := by
  rw [word_ofInt_sub, BitVec.ofInt_toInt, BitVec.ofInt_toInt]

theorem word_sub_eq_ofInt_toNat (a b : Word) : a - b = BitVec.ofInt 32 (a.toNat - b.toNat) := by
  simp only [word_ofInt_sub, BitVec.ofInt_natCast, BitVec.ofNat_toNat, BitVec.setWidth_eq]

/-- Sign extension keeps the signed value (R303). -/
theorem toInt_immWord (imm : BitVec 16) : (immWord imm).toInt = imm.toInt := BitVec.toInt_signExtend_of_le (by decide)

theorem word_shiftLeft_eq_ofNat (a : Word) (n : Nat) : a <<< n = BitVec.ofNat 32 (a.toNat * 2 ^ n) := by
  refine BitVec.eq_of_toNat_eq ?_
  rw [BitVec.toNat_shiftLeft, BitVec.toNat_ofNat, Nat.shiftLeft_eq]

theorem word_ushiftRight_eq_ofNat (a : Word) (n : Nat) : a >>> n = BitVec.ofNat 32 (a.toNat / 2 ^ n) := by
  have hlt : a.toNat / 2 ^ n < 2 ^ 32 := Nat.lt_of_le_of_lt (Nat.div_le_self _ _) a.isLt
  refine BitVec.eq_of_toNat_eq ?_
  rw [BitVec.toNat_ushiftRight, BitVec.toNat_ofNat, Nat.shiftRight_eq_div_pow, Nat.mod_eq_of_lt hlt]

/-- Settles O8: each is the shared register write, of a value that is the exact one modulo 2^32 in both readings. -/
theorem addSubAddiWriteTheWrappedResult : Obligations.AddSubAddiWriteTheWrappedResult := by
  refine fun s rd rs rt imm => ⟨?_, ?_, ?_⟩
  · obtain ⟨t, ht, hnext⟩ := writeResult_aluNext rd (s.readReg rs + s.readReg rt) s
    exact ⟨t, ht, word_add_eq_ofNat _ _ ▸ hnext, word_add_eq_ofInt _ _ ▸ hnext⟩
  · obtain ⟨t, ht, hnext⟩ := writeResult_aluNext rd (s.readReg rs - s.readReg rt) s
    exact ⟨t, ht, word_sub_eq_ofInt_toNat _ _ ▸ hnext, word_sub_eq_ofInt_toInt _ _ ▸ hnext⟩
  · obtain ⟨t, ht, hnext⟩ := writeResult_aluNext rt (s.readReg rs + immWord imm) s
    rw [word_add_eq_ofInt, toInt_immWord] at hnext
    exact ⟨t, ht, hnext⟩

/-- Settles O9: each is the shared register write, of a value whose bits are the operation's. -/
theorem andOrWriteTheBitwiseResult : Obligations.AndOrWriteTheBitwiseResult := by
  refine fun s rd rs rt => ⟨?_, ?_⟩
  · obtain ⟨t, ht, hnext⟩ := writeResult_aluNext rd (s.readReg rs &&& s.readReg rt) s
    exact ⟨t, _, ht, hnext, fun k => BitVec.getLsbD_and⟩
  · obtain ⟨t, ht, hnext⟩ := writeResult_aluNext rd (s.readReg rs ||| s.readReg rt) s
    exact ⟨t, _, ht, hnext, fun k => BitVec.getLsbD_or⟩

/-- Settles O10: each is the shared register write of `signedLess`, which compares the signed values. -/
theorem sltSltiCompareSigned : Obligations.SltSltiCompareSigned := by
  refine fun s rd rs rt imm => ⟨writeResult_aluNext rd (signedLess (s.readReg rs) (s.readReg rt)) s, ?_⟩
  obtain ⟨t, ht, hnext⟩ := writeResult_aluNext rt (signedLess (s.readReg rs) (immWord imm)) s
  rw [signedLess, toInt_immWord] at hnext
  exact ⟨t, ht, hnext⟩

/-- Settles O11: each is the shared register write, of the product or quotient by the power of two. -/
theorem sllSrlShiftLogically : Obligations.SllSrlShiftLogically := by
  refine fun s rd rt shamt => ⟨?_, ?_⟩
  · obtain ⟨t, ht, hnext⟩ := writeResult_aluNext rd (s.readReg rt <<< shamt.toNat) s
    exact ⟨t, ht, word_shiftLeft_eq_ofNat _ _ ▸ hnext⟩
  · obtain ⟨t, ht, hnext⟩ := writeResult_aluNext rd (s.readReg rt >>> shamt.toNat) s
    exact ⟨t, ht, word_ushiftRight_eq_ofNat _ _ ▸ hnext⟩

/-! Transfers. -/

/-- A transfer changes pc and nothing else (R700). -/
theorem transferTo_transferNext (target : Word) (s : State) :
    ∃ t, transferTo target s = .next t ∧ transferNext s t target ∧ sameRegs s t :=
  ⟨(s.setPc target).finish true, rfl, ⟨rfl, rfl, ⟨rfl, rfl, rfl⟩, ⟨rfl, rfl, rfl, rfl⟩, rfl, fun _ => rfl, rfl, rfl⟩,
    fun _ => rfl⟩

/-- The jump address as the statements write it (R305). -/
theorem jumpTarget_eq_ofNat (pc : Word) (target : BitVec 26) :
    jumpTarget pc target = BitVec.ofNat 32 (pc.toNat / 2 ^ 28 * 2 ^ 28 + target.toNat * 4) := by
  rw [← toNat_jumpTarget, BitVec.ofNat_toNat, BitVec.setWidth_eq]

/-- Jal is the link's register write and then the transfer, so the frame of both holds (R705). -/
theorem exec_jal_next (target : BitVec 26) (s : State) :
    ∃ t, exec (.jal target) s = .next t ∧ wroteOnly s t 31#5 (s.pc + 4) ∧
      transferNext s t (jumpTarget s.pc target) := by
  refine ⟨_, exec_jal target s, wroteOnly_writeReg s 31#5 (s.pc + 4), rfl, rfl, ?_⟩
  exact sameRest_writeReg_finish s 31#5 (s.pc + 4) true

/-- Settles O14: each is the transfer to its target, Jal after the write of its link. -/
theorem jumpsTransferAndJalLinks : Obligations.JumpsTransferAndJalLinks := by
  refine fun s rs target => ⟨transferTo_transferNext (s.readReg rs) s, ?_, ?_⟩
  · obtain ⟨t, ht, hnext, hregs⟩ := transferTo_transferNext (jumpTarget s.pc target) s
    exact ⟨t, ht, hregs, jumpTarget_eq_ofNat _ _ ▸ hnext⟩
  · obtain ⟨t, ht, hlink, hnext⟩ := exec_jal_next target s
    exact ⟨t, ht, word_add_four s.pc ▸ hlink, jumpTarget_eq_ofNat _ _ ▸ hnext⟩

/-- The branch target as the statements write it (R304). -/
theorem branchTarget_eq_ofInt (pc : Word) (imm : BitVec 16) :
    branchTarget pc imm = BitVec.ofInt 32 (pc.toNat + imm.toInt * 4) := by
  rw [branchTarget_eq_add_ofInt, BitVec.ofInt_add, BitVec.ofInt_natCast, BitVec.ofNat_toNat, BitVec.setWidth_eq]

/-- A branch by its condition: the transfer, or nothing but the answer (R702, R703). -/
theorem branchIf_cases (taken : Bool) (imm : BitVec 16) (s : State) :
    ∃ t, branchIf taken imm s = .next t ∧ sameRegs s t ∧
      if taken = true then transferNext s t (BitVec.ofInt 32 (s.pc.toNat + imm.toInt * 4))
      else t.pc = s.pc ∧ t.result = .continued false ∧ sameRest s t := by
  cases taken with
  | true =>
    obtain ⟨t, ht, hnext, hregs⟩ := transferTo_transferNext (branchTarget s.pc imm) s
    exact ⟨t, ht, hregs, branchTarget_eq_ofInt _ _ ▸ hnext⟩
  | false =>
    exact ⟨s.finish false, rfl, fun _ => rfl, rfl, rfl, ⟨rfl, rfl, rfl⟩, ⟨rfl, rfl, rfl, rfl⟩, rfl, fun _ => rfl, rfl,
      rfl⟩

/-- The condition of Beq, on the numbers. -/
theorem wordsEqual_iff_toNat {a b : Word} : wordsEqual a b = true ↔ a.toNat = b.toNat :=
  wordsEqual_iff.trans BitVec.toNat_inj.symm

/-- Settles O15: both are `branchIf`, Beq on equality and Bne on its negation. -/
theorem branchesTransferOnTheirCondition : Obligations.BranchesTransferOnTheirCondition := by
  refine fun s rs rt imm => ⟨?_, ?_⟩
  · obtain ⟨t, ht, hregs, hcases⟩ := branchIf_cases (wordsEqual (s.readReg rs) (s.readReg rt)) imm s
    simp only [wordsEqual_iff_toNat] at hcases
    exact ⟨t, ht, hregs, hcases⟩
  · obtain ⟨t, ht, hregs, hcases⟩ := branchIf_cases (!wordsEqual (s.readReg rs) (s.readReg rt)) imm s
    simp only [Bool.not_eq_true', ← Bool.not_eq_true, wordsEqual_iff_toNat, ite_not] at hcases
    exact ⟨t, ht, hregs, hcases⟩

/-! What `execute` returns (R403). -/

theorem branchIf_result {taken : Bool} {imm : BitVec 16} {s t : State} (h : branchIf taken imm s = .next t) :
    t.result = .continued taken := by
  have ht := branchIf_next h
  cases taken with
  | true => rw [ht, if_pos rfl, finish_result]
  | false => rw [ht, if_neg nofun, finish_result]

/-- An instruction that answers ends the program, which only syscall code 10 does, or returns whether it transferred
control. -/
theorem exec_result {i : Instr} {s t : State} (h : exec i s = .next t) :
    (i = .syscall ∧ s.readReg 2#5 = 10#32 ∧ t = s.setResult .programEnd) ∨
    ∃ b : Bool, t.result = .continued b ∧ (b = true ↔ transfers i s) := by
  cases i with
  | add | sub | and | or | slt | sll | srl | addi | slti =>
    cases h
    exact .inr ⟨false, rfl, by simp [transfers]⟩
  | jr | j | jal =>
    cases h
    exact .inr ⟨true, rfl, by simp [transfers]⟩
  | beq => exact .inr ⟨_, branchIf_result h, by rw [wordsEqual_iff, transfers]⟩
  | bne => exact .inr ⟨_, branchIf_result h, by rw [Bool.not_eq_true', ← Bool.not_eq_true, wordsEqual_iff, transfers]⟩
  | lw =>
    obtain ⟨v, m, -, rfl⟩ := execLw_next h
    exact .inr ⟨false, rfl, by simp [transfers]⟩
  | sw =>
    obtain ⟨m, -, rfl⟩ := execSw_next h
    exact .inr ⟨false, rfl, by simp [transfers]⟩
  | syscall =>
    rcases execSyscall_next h with ⟨-, rfl⟩ | ⟨-, bytes, -, rfl⟩ | ⟨hcode, rfl⟩ | ⟨-, rfl⟩
    · exact .inr ⟨false, rfl, by simp [transfers]⟩
    · exact .inr ⟨false, rfl, by simp [transfers]⟩
    · exact .inl ⟨rfl, hcode, rfl⟩
    · exact .inr ⟨false, rfl, by simp [transfers]⟩

/-- Only syscall code 10 ends the program, and it does nothing else (R804). -/
theorem exec_programEnd {i : Instr} {s t : State} (h : exec i s = .next t) (hr : t.result = .programEnd) :
    i = .syscall ∧ s.readReg 2#5 = 10#32 ∧ t = s.setResult .programEnd := by
  rcases exec_result h with hend | ⟨b, hb, -⟩
  · exact hend
  · rw [hb] at hr
    cases hr

/-- Settles O29: the answer is by `exec_result`, and pc moves only with the answer true (`exec_stats`). -/
theorem executeReturnsTrueExactlyForTakenTransfers : Obligations.ExecuteReturnsTrueExactlyForTakenTransfers := by
  intro i s t h
  rcases exec_result h with ⟨rfl, hcode, rfl⟩ | ⟨b, hb, hiff⟩
  · exact ⟨by simp [transfers], fun _ => rfl, fun _ => .inr ⟨rfl, hcode, rfl⟩⟩
  · have htrue : t.result = .continued true ↔ transfers i s := by rw [hb, StepResult.continued.injEq, hiff]
    refine ⟨htrue, fun hnot => ?_, fun hnot => .inl ?_⟩
    · rcases (exec_stats h).ends with ⟨-, hpc⟩ | hr | ⟨-, hpc⟩
      · exact hpc
      · exact absurd (htrue.1 hr) hnot
      · exact hpc
    · rw [hb, Bool.eq_false_iff.2 (mt hiff.1 hnot)]

end Sys2Proof.Machine

/-! Loads and stores (spec/42_load_store.md), the fetch, and the syscalls of strings and of the program's end
(spec/44_syscall.md). -/

namespace Sys2Proof.Machine

/-! Loads. -/

/-- The effective address as the statements write it (R600). -/
theorem effectiveAddress_eq_ofInt (base : Word) (imm : BitVec 16) :
    effectiveAddress base imm = BitVec.ofInt 32 (base.toNat + imm.toInt) := by
  rw [BitVec.ofInt_add, BitVec.ofInt_natCast, BitVec.ofNat_toNat, BitVec.setWidth_eq]
  rfl

/-- Settles O16: the word access answers the view's word (`readWord_spec`), and the rest of Lw is the register write and
the count. -/
theorem lwLoadsTheWordAtTheEffectiveAddress : Obligations.LwLoadsTheWordAtTheEffectiveAddress := by
  intro s rt rs imm hm hin
  obtain ⟨m, hread, hacc, hpeek⟩ := readWord_spec hm hin
  refine ⟨effectiveAddress_eq_ofInt _ _, _, execLw_of_readWord_done rt hread, wroteOnly_writeReg (s.setMsys m) rt _, ?_⟩
  have hok := hacc.ok
  have heffects : WordEffects s.msys m (effectiveAddress (s.readReg rs) imm) := hacc.toSpanEffects
  simp [sameFixed, sameBytes, hpeek, hok, heffects]

/-! Stores. -/

/-- The four addresses of a word are distinct. -/
theorem word_address_ne (a : Word) {j k : Nat} (hj : j < 4) (hk : k < 4) (h : j ≠ k) :
    a + BitVec.ofNat 32 j ≠ a + BitVec.ofNat 32 k := fun e => by
  have hval := congrArg BitVec.toNat ((BitVec.add_right_inj a).1 e)
  simp only [BitVec.toNat_ofNat] at hval
  omega

theorem storedByte_of_lt {a v : Word} {i : Nat} (hi : i < 4) :
    storedByte a v (a + BitVec.ofNat 32 i) = some (byteOf v i) := by
  have h0 : a = a + BitVec.ofNat 32 0 := (BitVec.add_zero a).symm
  have hne0 : 0 < i → a + BitVec.ofNat 32 i ≠ a := fun hpos e =>
    word_address_ne a hi (by omega) hpos.ne' (e.trans h0)
  have hne : ∀ k, k < i → a + BitVec.ofNat 32 i ≠ a + BitVec.ofNat 32 k := fun k hk =>
    word_address_ne a hi (by omega) (by omega)
  unfold storedByte
  interval_cases i
  · exact if_pos h0.symm
  · exact (if_neg (hne0 (by omega))).trans (if_pos rfl)
  · exact (if_neg (hne0 (by omega))).trans ((if_neg (hne 1 (by omega))).trans (if_pos rfl))
  · exact (if_neg (hne0 (by omega))).trans ((if_neg (hne 1 (by omega))).trans
      ((if_neg (hne 2 (by omega))).trans (if_pos rfl)))

theorem storedByte_of_ne {a v x : Word} (h : ∀ i, i < 4 → x ≠ a + BitVec.ofNat 32 i) : storedByte a v x = none := by
  have h0 : x ≠ a := fun e => h 0 (by omega) (e.trans (BitVec.add_zero a).symm)
  unfold storedByte
  rw [if_neg h0]
  exact (if_neg (h 1 (by omega))).trans ((if_neg (h 2 (by omega))).trans (if_neg (h 3 (by omega))))

/-- The stored bytes read back (R225). -/
theorem byteAfterStore_stored (c : Config) (m : MemSys) (a v : Word) {i : Nat} (hi : i < 4) :
    byteAfterStore c m a v (a + BitVec.ofNat 32 i) = byteOf v i := by
  rw [byteAfterStore, storedByte_of_lt hi]

/-- Another byte is as before outside the lines of the store, under `Fill`, and where its line was present. -/
theorem byteAfterStore_kept {c : Config} {m : MemSys} {a v x : Word} (hne : ∀ i, i < 4 → x ≠ a + BitVec.ofNat 32 i)
    (h : (x.toNat / 32 ≠ a.toNat / 32 ∧ x.toNat / 32 ≠ (a + 3).toNat / 32) ∨ c.waFill = .fill ∨
      (m.cache.lookup (setIndex x) (tagOf x)).isSome) : byteAfterStore c m a v x = m.peek x := by
  simp only [byteAfterStore, storedByte_of_ne hne]
  rcases h with ⟨hfirst, hlast⟩ | hfill | hpresent
  · exact if_neg fun e => e.elim hfirst hlast
  · rw [staleByte_fill x hfill, ite_self]
  · obtain ⟨w, hw⟩ := Option.isSome_iff_exists.1 hpresent
    rw [staleByte_present hw, ite_self]

/-- Under `NoFill` another byte of a line that was absent is the byte of the way the line is put into (R223). -/
theorem byteAfterStore_stale {c : Config} {m : MemSys} {a v x : Word} (hne : ∀ i, i < 4 → x ≠ a + BitVec.ofNat 32 i)
    (hf : c.waFill = .noFill) (hl : m.cache.lookup (setIndex x) (tagOf x) = none)
    (hline : x.toNat / 32 = a.toNat / 32 ∨ x.toNat / 32 = (a + 3).toNat / 32) :
    byteAfterStore c m a v x =
      (m.cache.line (setIndex x) (m.cache.victim (setIndex x))).data[(offsetOf x).val] := by
  simp only [byteAfterStore, storedByte_of_ne hne]
  rw [if_pos hline, staleByte_absent hf hl]

/-- Sw whose word access answers, the converse of `execSw_next`. -/
theorem execSw_of_writeWord_done {rt rs : RegIndex} {imm : BitVec 16} {s : State} {m : MemSys}
    (h : s.msys.writeWord s.cfg (effectiveAddress (s.readReg rs) imm) (s.readReg rt) = .done () m) :
    execSw rt rs imm s = .next (((s.setMsys m).countStore).finish false) := by
  rw [execSw, h]

/-- Settles O17: the word access leaves `byteAfterStore` in the view (`writeWord_spec`), read case by case. -/
theorem swStoresTheWordAtTheEffectiveAddress : Obligations.SwStoresTheWordAtTheEffectiveAddress := by
  intro s rt rs imm hm hin
  obtain ⟨m, hwrite, hacc, hpeek⟩ := writeWord_spec hm hin (s.readReg rt)
  refine ⟨_, execSw_of_writeWord_done hwrite, rfl, rfl, rfl, rfl, rfl, rfl, rfl, rfl, ⟨rfl, rfl, rfl⟩, fun _ => rfl,
    hacc.toSpanEffects, hacc.ok, fun i hi => ?_, fun a hne => ⟨fun h => ?_, fun hf hl hline => ?_⟩⟩
  · exact (hpeek _).trans (byteAfterStore_stored _ _ _ _ hi)
  · exact (hpeek a).trans (byteAfterStore_kept hne h)
  · exact (hpeek a).trans (byteAfterStore_stale hne hf hl hline)

/-! Outside Memory. -/

theorem exec_lw_outside {rt rs : RegIndex} {imm : BitVec 16} {s : State}
    (h : s.cfg.memSize ≤ (effectiveAddress (s.readReg rs) imm).toNat + 3) :
    exec (.lw rt rs imm) s = raise .address (effectiveAddress (s.readReg rs) imm) s := by
  rw [exec, execLw, readWord_fault h]
  rfl

theorem exec_sw_outside {rt rs : RegIndex} {imm : BitVec 16} {s : State}
    (h : s.cfg.memSize ≤ (effectiveAddress (s.readReg rs) imm).toNat + 3) :
    exec (.sw rt rs imm) s = raise .address (effectiveAddress (s.readReg rs) imm) s := by
  rw [exec, execSw, writeWord_fault h]
  rfl

/-- Settles O18: the span check fails first, so both raise in the state they started from. -/
theorem lwSwOutsideMemoryFault : Obligations.LwSwOutsideMemoryFault := by
  intro s rt rs imm h
  refine ⟨?_, ?_⟩
  · rw [exec_lw_outside h]
    exact raise_faults .address _ s
  · rw [exec_sw_outside h]
    exact raise_faults .address _ s

/-! The round trip (R603). -/

/-- A view that shows the four bytes of `v` at `a` shows the word. -/
theorem peekWord_eq {m : MemSys} {a v : Word} (h : ∀ i, i < 4 → m.peek (a + BitVec.ofNat 32 i) = byteOf v i) :
    m.peekWord a = v := by
  have h0 : m.peek a = byteOf v 0 := (congrArg m.peek (BitVec.add_zero a)).symm.trans (h 0 (by omega))
  have h1 : m.peek (a + 1) = byteOf v 1 := h 1 (by omega)
  have h2 : m.peek (a + 2) = byteOf v 2 := h 2 (by omega)
  have h3 : m.peek (a + 3) = byteOf v 3 := h 3 (by omega)
  rw [MemSys.peekWord, h0, h1, h2, h3, wordOfBytes_byteOf]

theorem leBytes_getElem (v : Word) (i : Nat) (hi : i < 4) : (leBytes v)[i] = byteOf v i := by
  interval_cases i <;> rfl

/-- Settles O19: through the cache by the view after the store, directly by Memory's read-after-write. -/
theorem storedWordReadsBack : Obligations.StoredWordReadsBack := by
  refine ⟨fun c m a v hm hin => ?_, fun c mem a v hwf hin => ?_⟩
  · obtain ⟨m1, hwrite, hacc, hpeek⟩ := writeWord_spec hm hin v
    obtain ⟨m2, hread, -, -⟩ := readWord_spec hacc.ok hin
    have hword : m1.peekWord a = v :=
      peekWord_eq fun i hi => (hpeek _).trans (byteAfterStore_stored c m a v hi)
    exact ⟨m1, m2, hwrite, by rw [hread, hword]⟩
  · have hwrite := backWrite_ok (a := a.toNat) (leBytes v) mem (Nat.succ_le_of_lt hin) (by decide)
    obtain ⟨-, hread, -⟩ := backWrite_spec hwf hwrite
    refine ⟨_, hwrite, ?_⟩
    rw [backRead_ok _ (Nat.succ_le_of_lt hin) (by decide)]
    congr 1
    ext i hi
    rw [Vector.getElem_ofFn, hread, dif_pos ⟨Nat.le_add_right _ _, by omega⟩]
    simp only [Nat.add_sub_cancel_left]

/-- Settles O27: the fetch is the word access at pc. -/
theorem fetchReadsTheWordAtPcThroughTheCache : Obligations.FetchReadsTheWordAtPcThroughTheCache := by
  intro s hm hin
  obtain ⟨m, hf, hacc, hpeek⟩ := fetch_inside hm hin
  exact ⟨m, hf, hacc.ok, hpeek, hacc.toSpanEffects, rfl, rfl⟩

/-! Syscall codes 4 and 10 (R803, R804). -/

theorem exec_syscall_four {s : State} (h : s.readReg 2#5 = 4#32) : exec .syscall s = printString s := by
  simp only [exec, execSyscall, h]

theorem exec_syscall_ten {s : State} (h : s.readReg 2#5 = 10#32) :
    exec .syscall s = .next (s.setResult .programEnd) := by
  simp only [exec, execSyscall, h, signalProgramEnd]

theorem printString_ok {s : State} {bytes : List Byte}
    (h : readString s.cfg s.msys.mem (s.readReg 4#5).toNat = .ok bytes) :
    printString s = printEvent (.printString bytes) s := by
  rw [printString, h]

theorem printString_error {s : State} {a : Nat}
    (h : readString s.cfg s.msys.mem (s.readReg 4#5).toNat = .error a) :
    printString s = raise .address (faultAddress a) s := by
  rw [printString, h]

/-- The string read runs off exactly when no NUL lies below `MEM_SIZE`, and then at `MEM_SIZE` or its own start. -/
theorem readString_error_iff {c : Config} {mem : Memory} {a e : Nat} :
    readString c mem a = .error e ↔ e = max a c.memSize ∧ ∀ x, a ≤ x → x < c.memSize → mem.read x ≠ 0#8 := by
  have hend : a + (c.memSize - a) = max a c.memSize := by omega
  rw [readString, scanString_error, hend]
  refine and_congr_right fun _ => ⟨fun h x hlow hhigh => ?_, fun h i hi => h (a + i) (by omega) (by omega)⟩
  have hx := h (x - a) (by omega)
  rwa [Nat.add_sub_cancel' hlow] at hx

/-- Settles O22: the read answers exactly the bytes up to the first NUL (`scanString_ok`), and the print leaves what
`printNext` says. -/
theorem syscallFourPrintsTheStringInMemory : Obligations.SyscallFourPrintsTheStringInMemory := by
  intro s bytes hcode hin hbytes hnul
  have hread : readString s.cfg s.msys.mem (s.readReg 4#5).toNat = .ok bytes :=
    scanString_ok.2 ⟨by omega, fun i hi => ⟨(hbytes i hi).1.symm, (hbytes i hi).2⟩, hnul⟩
  rw [exec_syscall_four hcode, printString_ok hread]
  exact printEvent_printNext _ s

/-- Settles O23: without a NUL the read runs off (`readString_error_iff`), and the fault is raised before any print. -/
theorem syscallFourWithoutNulFaults : Obligations.SyscallFourWithoutNulFaults := by
  intro s hcode hno
  rw [exec_syscall_four hcode, printString_error (readString_error_iff.2 ⟨rfl, hno⟩)]
  exact raise_faults .address _ s

/-- Settles O24: code 10 changes `result` alone, and the end of the step keeps a state that ended. -/
theorem syscallTenEndsTheProgram : Obligations.SyscallTenEndsTheProgram := by
  refine ⟨fun s h => exec_syscall_ten h, fun s w m hf hd h => ?_⟩
  have hexec : exec .syscall (beginExecute s w m) = .next ((beginExecute s w m).setResult .programEnd) :=
    exec_syscall_ten h
  rw [step_of_fetch_decode hf hd, hexec]
  rfl

end Sys2Proof.Machine

/-! One step (spec/40_execution_step.md): when it goes on, when it faults, and what it leaves unchanged in every
state. -/

namespace Sys2Proof.Machine

/-! The parts of a step. -/

/-- Settles O26: a step is its decoded instruction completed; in a sound state the fetched word is the one the view
shows. -/
theorem stepRunsTheDecodedInstruction : Obligations.StepRunsTheDecodedInstruction := by
  refine ⟨fun s w m i hf hd => step_of_fetch_decode hf hd, fun s i hm hp hd => ?_⟩
  obtain ⟨m, hf, -, -⟩ := fetch_inside hm hp
  exact ⟨m, step_of_fetch_decode hf hd⟩

/-- Settles O30: the fetch's span check fails, and the step raises in the state it started from. -/
theorem fetchOutsideMemoryFaults : Obligations.FetchOutsideMemoryFaults := by
  intro s h
  rw [step_outside h]
  exact raise_faults .address s.pc s

/-- Settles O31: `Invalid` carries the fetched word, and the step raises in the state after the fetch. -/
theorem invalidWordFaults : Obligations.InvalidWordFaults := by
  intro s w u m hf hd
  obtain ⟨rfl, -⟩ := decode_invalid_iff.1 hd
  refine ⟨rfl, ?_⟩
  rw [step_of_fetch_invalid hf hd]
  exact raise_faults .invalidInstruction u (beginExecute s u m)

/-! The order of the checks (R907). -/

theorem exists_fault_raise (cause : Cause) (info : Word) (s : State) : ∃ f, raise cause info s = .fault f := by
  obtain ⟨f, hf, -⟩ := raise_faults cause info s
  exact ⟨f, hf⟩

theorem not_exists_fault_next (s : State) :
    ¬ ∃ f, (.next s : Host.Outcome State Fault Refusal) = .fault f := fun ⟨_, h⟩ => nomatch h

/-- Syscall faults on an unrecognised code, and on code 4 when no NUL ends the string. -/
theorem exec_syscall_fault_iff {s : State} : (∃ f, exec .syscall s = .fault f) ↔ ownCheckFails .syscall s := by
  by_cases hone : s.readReg 2#5 = 1#32
  · rw [exec_syscall_one hone]
    simp [printEvent, ownCheckFails, hone]
  by_cases hten : s.readReg 2#5 = 10#32
  · rw [exec_syscall_ten hten]
    simp [ownCheckFails, hten]
  by_cases heleven : s.readReg 2#5 = 11#32
  · rw [exec_syscall_eleven heleven]
    simp [printEvent, ownCheckFails, heleven]
  by_cases hfour : s.readReg 2#5 = 4#32
  · rw [exec_syscall_four hfour]
    have hown : ownCheckFails .syscall s ↔
        ∀ a, (s.readReg 4#5).toNat ≤ a → a < s.cfg.memSize → s.msys.mem.read a ≠ 0#8 := by
      simp [ownCheckFails, hfour]
    rw [hown]
    cases hread : readString s.cfg s.msys.mem (s.readReg 4#5).toNat with
    | ok bytes =>
      rw [printString_ok hread]
      refine iff_of_false (not_exists_fault_next _) fun hno => ?_
      have herror := readString_error_iff.2 ⟨rfl, hno⟩
      rw [hread] at herror
      cases herror
    | error a =>
      rw [printString_error hread]
      exact iff_of_true (exists_fault_raise _ _ _) (readString_error_iff.1 hread).2
  · rw [exec_syscall_unrecognised (by simp [hone, hten, heleven, hfour])]
    exact iff_of_true (exists_fault_raise _ _ _) (.inl ⟨hone, hfour, hten, heleven⟩)

/-- In a sound state an instruction faults exactly when its own check fails. -/
theorem exec_fault_iff {s : State} (hm : MemOk s.cfg s.msys) (i : Instr) :
    (∃ f, exec i s = .fault f) ↔ ownCheckFails i s := by
  cases i with
  | add | sub | and | or | slt | sll | srl | addi | slti | jr | j | jal =>
    exact iff_of_false (not_exists_fault_next _) id
  | beq | bne => exact iff_of_false (fun ⟨f, hf⟩ => branchIf_ne_fault _ _ _ f hf) id
  | lw rt rs imm =>
    by_cases hin : (effectiveAddress (s.readReg rs) imm).toNat + 3 < s.cfg.memSize
    · obtain ⟨m, hread, -, -⟩ := readWord_spec hm hin
      have hnext : exec (.lw rt rs imm) s = _ := execLw_of_readWord_done rt hread
      rw [hnext]
      exact iff_of_false (not_exists_fault_next _) (Nat.not_le_of_lt hin)
    · rw [exec_lw_outside (Nat.le_of_not_lt hin)]
      exact iff_of_true (exists_fault_raise _ _ _) (Nat.le_of_not_lt hin)
  | sw rt rs imm =>
    by_cases hin : (effectiveAddress (s.readReg rs) imm).toNat + 3 < s.cfg.memSize
    · obtain ⟨m, hwrite, -, -⟩ := writeWord_spec hm hin (s.readReg rt)
      have hnext : exec (.sw rt rs imm) s = _ := execSw_of_writeWord_done hwrite
      rw [hnext]
      exact iff_of_false (not_exists_fault_next _) (Nat.not_le_of_lt hin)
    · rw [exec_sw_outside (Nat.le_of_not_lt hin)]
      exact iff_of_true (exists_fault_raise _ _ _) (Nat.le_of_not_lt hin)
  | syscall => exact exec_syscall_fault_iff

theorem exists_fault_complete {o : Host.Outcome State Fault Refusal} :
    (∃ f, complete o = .fault f) ↔ ∃ f, o = .fault f :=
  ⟨fun ⟨f, hf⟩ => ⟨f, complete_fault hf⟩, fun ⟨f, hf⟩ => ⟨f, by rw [hf]; rfl⟩⟩

/-- Settles O33: the fetch's check, then the decoder's, then the instruction's own (`exec_fault_iff`). -/
theorem stepFaultsExactlyWhenTheSpecSays : Obligations.StepFaultsExactlyWhenTheSpecSays := by
  intro s hm
  by_cases hp : s.pc.toNat + 3 < s.cfg.memSize
  · obtain ⟨m, hf, hacc, -⟩ := fetch_inside hm hp
    have hfetched : ∀ P : Word → MemSys → Prop,
        (∃ w m', fetch s = .done w m' ∧ P w m') ↔ P (s.msys.peekWord s.pc) m := by
      intro P
      rw [hf]
      exact ⟨fun ⟨w, m', h, hP⟩ => by cases h; exact hP, fun hP => ⟨_, _, rfl, hP⟩⟩
    rw [hfetched, or_iff_right (Nat.not_le_of_lt hp)]
    cases hd : decode (s.msys.peekWord s.pc) with
    | invalid u =>
      rw [step_of_fetch_invalid hf hd]
      exact iff_of_true (exists_fault_raise _ _ _) (.inl ⟨u, rfl⟩)
    | instr i =>
      rw [step_of_fetch_decode hf hd, exists_fault_complete, exec_fault_iff (s := beginExecute s _ m) hacc.ok]
      simp
  · rw [step_outside (Nat.le_of_not_lt hp)]
    exact iff_of_true (exists_fault_raise _ _ _) (.inl (Nat.le_of_not_lt hp))

/-! No refusal (R900). -/

theorem execSyscall_ne_refused (s : State) (r : Refusal) : execSyscall s ≠ .refused r := by
  unfold execSyscall
  split
  · nofun
  · unfold printString
    split
    · nofun
    · exact raise_ne_refused _ _ _ _
  · nofun
  · nofun
  · exact raise_ne_refused _ _ _ _

theorem exec_ne_refused (i : Instr) (s : State) (r : Refusal) : exec i s ≠ .refused r := by
  cases i with
  | add | sub | and | or | slt | sll | srl | addi | slti | jr | j | jal => nofun
  | beq rs rt =>
    change branchIf _ _ s ≠ _
    cases wordsEqual (s.readReg rs) (s.readReg rt) <;> nofun
  | bne rs rt =>
    change branchIf _ _ s ≠ _
    cases wordsEqual (s.readReg rs) (s.readReg rt) <;> nofun
  | lw =>
    change execLw _ _ _ s ≠ _
    unfold execLw
    split
    · nofun
    · exact raise_ne_refused _ _ _ _
  | sw =>
    change execSw _ _ _ s ≠ _
    unfold execSw
    split
    · nofun
    · exact raise_ne_refused _ _ _ _
  | syscall => exact execSyscall_ne_refused s r

/-- Settles O34: neither a raise nor an instruction refuses, and `complete` adds no refusal. -/
theorem stepNeverRefuses : Obligations.StepNeverRefuses := by
  intro s r h
  unfold step at h
  split at h
  · exact raise_ne_refused _ _ _ _ h
  · next w m hf =>
    split at h
    · exact raise_ne_refused _ _ _ _ h
    · next i hd =>
      cases hexec : exec i (beginExecute s w m) with
      | next u => rw [hexec] at h; cases h
      | fault f => rw [hexec] at h; cases h
      | refused q => exact exec_ne_refused _ _ _ hexec

/-! What an instruction that answers leaves, in any state. -/

/-- The configuration, HI and LO stay (R105, R107), no register but the destination changes (R102), and only Syscall
appends to the output, one event at most (R113, R801). -/
structure ExecFrame (i : Instr) (s t : State) : Prop where
  fixed : sameFixed s t
  regs : ∀ r, destination i ≠ some r → t.readReg r = s.readReg r
  output : ∃ events, t.output = s.output ++ events ∧ events.length ≤ 1 ∧ (i ≠ .syscall → events = [])

/-- The frame of an instruction that leaves the output as it was. -/
theorem ExecFrame.of_output_eq {i : Instr} {s t : State} (fixed : sameFixed s t)
    (regs : ∀ r, destination i ≠ some r → t.readReg r = s.readReg r) (output : t.output = s.output) : ExecFrame i s t :=
  ⟨fixed, regs, [], by rw [output, List.append_nil], Nat.zero_le _, fun _ => rfl⟩

/-- The frame of an instruction that writes `rd` and may then move pc, replace the cache and count. -/
theorem ExecFrame.of_writeReg {i : Instr} {s t : State} {rd : RegIndex} {v : Word} (hdest : destination i = some rd)
    (fixed : sameFixed s t) (regs : ∀ r, t.readReg r = (s.writeReg rd v).readReg r) (output : t.output = s.output) :
    ExecFrame i s t := by
  refine .of_output_eq fixed (fun r hr => ?_) output
  have hne : r ≠ rd := fun e => hr (by rw [hdest, e])
  rw [regs, readReg_writeReg_other s v hne]

theorem writeResult_frame {i : Instr} {rd : RegIndex} {v : Word} {s t : State} (hdest : destination i = some rd)
    (h : writeResult rd v s = .next t) : ExecFrame i s t := by
  cases h
  exact .of_writeReg hdest (by simp [sameFixed]) (fun r => readReg_finish _ _ r) (by simp)

theorem transferTo_frame {i : Instr} {target : Word} {s t : State} (h : transferTo target s = .next t) :
    ExecFrame i s t := by
  cases h
  exact .of_output_eq ⟨rfl, rfl, rfl⟩ (fun _ _ => rfl) rfl

theorem branchIf_frame {i : Instr} {taken : Bool} {imm : BitVec 16} {s t : State} (h : branchIf taken imm s = .next t) :
    ExecFrame i s t := by
  cases taken with
  | true => exact transferTo_frame h
  | false =>
    cases h
    exact .of_output_eq ⟨rfl, rfl, rfl⟩ (fun _ _ => rfl) rfl

theorem printEvent_frame (e : Event) (s : State) : ExecFrame .syscall s ((s.emit e).finish false) :=
  ⟨⟨rfl, rfl, rfl⟩, fun _ _ => rfl, [e], rfl, Nat.le_refl _, fun h => absurd rfl h⟩

theorem exec_frame {i : Instr} {s t : State} (h : exec i s = .next t) : ExecFrame i s t := by
  cases i with
  | add | sub | and | or | slt | sll | srl | addi | slti => exact writeResult_frame rfl h
  | jr | j => exact transferTo_frame h
  | jal =>
    cases h
    exact .of_writeReg rfl (by simp [sameFixed]) (fun _ => rfl) (by simp)
  | beq | bne => exact branchIf_frame h
  | lw =>
    obtain ⟨v, m, -, rfl⟩ := execLw_next h
    refine .of_writeReg (v := v) rfl (by simp [sameFixed]) (fun r => ?_) (by simp)
    rw [readReg_finish, readReg_countLoad, writeReg_setMsys, readReg_setMsys]
  | sw =>
    obtain ⟨m, -, rfl⟩ := execSw_next h
    exact .of_output_eq ⟨rfl, rfl, rfl⟩ (fun _ _ => rfl) rfl
  | syscall =>
    rcases execSyscall_next h with ⟨-, rfl⟩ | ⟨-, bytes, -, rfl⟩ | ⟨-, rfl⟩ | ⟨-, rfl⟩
    · exact printEvent_frame _ s
    · exact printEvent_frame _ s
    · exact .of_output_eq ⟨rfl, rfl, rfl⟩ (fun _ _ => rfl) rfl
    · exact printEvent_frame _ s

@[simp] theorem readReg_advance (s : State) (r : RegIndex) : (advance s).readReg r = s.readReg r := by
  rw [advance_frame]
  rfl

@[simp] theorem advance_output (s : State) : (advance s).output = s.output := by rw [advance_frame]

theorem sameFixed_advance {s u : State} (h : sameFixed s u) : sameFixed s (advance u) := by
  rw [advance_frame]
  exact h

/-- A step that goes on has the frame of the instruction it fetched. -/
theorem step_frame {s t : State} {w : Word} {m : MemSys} {i : Instr} (hf : fetch s = .done w m)
    (hd : decode w = .instr i) (h : step s = .next t) : ExecFrame i s t := by
  rw [step_of_fetch_decode hf hd] at h
  obtain ⟨u, hu, rfl⟩ := complete_next h
  obtain ⟨hfixed, hregs, houtput⟩ := exec_frame hu
  refine ⟨sameFixed_advance hfixed, fun r hr => ?_, ?_⟩
  · rw [readReg_advance, hregs r hr, readReg_beginExecute]
  · rw [advance_output]
    exact houtput

/-- Settles O39: a step that goes on has its instruction's frame, and a fault leaves the state it is raised in. -/
theorem hiLoAndConfigurationNeverChange : Obligations.HiLoAndConfigurationNeverChange := by
  refine fun s => ⟨fun t ht => ?_, fun f hf => ?_⟩
  · obtain ⟨w, m, i, u, hfetch, hd, -, -⟩ := step_next ht
    exact (step_frame hfetch hd ht).fixed
  · obtain ⟨w, m, hr, -⟩ := step_raisedIn hf
    rw [hr]
    exact ⟨rfl, rfl, rfl⟩

/-- Settles O40: the registers' part of the frame. -/
theorem onlyTheDestinationRegisterChanges : Obligations.OnlyTheDestinationRegisterChanges :=
  fun _ _ _ _ _ hf hd h => (step_frame hf hd h).regs

/-- Settles O41: the output's part of the frame. -/
theorem onlySyscallAppendsToTheOutput : Obligations.OnlySyscallAppendsToTheOutput :=
  fun _ _ _ _ _ hf hd h => (step_frame hf hd h).output

/-! The statistics (R112). -/

/-- A word access counts four accesses and lets no counter of the cache fall. -/
theorem WordAccess.countersGrow {c : Config} {a : Word} {m m' : MemSys} (h : WordAccess c a m m') :
    m.cache.accessCounter < m'.cache.accessCounter ∧ m.cache.hits ≤ m'.cache.hits ∧
      m.cache.misses ≤ m'.cache.misses ∧ m.cache.writebacks ≤ m'.cache.writebacks := by
  have hac := h.accessCounter
  obtain ⟨-, hhits, hmisses, hwrites, -⟩ := h.counts
  exact ⟨by omega, hhits, hmisses, hwrites⟩

/-- The cache's counters do not fall in an instruction that answers. -/
theorem ExecNext.cache_grows {s u : State} (h : ExecNext s u) :
    s.msys.cache.accessCounter ≤ u.msys.cache.accessCounter ∧ s.msys.cache.hits ≤ u.msys.cache.hits ∧
      s.msys.cache.misses ≤ u.msys.cache.misses ∧ s.msys.cache.writebacks ≤ u.msys.cache.writebacks := by
  rcases h.access with hsame | ⟨a, hacc⟩
  · rw [hsame]
    exact ⟨le_rfl, le_rfl, le_rfl, le_rfl⟩
  · obtain ⟨hac, hrest⟩ := hacc.countersGrow
    exact ⟨hac.le, hrest⟩

/-- The execution statistics do not fall in an instruction and the end of its step. -/
theorem advance_stats_grow {i : Instr} {s u : State} (h : exec i s = .next u) :
    s.executed ≤ (advance u).executed ∧ s.branches ≤ (advance u).branches ∧ s.loads ≤ (advance u).loads ∧
      s.stores ≤ (advance u).stores := by
  have hs := exec_stats h
  rw [advance_loads, advance_stores, hs.loads, hs.stores]
  rcases hs.advance_cases with ⟨-, -, he, hb⟩ | ⟨-, -, he, hb⟩ | ⟨-, -, he, hb⟩ <;> omega

/-- Settles O42: the fetch counts four accesses, the instruction and the end of the step lower nothing, and a fault
leaves the state of before or after the fetch. -/
theorem statisticsOnlyIncrease : Obligations.StatisticsOnlyIncrease := by
  refine fun s hm => ⟨fun t ht => ?_, fun f hf => ?_⟩
  · obtain ⟨w, m, i, u, hfetch, -, hu, rfl⟩ := step_next ht
    obtain ⟨-, -, hacc, -⟩ := fetch_done hm hfetch
    obtain ⟨hac, hhits, hmisses, hwrites⟩ := hacc.countersGrow
    obtain ⟨hac', hhits', hmisses', hwrites'⟩ := (exec_next (s := beginExecute s w m) hacc.ok hu).cache_grows
    obtain ⟨hexecuted, hbranches, hloads, hstores⟩ := advance_stats_grow hu
    rw [countersGrow, advance_msys]
    exact ⟨⟨hexecuted, hbranches, hloads, hstores, hac.le.trans hac', hhits.trans hhits', hmisses.trans hmisses',
      hwrites.trans hwrites'⟩, hac.trans_le hac'⟩
  · rcases step_fault_sound hm hf with hr | ⟨w, m, hfetch, hr⟩
    · rw [hr]
      exact ⟨le_rfl, le_rfl, le_rfl, le_rfl, le_rfl, le_rfl, le_rfl, le_rfl⟩
    · obtain ⟨-, -, hacc, -⟩ := fetch_done hm hfetch
      obtain ⟨hac, hcache⟩ := hacc.countersGrow
      rw [hr]
      exact ⟨le_rfl, le_rfl, le_rfl, le_rfl, hac.le, hcache⟩

end Sys2Proof.Machine

/-! The cache (spec/20_memory.md): which line an access changes and how, which line it removes, and the flush. -/

namespace Sys2Proof.Machine

/-! The victim (R212). -/

/-- Settles O48: the search for an invalid way stops at the least one; without one, the search for the smallest
timestamp does. -/
theorem victimIsInvalidFirstThenOldest : Obligations.VictimIsInvalidFirstThenOldest := by
  refine fun c s => ⟨fun ⟨w0, hw0⟩ => ?_, fun hall => ?_⟩
  · obtain ⟨hinvalid, hbelow⟩ := victim_of_invalid hw0
    refine ⟨hinvalid, fun w hw => not_lt.1 fun hlt => ?_⟩
    rw [hbelow w hlt] at hw
    cases hw
  · obtain ⟨hmin, hleast⟩ := victim_of_valid hall
    exact ⟨hmin, fun w hw => hleast w fun w' => hw ▸ hmin w'⟩

/-! A byte read: the answer and the state it leaves, on a hit and on a miss (R220). -/

theorem readByte_hit {c : Config} {m : MemSys} {a : Word} {w : Fin 4} (hin : a.toNat < c.memSize)
    (hl : m.cache.lookup (setIndex a) (tagOf a) = some w) :
    m.readByte c a = .done (m.peek a) (m.tick.readHit (setIndex a) w) := by
  rw [MemSys.readByte, if_neg (Nat.not_le_of_lt hin), tick_lookup, hl, peek_hit hl]
  rfl

/-- The line a read miss installs in the state that the eviction left. -/
def filledLine (m : MemSys) (a : Word) : CacheLine :=
  { valid := true, dirty := false, tag := tagOf a, data := memBlock m a, ts := m.cache.accessCounter }

theorem readBlock_memBlock {c : Config} (hc : c.wellFormed) {a : Word} (hin : a.toNat < c.memSize) (m : MemSys) :
    m.readBlock c (tagOf a) (setIndex a) = .done (memBlock m a) m := by
  rw [MemSys.readBlock, backRead_ok _ (block_inside hc hin) (by decide)]
  rfl

theorem readByte_miss {c : Config} {m : MemSys} (h : MemOk c m) {a : Word} (hin : a.toNat < c.memSize)
    (hl : m.cache.lookup (setIndex a) (tagOf a) = none) :
    ∃ m1, Missed c a m m1 ∧ m.readByte c a = .done (m.peek a)
      (m1.putLine (setIndex a) (m.cache.victim (setIndex a)) (filledLine m1 a)) := by
  obtain ⟨m1, hstart, hm⟩ := startMiss_spec h hl
  obtain ⟨m', hread, -, -⟩ := readByte_spec h hin
  refine ⟨m1, hm, ?_⟩
  have heq := hread
  rw [MemSys.readByte, if_neg (Nat.not_le_of_lt hin), tick_lookup, hl] at heq
  simp only [hstart, andThen_done, readBlock_memBlock h.cfg hin, Access.done.injEq] at heq
  rw [hread, ← heq.2]
  rfl

/-- Settles O49: the effects are `readByte_spec`'s; the one line that changes is the stamped one on a hit
(`readByte_hit`) and the victim's on a miss (`readByte_miss`). -/
theorem readByteStampsOrFillsOneLine : Obligations.ReadByteStampsOrFillsOneLine := by
  intro c m a h hin
  obtain ⟨m', hread, hacc, -⟩ := readByte_spec h hin
  refine ⟨m', hread, hacc.ok, hacc.toByteEffects, fun s w => ?_⟩
  by_cases hsw : s = setIndex a ∧ w = wayOf m a
  · obtain ⟨rfl, rfl⟩ := hsw
    rw [if_pos ⟨rfl, rfl⟩]
    cases hl : m.cache.lookup (setIndex a) (tagOf a) with
    | some w =>
      rw [readByte_hit hin hl] at hread
      cases hread
      simp [wayOf_hit hl, MemSys.readHit]
    | none =>
      obtain ⟨m1, hm, hmiss⟩ := readByte_miss h hin hl
      rw [hmiss] at hread
      cases hread
      have hts := hm.accessCounter
      simp [wayOf_miss hl, filledLine, memBlock, hts]
  · rw [if_neg hsw]
    exact hacc.frame s w hsw

/-! A byte write (R222, R223). -/

theorem writeByte_hit {c : Config} {m : MemSys} {a : Word} {w : Fin 4} (hin : a.toNat < c.memSize) (b : Byte)
    (hl : m.cache.lookup (setIndex a) (tagOf a) = some w) :
    m.writeByte c a b = .done () (m.tick.writeHit (setIndex a) w (offsetOf a) b) := by
  rw [MemSys.writeByte, if_neg (Nat.not_le_of_lt hin), tick_lookup, hl]

/-- The line a write miss installs: `block` with the byte in place. -/
def allocatedLine (m : MemSys) (a : Word) (block : Vector Byte 32) (b : Byte) : CacheLine :=
  { valid := true, dirty := true, tag := tagOf a, data := block.set (offsetOf a).val b, ts := m.cache.accessCounter }

/-- The block a write miss starts its line from: Memory's under `Fill`, the victim way's under `NoFill`. -/
theorem allocateBlock_eq {c : Config} (hc : c.wellFormed) {a : Word} (hin : a.toNat < c.memSize) (m : MemSys)
    (w : Fin 4) : m.allocateBlock c (tagOf a) (setIndex a) w =
      .done (if c.waFill = .fill then memBlock m a else (m.cache.line (setIndex a) w).data) m := by
  unfold MemSys.allocateBlock
  cases hf : c.waFill with
  | fill => exact readBlock_memBlock hc hin m
  | noFill => rfl

theorem writeByte_miss {c : Config} {m : MemSys} (h : MemOk c m) {a : Word} (hin : a.toNat < c.memSize) (b : Byte)
    (hl : m.cache.lookup (setIndex a) (tagOf a) = none) :
    ∃ m1, Missed c a m m1 ∧ m.writeByte c a b = .done ()
      (m1.putLine (setIndex a) (m.cache.victim (setIndex a)) (allocatedLine m1 a
        (if c.waFill = .fill then memBlock m1 a
          else (m.cache.line (setIndex a) (m.cache.victim (setIndex a))).data) b)) := by
  obtain ⟨m1, hstart, hm⟩ := startMiss_spec h hl
  refine ⟨m1, hm, ?_⟩
  rw [MemSys.writeByte, if_neg (Nat.not_le_of_lt hin), tick_lookup, hl]
  simp only [hstart, andThen_done, allocateBlock_eq h.cfg hin, hm.line]
  rfl

/-- Settles O50: as O49, with the line of `writeByte_hit` and of `writeByte_miss`. -/
theorem writeByteDirtiesAndStampsOneLine : Obligations.WriteByteDirtiesAndStampsOneLine := by
  intro c m a b h hin
  obtain ⟨m', hwrite, hacc, -⟩ := writeByte_spec h hin b
  refine ⟨m', hwrite, hacc.ok, hacc.toByteEffects, fun s w => ?_⟩
  by_cases hsw : s = setIndex a ∧ w = wayOf m a
  · obtain ⟨rfl, rfl⟩ := hsw
    rw [if_pos ⟨rfl, rfl⟩]
    cases hl : m.cache.lookup (setIndex a) (tagOf a) with
    | some w =>
      obtain ⟨hvalid, htag⟩ := lookup_some hl
      rw [writeByte_hit hin b hl] at hwrite
      cases hwrite
      simp [wayOf_hit hl, MemSys.writeHit, hvalid, htag]
    | none =>
      obtain ⟨m1, hm, hmiss⟩ := writeByte_miss h hin b hl
      rw [hmiss] at hwrite
      cases hwrite
      have hts := hm.accessCounter
      simp [wayOf_miss hl, allocatedLine, memBlock, hts]
  · rw [if_neg hsw]
    exact hacc.frame s w hsw

/-! A miss: the line is present afterwards, the victim is gone, and its block is in Memory if it was dirty. -/

/-- An address of a line inside Memory is inside Memory, since `MEM_SIZE` is a multiple of 32. -/
theorem same_line_inside {c : Config} (hc : c.wellFormed) {a b : Word} (ha : a.toNat < c.memSize)
    (hline : b.toNat / 32 = a.toNat / 32) : b.toNat < c.memSize := by
  obtain ⟨hdvd, -, -⟩ := hc
  omega

/-- After a byte access every byte of its line is present (R220, R222). -/
theorem ByteAccess.line_present {c : Config} {a b : Word} {m m' : MemSys} (h : ByteAccess c a m m')
    (hline : b.toNat / 32 = a.toNat / 32) : absent m' b = false := by
  rw [absent_congr hline]
  exact absent_hit h.way

/-- Settles O45: the first read is a miss by its effects, and leaves the line present, so the second is a hit. -/
theorem readMissThenItsLineHits : Obligations.ReadMissThenItsLineHits := by
  intro c m a b h hin hl hline
  obtain ⟨m1, hread, hacc, hpeek⟩ := readByte_spec h hin
  obtain ⟨m2, hread', hacc', -⟩ := readByte_spec hacc.ok (same_line_inside h.cfg hin hline.symm)
  have habs := absent_miss hl
  have hpresent := hacc.line_present hline.symm
  have hhits := hacc.hits
  have hmisses := hacc.misses
  have hhits' := hacc'.hits
  have hmisses' := hacc'.misses
  rw [habs, Bool.toNat_true] at hhits hmisses
  rw [hpresent, Bool.toNat_false] at hhits' hmisses'
  rw [hpeek] at hread'
  refine ⟨m1, m2, hread, hmisses, Nat.add_right_cancel hhits, hread', hhits', hmisses', ?_⟩
  rw [hacc'.accessCounter, hacc.accessCounter]

/-- In a full sound set the victim is the one line of the smallest timestamp, since the timestamps differ. -/
theorem eq_victim_iff_oldest {c : Config} {m : MemSys} (h : MemOk c m) {s : Fin 64}
    (hfull : ∀ w, (m.cache.line s w).valid = true) (w : Fin 4) :
    w = m.cache.victim s ↔ ∀ w', (m.cache.line s w).ts ≤ (m.cache.line s w').ts := by
  obtain ⟨hmin, -⟩ := victim_of_valid hfull
  refine ⟨fun e => e ▸ hmin, fun hw => by_contra fun hne => ?_⟩
  exact ((h.sets s).distinct w _ hne (hfull _) (hfull _)).2 (le_antisymm (hw _) (hmin w))

/-- Settles O46: the victim's tag is in no way afterwards, every other way is as it was, and the victim is the oldest
line. -/
theorem readMissEvictsTheLeastRecentlyUsedLine : Obligations.ReadMissEvictsTheLeastRecentlyUsedLine := by
  intro c m a h hin hl hfull
  obtain ⟨m', hread, hok, -, hline⟩ := readByteStampsOrFillsOneLine c m a h hin
  refine ⟨m', hread, fun w => ?_⟩
  rw [← eq_victim_iff_oldest h hfull w]
  have hother : ∀ w', w' ≠ m.cache.victim (setIndex a) →
      m'.cache.line (setIndex a) w' = m.cache.line (setIndex a) w' := fun w' hw' => by
    rw [hline, wayOf_miss hl, if_neg fun e => hw' e.2]
  refine ⟨fun hgone => by_contra fun hw => ?_, fun hw => lookup_eq_none fun w' hv' => ?_⟩
  · have hkept : m'.cache.lookup (setIndex a) (m.cache.line (setIndex a) w).tag = some w :=
      lookup_eq_some (hok.sets _) (by rw [hother w hw]; exact hfull w) (by rw [hother w hw])
    rw [hkept] at hgone
    cases hgone
  · by_cases hw' : w' = m.cache.victim (setIndex a)
    · have hnew : (m'.cache.line (setIndex a) w').tag = tagOf a := by
        rw [hline, wayOf_miss hl, if_pos ⟨rfl, hw'⟩, hl]
        rfl
      rw [hnew]
      exact (lookup_none hl w (hfull w)).symm
    · rw [hother w' hw']
      exact ((h.sets _).distinct w' w (fun e => hw' (e.trans hw)) (hfull w') (hfull w)).1

/-- The effects of a byte access that missed, as `victimWritten` says them. -/
theorem ByteEffects.victimWritten {m m' : MemSys} {a : Word} (h : ByteEffects m m' a)
    (hl : m.cache.lookup (setIndex a) (tagOf a) = none) : victimWritten m m' (setIndex a) := by
  have hdirty := evictsDirty_of_absent (absent_miss hl)
  have hwb := h.writebacks
  unfold Sys2Proof.Machine.victimWritten
  split
  · next hvd =>
    have htrue : evictsDirty m a = true := by rw [hdirty, Bool.and_eq_true]; exact hvd
    rw [htrue] at hwb
    refine ⟨hwb, fun x => ?_⟩
    rw [h.memory]
    by_cases hx : lineBase (victimLine m (setIndex a)).tag (setIndex a) ≤ x ∧
        x - lineBase (victimLine m (setIndex a)).tag (setIndex a) < 32
    · rw [writtenBack, dif_pos ⟨htrue, hx⟩]
      simp only [victimLine] at hx ⊢
      rw [dif_pos hx, Option.getD_some]
    · rw [writtenBack, dif_neg fun e => hx e.2]
      simp only [victimLine] at hx
      rw [dif_neg hx, Option.getD_none]
  · next hvd =>
    have hfalse : evictsDirty m a = false := by
      rw [hdirty, ← Bool.not_eq_true, Bool.and_eq_true]
      exact hvd
    rw [hfalse] at hwb
    exact ⟨hwb, h.memKept hfalse⟩

/-- Settles O47: both accesses have the effects of a byte access. -/
theorem dirtyVictimIsWrittenBack : Obligations.DirtyVictimIsWrittenBack := by
  intro c m a b h hin hl
  obtain ⟨m1, hread, haccRead, -⟩ := readByte_spec h hin
  obtain ⟨m2, hwrite, haccWrite, -⟩ := writeByte_spec h hin b
  exact ⟨⟨m1, hread, haccRead.victimWritten hl⟩, m2, hwrite, haccWrite.victimWritten hl⟩

/-! The flush (R227). -/

/-- The lines of a list that a flush writes back. -/
def dirtyLines (m : MemSys) (ps : List (Fin 64 × Fin 4)) : List (Fin 64 × Fin 4) :=
  ps.filter fun p => (m.cache.line p.1 p.2).valid && (m.cache.line p.1 p.2).dirty

theorem length_dirtyLines_cons (m : MemSys) (s : Fin 64) (w : Fin 4) (ps : List (Fin 64 × Fin 4)) :
    (dirtyLines m ((s, w) :: ps)).length =
      (if (m.cache.line s w).valid && (m.cache.line s w).dirty then 1 else 0) + (dirtyLines m ps).length := by
  unfold dirtyLines
  rw [List.filter_cons]
  split <;> simp [Nat.add_comm]

/-- What flushing a list of lines leaves: exactly these lines clean, their dirty ones counted under the parameter, and
no read that sees a difference. -/
structure Flushed (c : Config) (ps : List (Fin 64 × Fin 4)) (m m' : MemSys) : Prop where
  ok : MemOk c m'
  line : ∀ s w, m'.cache.line s w =
    if (s, w) ∈ ps then { m.cache.line s w with dirty := false } else m.cache.line s w
  accessCounter : m'.cache.accessCounter = m.cache.accessCounter
  hits : m'.cache.hits = m.cache.hits
  misses : m'.cache.misses = m.cache.misses
  writebacks : m'.cache.writebacks = m.cache.writebacks + if c.flushCountsWb = true then (dirtyLines m ps).length else 0
  peek : ∀ a, m'.peek a = m.peek a

theorem flushLines_spec {c : Config} {m : MemSys} (h : MemOk c m) (ps : List (Fin 64 × Fin 4)) (hnodup : ps.Nodup) :
    ∃ m', m.flushLines c ps = .done () m' ∧ Flushed c ps m m' := by
  induction ps generalizing m with
  | nil => exact ⟨m, rfl, h, fun s w => by simp, rfl, rfl, rfl, by simp [dirtyLines], fun _ => rfl⟩
  | cons p ps ih =>
    obtain ⟨s, w⟩ := p
    obtain ⟨hnotin, hnodup⟩ := List.nodup_cons.1 hnodup
    obtain ⟨m1, hfirst, hok, hline, hac, hhits, hmisses, hwb, hpeek⟩ := flushLine_spec h s w
    obtain ⟨m2, hrest, hflushed⟩ := ih hok hnodup
    have hothers : ∀ q ∈ ps, m1.cache.line q.1 q.2 = m.cache.line q.1 q.2 := fun q hq => by
      rw [hline, if_neg]
      rintro ⟨hs, hw⟩
      exact hnotin (by rw [← hs, ← hw]; exact hq)
    have hdirty : dirtyLines m1 ps = dirtyLines m ps := List.filter_congr fun q hq => by rw [hothers q hq]
    refine ⟨m2, by rw [MemSys.flushLines, hfirst, andThen_done, hrest], hflushed.ok, fun s' w' => ?_,
      hflushed.accessCounter.trans hac, hflushed.hits.trans hhits, hflushed.misses.trans hmisses, ?_,
      fun a => (hflushed.peek a).trans (hpeek a)⟩
    · rw [hflushed.line, hline]
      simp only [List.mem_cons, Prod.mk.injEq]
      by_cases hhere : s' = s ∧ w' = w
      · simp [hhere]
      · simp only [hhere, if_false, false_or]
    · rw [hflushed.writebacks, hwb, hdirty, length_dirtyLines_cons]
      split_ifs <;> omega

theorem allLines_nodup : allLines.Nodup := by
  have hways : ways.Nodup := by decide
  exact List.Nodup.product (List.nodup_finRange 64) hways

theorem mem_allLines (s : Fin 64) (w : Fin 4) : (s, w) ∈ allLines := by
  simp [allLines, mem_ways]

/-- With every line clean, Memory shows what the cache holds. -/
theorem read_eq_peek_of_clean {c : Config} {m : MemSys} (h : MemOk c m)
    (hclean : ∀ s w, (m.cache.line s w).dirty = false) (a : Word) : m.mem.read a.toNat = m.peek a := by
  cases hl : m.cache.lookup (setIndex a) (tagOf a) with
  | none => rw [peek_miss hl]
  | some w =>
    obtain ⟨hvalid, htag⟩ := lookup_some hl
    have hdata := (h.lines _ w).clean hvalid (hclean _ w) (offsetOf a)
    rw [htag, ← address_eq] at hdata
    rw [peek_hit hl, hdata]

/-- Settles O51: the flush of the list of all lines, after which every line is clean. -/
theorem flushMakesMemoryShowTheCache : Obligations.FlushMakesMemoryShowTheCache := by
  intro c m h
  obtain ⟨m', hflush, hflushed⟩ := flushLines_spec h allLines allLines_nodup
  have hline : ∀ s w, m'.cache.line s w = { m.cache.line s w with dirty := false } := fun s w => by
    rw [hflushed.line, if_pos (mem_allLines s w)]
  refine ⟨m', hflush, hflushed.ok, hline, hflushed.accessCounter, hflushed.hits, hflushed.misses, hflushed.writebacks,
    fun a => ?_, hflushed.peek⟩
  rw [read_eq_peek_of_clean hflushed.ok (fun s w => by rw [hline]), hflushed.peek]

end Sys2Proof.Machine

/-! What a step reads and what a repeated step does (spec/40_execution_step.md R411, spec/60_exceptions.md R909). -/

namespace Sys2Proof.Machine

/-! The parameters that the cache and Memory read: `MEM_SIZE`, and for a write `WA_FILL`. -/

theorem backRead_cfg {c c' : Config} (hsize : c'.memSize = c.memSize) (n a : Nat) (mem : Memory) :
    backRead c' n a mem = backRead c n a mem := by rw [backRead, backRead, hsize]

theorem backWrite_cfg {c c' : Config} (hsize : c'.memSize = c.memSize) (n a : Nat) (bytes : Vector Byte n)
    (mem : Memory) : backWrite c' n a bytes mem = backWrite c n a bytes mem := by rw [backWrite, backWrite, hsize]

theorem startMiss_cfg {c c' : Config} (hsize : c'.memSize = c.memSize) (s : Fin 64) (m : MemSys) :
    m.startMiss c' s = m.startMiss c s := by
  simp only [MemSys.startMiss, MemSys.evict, MemSys.writeBack, backWrite_cfg hsize]

theorem readBlock_cfg {c c' : Config} (hsize : c'.memSize = c.memSize) (t : Nat) (s : Fin 64) (m : MemSys) :
    m.readBlock c' t s = m.readBlock c t s := by simp only [MemSys.readBlock, backRead_cfg hsize]

theorem readByte_cfg {c c' : Config} (hsize : c'.memSize = c.memSize) (a : Word) (m : MemSys) :
    m.readByte c' a = m.readByte c a := by
  simp only [MemSys.readByte, hsize, startMiss_cfg hsize, readBlock_cfg hsize]

theorem writeByte_cfg {c c' : Config} (hsize : c'.memSize = c.memSize) (hfill : c'.waFill = c.waFill) (a : Word)
    (b : Byte) (m : MemSys) : m.writeByte c' a b = m.writeByte c a b := by
  simp only [MemSys.writeByte, MemSys.allocateBlock, hsize, hfill, startMiss_cfg hsize, readBlock_cfg hsize]

theorem readWord_cfg {c c' : Config} (hsize : c'.memSize = c.memSize) (a : Word) (m : MemSys) :
    m.readWord c' a = m.readWord c a := by simp only [MemSys.readWord, hsize, readByte_cfg hsize]

theorem writeWord_cfg {c c' : Config} (hsize : c'.memSize = c.memSize) (hfill : c'.waFill = c.waFill) (a v : Word)
    (m : MemSys) : m.writeWord c' a v = m.writeWord c a v := by
  simp only [MemSys.writeWord, hsize, writeByte_cfg hsize hfill]

/-! The operations on the state, with another configuration. -/

theorem writeReg_withCfg (s : State) (c : Config) (i : RegIndex) (v : Word) :
    (s.withCfg c).writeReg i v = (s.writeReg i v).withCfg c := by
  unfold State.writeReg
  split <;> rfl

theorem advance_withCfg (s : State) (c : Config) : advance (s.withCfg c) = (advance s).withCfg c := by
  have hresult : (s.withCfg c).result = s.result := rfl
  unfold advance
  rw [hresult]
  split <;> rfl

theorem raise_withCfg (cause : Cause) (info : Word) (s : State) (c : Config) :
    raise cause info (s.withCfg c) = outcomeWithCfg c (raise cause info s) := by
  cases cause <;> rfl

theorem complete_withCfg (o : Host.Outcome State Fault Refusal) (c : Config) :
    complete (outcomeWithCfg c o) = outcomeWithCfg c (complete o) := by
  cases o with
  | next u => exact congrArg Host.Outcome.next (advance_withCfg u c)
  | fault f => rfl
  | refused r => rfl

theorem writeResult_withCfg (rd : RegIndex) (v : Word) (s : State) (c : Config) :
    writeResult rd v (s.withCfg c) = outcomeWithCfg c (writeResult rd v s) := by
  rw [writeResult, writeReg_withCfg]
  rfl

theorem execJal_withCfg (target : BitVec 26) (s : State) (c : Config) :
    execJal target (s.withCfg c) = outcomeWithCfg c (execJal target s) := by
  unfold execJal
  rw [writeReg_withCfg]
  rfl

theorem branchIf_withCfg (taken : Bool) (imm : BitVec 16) (s : State) (c : Config) :
    branchIf taken imm (s.withCfg c) = outcomeWithCfg c (branchIf taken imm s) := by
  cases taken <;> rfl

theorem execLw_withCfg (rt rs : RegIndex) (imm : BitVec 16) {s : State} {c : Config}
    (hsize : c.memSize = s.cfg.memSize) :
    execLw rt rs imm (s.withCfg c) = outcomeWithCfg c (execLw rt rs imm s) := by
  have hread : (s.withCfg c).msys.readWord (s.withCfg c).cfg (effectiveAddress ((s.withCfg c).readReg rs) imm) =
      s.msys.readWord s.cfg (effectiveAddress (s.readReg rs) imm) := readWord_cfg hsize _ _
  rw [execLw, execLw, hread]
  cases s.msys.readWord s.cfg (effectiveAddress (s.readReg rs) imm) with
  | done v m =>
    have hwrite : ((s.withCfg c).setMsys m).writeReg rt v = ((s.setMsys m).writeReg rt v).withCfg c :=
      writeReg_withCfg (s.setMsys m) c rt v
    dsimp only
    rw [hwrite]
    rfl
  | fault a m => exact raise_withCfg .address a (s.setMsys m) c

theorem execSw_withCfg (rt rs : RegIndex) (imm : BitVec 16) {s : State} {c : Config} (hsize : c.memSize = s.cfg.memSize)
    (hfill : c.waFill = s.cfg.waFill) :
    execSw rt rs imm (s.withCfg c) = outcomeWithCfg c (execSw rt rs imm s) := by
  have hwrite : (s.withCfg c).msys.writeWord (s.withCfg c).cfg (effectiveAddress ((s.withCfg c).readReg rs) imm)
      ((s.withCfg c).readReg rt) = s.msys.writeWord s.cfg (effectiveAddress (s.readReg rs) imm) (s.readReg rt) :=
    writeWord_cfg hsize hfill _ _ _
  rw [execSw, execSw, hwrite]
  cases s.msys.writeWord s.cfg (effectiveAddress (s.readReg rs) imm) (s.readReg rt) with
  | done u m => rfl
  | fault a m => exact raise_withCfg .address a (s.setMsys m) c

theorem printString_withCfg {s : State} {c : Config} (hsize : c.memSize = s.cfg.memSize) :
    printString (s.withCfg c) = outcomeWithCfg c (printString s) := by
  have hread : readString (s.withCfg c).cfg (s.withCfg c).msys.mem ((s.withCfg c).readReg 4#5).toNat =
      readString s.cfg s.msys.mem (s.readReg 4#5).toNat :=
    congrArg (fun n => scanString s.msys.mem (n - (s.readReg 4#5).toNat) (s.readReg 4#5).toNat) hsize
  rw [printString, printString, hread]
  cases readString s.cfg s.msys.mem (s.readReg 4#5).toNat with
  | ok bytes => rfl
  | error a => exact raise_withCfg .address _ s c

theorem execSyscall_withCfg {s : State} {c : Config} (hsize : c.memSize = s.cfg.memSize) :
    execSyscall (s.withCfg c) = outcomeWithCfg c (execSyscall s) := by
  have hcode : (s.withCfg c).readReg 2#5 = s.readReg 2#5 := rfl
  unfold execSyscall
  rw [hcode]
  split
  · rfl
  · exact printString_withCfg hsize
  · rfl
  · rfl
  · exact raise_withCfg .invalidInstruction s.fetched s c

theorem exec_withCfg (i : Instr) {s : State} {c : Config} (hsize : c.memSize = s.cfg.memSize)
    (hfill : c.waFill = s.cfg.waFill) : exec i (s.withCfg c) = outcomeWithCfg c (exec i s) := by
  cases i with
  | add | sub | and | or | slt | sll | srl | addi | slti => exact writeResult_withCfg _ _ s c
  | jr | j => rfl
  | jal target => exact execJal_withCfg target s c
  | beq | bne => exact branchIf_withCfg _ _ s c
  | lw => exact execLw_withCfg _ _ _ hsize
  | sw => exact execSw_withCfg _ _ _ hsize hfill
  | syscall => exact execSyscall_withCfg hsize

/-- Settles O43: the fetch and the instruction read those two parameters only, and the rest of the step none. -/
theorem stepReadsOnlyMemSizeAndFill : Obligations.StepReadsOnlyMemSizeAndFill := by
  intro s c hsize hfill
  have hfetch : fetch (s.withCfg c) = fetch s := readWord_cfg hsize s.pc s.msys
  cases hf : fetch s with
  | fault a m =>
    rw [step, step, hfetch, hf]
    exact raise_withCfg .address a (s.setMsys m) c
  | done w m =>
    have hf' := hfetch.trans hf
    cases hd : decode w with
    | invalid u =>
      rw [step_of_fetch_invalid hf hd, step_of_fetch_invalid hf' hd]
      exact raise_withCfg .invalidInstruction u (beginExecute s w m) c
    | instr i =>
      rw [step_of_fetch_decode hf hd, step_of_fetch_decode hf' hd, ← complete_withCfg,
        ← exec_withCfg i (s := beginExecute s w m) hsize hfill]
      rfl

/-! Accesses to lines that are present: only hits (R220). -/

theorem OnlyHits.refl (m : MemSys) : OnlyHits m m where
  mem := rfl
  line s w := ⟨(m.cache.line s w).ts, rfl, Nat.le_refl _⟩
  accessCounter := Nat.le_refl _
  hits := rfl
  misses := rfl
  writebacks := rfl

theorem OnlyHits.trans {m m' m'' : MemSys} (h : OnlyHits m m') (h' : OnlyHits m' m'') : OnlyHits m m'' where
  mem := h'.mem.trans h.mem
  line s w := by
    obtain ⟨ts, hline, hle⟩ := h.line s w
    obtain ⟨ts', hline', hle'⟩ := h'.line s w
    rw [hline] at hline' hle'
    exact ⟨ts', hline', hle.trans hle'⟩
  accessCounter := h.accessCounter.trans h'.accessCounter
  hits := by
    have hfirst := h.hits
    have hsecond := h'.hits
    omega
  misses := h'.misses.trans h.misses
  writebacks := h'.writebacks.trans h.writebacks

/-- Hits remove no line. -/
theorem OnlyHits.absent_eq {m m' : MemSys} (h : OnlyHits m m') (a : Word) : absent m' a = absent m a := by
  have hlookup : m'.cache.lookup (setIndex a) (tagOf a) = m.cache.lookup (setIndex a) (tagOf a) :=
    lookup_congr fun w => by
      obtain ⟨ts, hline, -⟩ := h.line (setIndex a) w
      rw [hline]
      exact ⟨rfl, rfl⟩
  rw [absent, absent, hlookup]

/-- A byte read of a present line: a hit, which stamps the line (`readByteStampsOrFillsOneLine`). -/
theorem readByte_present {c : Config} {m : MemSys} (h : MemOk c m) {a : Word} (hin : a.toNat < c.memSize)
    (hpresent : absent m a = false) :
    ∃ m', m.readByte c a = .done (m.peek a) m' ∧ MemOk c m' ∧ OnlyHits m m' ∧
      m'.cache.accessCounter = m.cache.accessCounter + 1 ∧ ∀ x, m'.peek x = m.peek x := by
  obtain ⟨m', hread, hok, heffects, hline⟩ := readByteStampsOrFillsOneLine c m a h hin
  obtain ⟨m'', hread', -, hpeek⟩ := readByte_spec h hin
  rw [hread] at hread'
  cases hread'
  have hclean := evictsDirty_of_present hpresent
  have hac := heffects.accessCounter
  have hhits := heffects.hits
  have hmisses := heffects.misses
  have hwb := heffects.writebacks
  rw [hpresent] at hhits hmisses
  rw [hclean] at hwb
  have hsome : (m.cache.lookup (setIndex a) (tagOf a)).isSome = true := by
    rw [← Option.not_isNone]
    exact (congrArg not hpresent).trans rfl
  refine ⟨m', hread, hok, ⟨heffects.memKept hclean, fun s w => ?_, by omega, ?_, hmisses, hwb⟩, hac, hpeek⟩
  · rw [hline]
    by_cases hsw : s = setIndex a ∧ w = wayOf m a
    · rw [if_pos hsw, if_pos hsome]
      obtain ⟨w', hw'⟩ := Option.isSome_iff_exists.1 hsome
      rw [hsw.1, hsw.2, wayOf_hit hw']
      exact ⟨_, rfl, (ts_lt_tick h (lookup_some hw').1).le⟩
    · rw [if_neg hsw]
      exact ⟨_, rfl, Nat.le_refl _⟩
  · simp only [Bool.toNat_false, Nat.add_zero] at hhits
    omega

/-- A byte access keeps every line of its own set's line or of another set present. -/
theorem ByteAccess.keeps_present {c : Config} {a y : Word} {m m' : MemSys} (h : ByteAccess c a m m')
    (hy : y.toNat / 32 = a.toNat / 32 ∨ setIndex y ≠ setIndex a) (hpresent : absent m y = false) :
    absent m' y = false := by
  rcases hy with hline | hset
  · exact h.line_present hline
  · obtain ⟨habsent, -⟩ := access_congr (m := m) (m' := m') (y := y) (h.otherSets _ hset)
    rw [habsent, hpresent]

theorem readWord_of_bytes {c : Config} {m m0 m1 m2 m3 : MemSys} {a : Word} {b0 b1 b2 b3 : Byte}
    (hin : a.toNat + 3 < c.memSize) (e0 : m.readByte c a = .done b0 m0) (e1 : m0.readByte c (a + 1) = .done b1 m1)
    (e2 : m1.readByte c (a + 2) = .done b2 m2) (e3 : m2.readByte c (a + 3) = .done b3 m3) :
    m.readWord c a = .done (wordOfBytes b0 b1 b2 b3) m3 := by
  rw [MemSys.readWord, if_neg (Nat.not_le_of_lt hin), e0, andThen_done, e1, andThen_done, e2, andThen_done, e3,
    andThen_done]

/-- After a word read the lines of its four bytes are present. -/
theorem readWord_leaves_present {c : Config} {m m' : MemSys} (h : MemOk c m) {a v : Word}
    (hin : a.toNat + 3 < c.memSize) (hread : m.readWord c a = .done v m') :
    absent m' a = false ∧ absent m' (a + 1) = false ∧ absent m' (a + 2) = false ∧ absent m' (a + 3) = false := by
  obtain ⟨a1, a2, a3⟩ := word_addresses h.cfg hin
  obtain ⟨m0, e0, b0, -⟩ := readByte_spec h (a := a) (by omega)
  obtain ⟨m1, e1, b1, -⟩ := readByte_spec b0.ok (a := a + 1) (by omega)
  obtain ⟨m2, e2, b2, -⟩ := readByte_spec b1.ok (a := a + 2) (by omega)
  obtain ⟨m3, e3, b3, -⟩ := readByte_spec b2.ok (a := a + 3) (by omega)
  rw [readWord_of_bytes hin e0 e1 e2 e3] at hread
  cases hread
  have near : ∀ {x y : Word}, x.toNat ≤ y.toNat + 3 → y.toNat ≤ x.toNat + 3 →
      x.toNat / 32 = y.toNat / 32 ∨ setIndex x ≠ setIndex y := line_or_set
  refine ⟨?_, ?_, ?_, b3.line_present rfl⟩
  · exact b3.keeps_present (near (by omega) (by omega)) (b2.keeps_present (near (by omega) (by omega))
      (b1.keeps_present (near (by omega) (by omega)) (b0.line_present rfl)))
  · exact b3.keeps_present (near (by omega) (by omega)) (b2.keeps_present (near (by omega) (by omega))
      (b1.line_present rfl))
  · exact b3.keeps_present (near (by omega) (by omega)) (b2.line_present rfl)

/-- A word read of present lines: four hits. -/
theorem readWord_present {c : Config} {m : MemSys} (h : MemOk c m) {a : Word} (hin : a.toNat + 3 < c.memSize)
    (hpresent : absent m a = false ∧ absent m (a + 1) = false ∧ absent m (a + 2) = false ∧ absent m (a + 3) = false) :
    ∃ m', m.readWord c a = .done (m.peekWord a) m' ∧ MemOk c m' ∧ OnlyHits m m' ∧
      m'.cache.accessCounter = m.cache.accessCounter + 4 ∧ ∀ x, m'.peek x = m.peek x := by
  obtain ⟨p0, p1, p2, p3⟩ := hpresent
  obtain ⟨a1, a2, a3⟩ := word_addresses h.cfg hin
  obtain ⟨m0, e0, ok0, hits0, c0, q0⟩ := readByte_present h (a := a) (by omega) p0
  obtain ⟨m1, e1, ok1, hits1, c1, q1⟩ := readByte_present ok0 (a := a + 1) (by omega) ((hits0.absent_eq _).trans p1)
  have h01 := hits0.trans hits1
  obtain ⟨m2, e2, ok2, hits2, c2, q2⟩ := readByte_present ok1 (a := a + 2) (by omega) ((h01.absent_eq _).trans p2)
  have h02 := h01.trans hits2
  obtain ⟨m3, e3, ok3, hits3, c3, q3⟩ := readByte_present ok2 (a := a + 3) (by omega) ((h02.absent_eq _).trans p3)
  refine ⟨m3, ?_, ok3, h02.trans hits3, by omega, fun x => by rw [q3, q2, q1, q0]⟩
  rw [readWord_of_bytes hin e0 e1 e2 e3]
  simp only [MemSys.peekWord, q0, q1, q2]

/-- Fetching again where a fetch has just answered: the same word, by hits alone. -/
theorem refetch {s t : State} {w : Word} {m : MemSys} (hm : MemOk s.cfg s.msys) (hf : fetch s = .done w m)
    (hcfg : t.cfg = s.cfg) (hpc : t.pc = s.pc) (hmsys : t.msys = m) :
    ∃ m', fetch t = .done w m' ∧ MemOk s.cfg m' ∧ OnlyHits m m' ∧
      m'.cache.accessCounter = m.cache.accessCounter + 4 ∧ ∀ x, m'.peek x = m.peek x := by
  obtain ⟨hin, hw, hacc, hpeek⟩ := fetch_done hm hf
  have hword : m.peekWord s.pc = w := by simp only [hw, MemSys.peekWord, hpeek]
  obtain ⟨m', hread, hrest⟩ := readWord_present hacc.ok hin (readWord_leaves_present hm hin hf)
  refine ⟨m', ?_, hrest⟩
  rw [fetch, hcfg, hpc, hmsys, hread, hword]

/-! The instruction's own fault, as a function of what it reads. -/

/-- The cause and the information of the fault that an instruction's own check raises (R901, R902); nothing is meant by
the value for an instruction without a check. -/
def ownFault (i : Instr) (s : State) : Cause × Word :=
  match i with
  | .lw _ rs imm | .sw _ rs imm => (.address, effectiveAddress (s.readReg rs) imm)
  | .syscall =>
    if s.readReg 2#5 = 4#32 then (.address, faultAddress (max (s.readReg 4#5).toNat s.cfg.memSize))
    else (.invalidInstruction, s.fetched)
  | .add .. | .sub .. | .and .. | .or .. | .slt .. | .sll .. | .srl .. | .addi .. | .slti .. | .beq .. | .bne ..
  | .jr .. | .j .. | .jal .. => (.address, 0#32)

theorem exec_ownFault {i : Instr} {s : State} (h : ownCheckFails i s) :
    exec i s = raise (ownFault i s).1 (ownFault i s).2 s := by
  cases i with
  | add | sub | and | or | slt | sll | srl | addi | slti | jr | j | jal | beq | bne => exact absurd h id
  | lw rt rs imm =>
    have hout : s.cfg.memSize ≤ (effectiveAddress (s.readReg rs) imm).toNat + 3 := h
    rw [exec_lw_outside hout, ownFault]
  | sw rt rs imm =>
    have hout : s.cfg.memSize ≤ (effectiveAddress (s.readReg rs) imm).toNat + 3 := h
    rw [exec_sw_outside hout, ownFault]
  | syscall =>
    rcases h with ⟨hone, hfour, hten, heleven⟩ | ⟨hfour, hno⟩
    · rw [exec_syscall_unrecognised (by simp [hone, hfour, hten, heleven]), ownFault, if_neg hfour]
    · rw [exec_syscall_four hfour, printString_error (readString_error_iff.2 ⟨rfl, hno⟩), ownFault, if_pos hfour]

/-- Two states that give an instruction's own check the same to read: the registers, `MEM_SIZE`, the raw word and, for a
string, Memory. Neither the cache nor what the last step returned is read. -/
structure SameInputs (p q : State) : Prop where
  cfg : q.cfg = p.cfg
  regs : ∀ r, q.readReg r = p.readReg r
  fetched : q.fetched = p.fetched
  mem : q.msys.mem = p.msys.mem

theorem SameInputs.ownCheckFails_iff {p q : State} (h : SameInputs p q) (i : Instr) :
    ownCheckFails i q ↔ ownCheckFails i p := by
  cases i with
  | add | sub | and | or | slt | sll | srl | addi | slti | jr | j | jal | beq | bne => exact Iff.rfl
  | lw | sw | syscall => simp only [ownCheckFails, h.cfg, h.regs, h.mem]

theorem SameInputs.ownFault_eq {p q : State} (h : SameInputs p q) (i : Instr) : ownFault i q = ownFault i p := by
  cases i with
  | add | sub | and | or | slt | sll | srl | addi | slti | jr | j | jal | beq | bne => rfl
  | lw | sw | syscall => simp only [ownFault, h.cfg, h.regs, h.fetched]

theorem complete_raise (cause : Cause) (info : Word) (s : State) :
    complete (raise cause info s) = raise cause info s := by
  cases cause <;> rfl

/-- A step that faults after its fetch raises in the state `execute` started from, and so does, with the same record,
any step that fetches the same word and gives the instruction the same to read. -/
theorem step_fault_again {s t : State} {w : Word} {m m' : MemSys} {f : Fault} (hm : MemOk s.cfg s.msys)
    (hf : fetch s = .done w m) (h : step s = .fault f) (hf' : fetch t = .done w m')
    (hsame : SameInputs (beginExecute s w m) (beginExecute t w m')) :
    ∃ cause info, step s = raise cause info (beginExecute s w m) ∧ step t = raise cause info (beginExecute t w m') := by
  cases hd : decode w with
  | invalid u => exact ⟨_, _, step_of_fetch_invalid hf hd, step_of_fetch_invalid hf' hd⟩
  | instr i =>
    rw [step_of_fetch_decode hf hd] at h ⊢
    have hown := (exec_fault_iff (s := beginExecute s w m) (fetch_done_sound hm hf).1 i).1 ⟨f, complete_fault h⟩
    have hown' := (hsame.ownCheckFails_iff i).2 hown
    refine ⟨(ownFault i (beginExecute s w m)).1, (ownFault i (beginExecute s w m)).2, ?_, ?_⟩
    · rw [exec_ownFault hown, complete_raise]
    · rw [step_of_fetch_decode hf' hd, exec_ownFault hown', complete_raise, hsame.ownFault_eq]

/-- The state a fault after the fetch leaves, stepped again: the same word by hits, and the same fault. -/
theorem step_after_fault {s : State} {w : Word} {m : MemSys} {f : Fault} (hm : MemOk s.cfg s.msys)
    (hf : fetch s = .done w m) (h : step s = .fault f) :
    ∃ g, step (faultAfter f) = .fault g ∧ faultRecord g = faultRecord f ∧ repeats (faultAfter f) (faultAfter g) := by
  obtain ⟨m', hf', -, hhits, -, hpeek⟩ := refetch (t := (beginExecute s w m).setResult .faulted) hm hf rfl rfl rfl
  obtain ⟨cause, info, hstep, hstep'⟩ := step_fault_again hm hf h hf' ⟨rfl, fun _ => rfl, rfl, hhits.mem⟩
  obtain ⟨f', hraise, hrecord, hafter⟩ := raise_faults cause info (beginExecute s w m)
  obtain ⟨g, hraise', hrecord', hafter'⟩ :=
    raise_faults cause info (beginExecute ((beginExecute s w m).setResult .faulted) w m')
  rw [h, hraise] at hstep
  cases hstep
  have hstate : faultAfter f = (beginExecute s w m).setResult .faulted := hafter
  rw [hstate]
  refine ⟨g, hstep'.trans hraise', hrecord'.trans hrecord.symm, ?_⟩
  rw [hafter']
  exact ⟨rfl, hhits, hpeek⟩

/-- A fault of the fetch, stepped again. -/
theorem step_after_fetch_fault {s : State} {f : Fault} (hp : s.cfg.memSize ≤ s.pc.toNat + 3) (h : step s = .fault f) :
    ∃ g, step (faultAfter f) = .fault g ∧ faultRecord g = faultRecord f ∧ repeats (faultAfter f) (faultAfter g) := by
  rw [step_outside hp] at h
  cases h
  exact ⟨_, step_outside (s := s.setResult .faulted) hp, rfl, rfl, OnlyHits.refl _, fun _ => rfl⟩

/-- Settles O35: the re-fetch answers the same word by hits alone (`refetch`), and the instruction reads nothing that
these or the end of the first step changed. -/
theorem stepAfterATerminalOutcomeRepeatsIt : Obligations.StepAfterATerminalOutcomeRepeatsIt := by
  refine fun s hm => ⟨fun f h => ?_, fun t ht hend => ?_⟩
  · obtain ⟨hregs, hpc, -⟩ := faultsArePrecise s f h
    refine ⟨hregs, hpc, ?_⟩
    by_cases hp : s.pc.toNat + 3 < s.cfg.memSize
    · obtain ⟨m, hf, -⟩ := fetch_inside hm hp
      exact step_after_fault hm hf h
    · exact step_after_fetch_fault (Nat.le_of_not_lt hp) h
  · obtain ⟨w, m, i, u, hf, hd, hu, rfl⟩ := step_next ht
    rw [advance_result] at hend
    obtain ⟨rfl, hcode, rfl⟩ := exec_programEnd hu hend
    rw [advance_programEnd rfl]
    obtain ⟨m', hf', -, hhits, hac, hpeek⟩ :=
      refetch (t := (beginExecute s w m).setResult .programEnd) hm hf rfl rfl rfl
    exact ⟨fun _ => rfl, rfl, _, syscallTenEndsTheProgram.2 _ w m' hf' hd hcode, rfl, ⟨rfl, hhits, hpeek⟩, hac⟩

end Sys2Proof.Machine

/-! The host's operations (spec/10_state.md R131, spec/70_reset_and_hazards.md R1001 to R1011). -/

namespace Sys2Proof.Machine

/-- Settles O54: the register vector is `readReg` at each index, and the rest is read off. -/
theorem queryReturnsTheArchitecturalState : Obligations.QueryReturnsTheArchitecturalState := by
  refine fun s => ⟨fun i => ?_, ?_, rfl, rfl, rfl, rfl, rfl, rfl, rfl, rfl, rfl, rfl, rfl⟩
  · have hindex : BitVec.ofNat 5 i.toNat = i := by rw [BitVec.ofNat_toNat, BitVec.setWidth_eq]
    simp only [query, Vector.getElem_ofFn, hindex]
  · simp [query]

/-! `load` (R1001). -/

theorem load_after_step (words : List Word) {s : State} (h : s.result ≠ .notStarted) :
    load words s = .refused .loadAfterStep := if_pos h

/-- A step that goes on leaves a result that says so. -/
theorem step_next_started {s t : State} (h : step s = .next t) : t.result ≠ .notStarted := by
  obtain ⟨w, m, i, u, -, -, hu, rfl⟩ := step_next h
  rw [advance_result]
  rcases (exec_stats hu).ends with ⟨hr, -⟩ | hr | ⟨hr, -⟩ <;> rw [hr] <;> nofun

/-- Settles O56: no step leaves `notStarted`. -/
theorem loadIsRefusedAfterAnyStep : Obligations.LoadIsRefusedAfterAnyStep := by
  refine fun s words => ⟨fun t h => load_after_step words (step_next_started h), fun f h => load_after_step words ?_⟩
  obtain ⟨w, m, hr, -⟩ := step_raisedIn h
  rw [hr, setResult_result]
  nofun

/-- The words are written from `a` up, four bytes each, little-endian, and nothing else is. -/
theorem writeWords_spec {c : Config} (words : List Word) {a : Nat} {mem : Memory} (hwf : Memory.wf mem)
    (hin : a + 4 * words.length ≤ c.memSize) :
    ∃ mem', writeWords c a words mem = .ok mem' ∧
      (∀ i (h : i < words.length), ∀ k, k < 4 → mem'.read (a + 4 * i + k) = byteOf words[i] k) ∧
      ∀ x, x < a ∨ a + 4 * words.length ≤ x → mem'.read x = mem.read x := by
  induction words generalizing a mem with
  | nil => exact ⟨mem, rfl, nofun, fun _ _ => rfl⟩
  | cons w ws ih =>
    rw [List.length_cons] at hin
    have hfirst := backWrite_ok (c := c) (leBytes w) mem (a := a) (by omega) (by decide)
    obtain ⟨hwf', hread, -⟩ := backWrite_spec hwf hfirst
    obtain ⟨mem', hrest, hwords, hother⟩ := ih hwf' (a := a + 4) (by omega)
    refine ⟨mem', by rw [writeWords, hfirst]; exact hrest, fun i h k hk => ?_, fun x hx => ?_⟩
    · cases i with
      | zero =>
        have hbyte : a ≤ a + 4 * 0 + k ∧ a + 4 * 0 + k - a < 4 := by omega
        have hindex : a + 4 * 0 + k - a = k := by omega
        rw [hother _ (.inl (by omega)), hread, dif_pos hbyte]
        simp only [hindex, leBytes_getElem w k hk, List.getElem_cons_zero]
      | succ i =>
        have haddr : a + 4 * (i + 1) + k = a + 4 + 4 * i + k := by omega
        rw [haddr, hwords i (by simpa using h) k hk, List.getElem_cons_succ]
    · rw [List.length_cons] at hx
      rw [hother x (by omega), hread, dif_neg (by omega)]

/-- Settles O52: before the first step the span check decides between the loop of writes and the fault. -/
theorem loadWritesTheProgramAtStart : Obligations.LoadWritesTheProgramAtStart := by
  refine ⟨fun s words hstart hwf hin => ?_, fun s words hstart hout => ?_, fun s words h => load_after_step words h⟩
  · obtain ⟨mem', hwrite, hwords, hother⟩ := writeWords_spec words hwf hin
    refine ⟨s.setMsys { s.msys with mem := mem' }, ?_, rfl, hwords, hother⟩
    rw [load, if_neg (not_not.2 hstart), if_neg (Nat.not_lt.2 hin), hwrite]
  · rw [load, if_neg (not_not.2 hstart), if_pos hout]
    rfl

/-! A word placed from outside (notes/assumptions/8.md). -/

/-- The four bytes are placed at four addresses, so each reads back whatever was placed after it. -/
theorem placeWord_spec {c : Config} {m : MemSys} (h : MemOk c m) {a : Word} (hin : a.toNat + 3 < c.memSize) (v : Word) :
    MemOk c (m.placeWord a v) ∧ (m.placeWord a v).peekWord a = v := by
  obtain ⟨a1, a2, a3⟩ := word_addresses h.cfg hin
  obtain ⟨ok0, p0⟩ := place_spec h (a := a) (by omega) (byteOf v 0)
  obtain ⟨ok1, p1⟩ := place_spec ok0 (a := a + 1) (by omega) (byteOf v 1)
  obtain ⟨ok2, p2⟩ := place_spec ok1 (a := a + 2) (by omega) (byteOf v 2)
  obtain ⟨ok3, p3⟩ := place_spec ok2 (a := a + 3) (by omega) (byteOf v 3)
  have hne : ∀ {x y : Word}, x.toNat < y.toNat → x ≠ y := fun hlt e => hlt.ne (congrArg BitVec.toNat e)
  have b0 : (m.placeWord a v).peek a = byteOf v 0 := by
    rw [MemSys.placeWord, p3, if_neg (hne (by omega)), p2, if_neg (hne (by omega)), p1, if_neg (hne (by omega)), p0,
      if_pos rfl]
  have b1 : (m.placeWord a v).peek (a + 1) = byteOf v 1 := by
    rw [MemSys.placeWord, p3, if_neg (hne (by omega)), p2, if_neg (hne (by omega)), p1, if_pos rfl]
  have b2 : (m.placeWord a v).peek (a + 2) = byteOf v 2 := by
    rw [MemSys.placeWord, p3, if_neg (hne (by omega)), p2, if_pos rfl]
  have b3 : (m.placeWord a v).peek (a + 3) = byteOf v 3 := by rw [MemSys.placeWord, p3, if_pos rfl]
  refine ⟨ok3, ?_⟩
  rw [MemSys.peekWord, b0, b1, b2, b3, wordOfBytes_byteOf]

theorem fetch_withFetchWord (s : State) (nbits w : Nat) : fetch (s.withFetchWord nbits w) =
    (s.msys.placeWord s.pc (tableWord nbits w)).readWord s.cfg s.pc := by
  rw [fetch, State.withFetchWord, setMsys_msys, setMsys_cfg, setMsys_pc]

/-- Settles O55: placing keeps the cache sound, and the fetch answers the word the view shows. -/
theorem placedWordIsFetched : Obligations.PlacedWordIsFetched := by
  intro s nbits w hm hin
  obtain ⟨hok, hword⟩ := placeWord_spec hm hin (tableWord nbits w)
  obtain ⟨m, hread, -, -⟩ := readWord_spec hok hin
  refine ⟨m, ?_⟩
  rw [fetch_withFetchWord, hread, hword, tableWord]

/-! `run` (R1010, R1011). -/

/-- What the loop of `run` may return with `left` steps still allowed. -/
def EndsWithin (left : Nat) (s : State) : RunOutcome → Prop
  | .halted t => t.pc = s.cfg.haltAddr ∧ ∃ n, n ≤ left ∧ stepsTo n s t ∧ t.executed = s.executed + n
  | .ended t => t.result = .programEnd ∧ ∃ n u, n < left ∧ stepsTo n s u ∧ u.pc ≠ s.cfg.haltAddr ∧ step u = .next t ∧
      t.executed = s.executed + n
  | .boundReached t => t.pc ≠ s.cfg.haltAddr ∧ stepsTo left s t ∧ t.executed = s.executed + left
  | .fault f => ∃ n u, n < left ∧ stepsTo n s u ∧ u.pc ≠ s.cfg.haltAddr ∧ step u = .fault f ∧
      (faultAfter f).executed = s.executed + n
  | .refused _ => False

/-- A round of the loop completes one instruction or ends the program (R406, R804). -/
theorem step_executed {s t : State} (h : step s = .next t) :
    t.executed = s.executed + if t.result = .programEnd then 0 else 1 := by
  obtain ⟨hnext, -⟩ := stepAdvancesPcAndStatistics
  obtain ⟨w, m, i, u, -, -, -, hr, hcases, -⟩ := hnext s t h
  rw [hr]
  rcases hcases with ⟨hu, -, he, -⟩ | ⟨hu, -, he, -⟩ | ⟨hu, -, he, -⟩
  · rw [hu, he, if_neg nofun]
  · rw [hu, he, if_neg nofun]
  · rw [hu, he, if_pos rfl, Nat.add_zero]

/-- One more round in front. -/
theorem EndsWithin.round {left : Nat} {s u : State} {o : RunOutcome} (hpc : s.pc ≠ s.cfg.haltAddr)
    (hstep : step s = .next u) (hgo : u.result ≠ .programEnd) (h : EndsWithin left u o) :
    EndsWithin (left + 1) s o := by
  have hexecuted := step_executed hstep
  rw [if_neg hgo] at hexecuted
  obtain ⟨hcfg, -, -⟩ := (hiLoAndConfigurationNeverChange s).1 u hstep
  have hround : ∀ {n t}, stepsTo n u t → stepsTo (n + 1) s t := fun hsteps => ⟨hpc, u, hstep, hgo, hsteps⟩
  cases o with
  | halted t =>
    obtain ⟨hhalt, n, hn, hsteps, he⟩ := h
    exact ⟨hcfg ▸ hhalt, n + 1, by omega, hround hsteps, by omega⟩
  | ended t =>
    obtain ⟨hend, n, v, hn, hsteps, hv, hlast, he⟩ := h
    exact ⟨hend, n + 1, v, by omega, hround hsteps, hcfg ▸ hv, hlast, by omega⟩
  | boundReached t =>
    obtain ⟨hv, hsteps, he⟩ := h
    exact ⟨hcfg ▸ hv, hround hsteps, by omega⟩
  | fault f =>
    obtain ⟨n, v, hn, hsteps, hv, hlast, he⟩ := h
    exact ⟨n + 1, v, by omega, hround hsteps, hcfg ▸ hv, hlast, by omega⟩
  | refused r => exact h

theorem runLoop_at_halt (left : Nat) {s : State} (h : s.pc = s.cfg.haltAddr) : runLoop left s = .halted s := by
  cases left <;> simp only [runLoop, h, if_true]

/-- The loop of `run`, by induction on the steps it may still take. -/
theorem runLoop_endsWithin (left : Nat) (s : State) : EndsWithin left s (runLoop left s) := by
  induction left generalizing s with
  | zero =>
    by_cases hpc : s.pc = s.cfg.haltAddr
    · rw [runLoop_at_halt 0 hpc]
      exact ⟨hpc, 0, Nat.le_refl 0, rfl, rfl⟩
    · rw [runLoop, if_neg hpc]
      exact ⟨hpc, rfl, rfl⟩
  | succ left ih =>
    by_cases hpc : s.pc = s.cfg.haltAddr
    · rw [runLoop_at_halt (left + 1) hpc]
      exact ⟨hpc, 0, Nat.zero_le _, rfl, rfl⟩
    · rw [runLoop, if_neg hpc]
      cases hstep : step s with
      | next u =>
        by_cases hend : u.result = .programEnd
        · have hexecuted := step_executed hstep
          rw [if_pos hend] at hexecuted
          simp only [hend, if_true]
          exact ⟨hend, 0, s, Nat.succ_pos left, rfl, hpc, hstep, hexecuted⟩
        · simp only [hend, if_false]
          exact EndsWithin.round hpc hstep hend (ih u)
      | fault f =>
        obtain ⟨-, hfault⟩ := stepAdvancesPcAndStatistics
        exact ⟨0, s, Nat.succ_pos left, rfl, hpc, hstep, (hfault s f hstep).1⟩
      | refused r => exact absurd hstep (stepNeverRefuses s r)

/-- Settles O53: `run` is its loop with `MAX_STEPS` steps allowed. -/
theorem runEndsAsItsOutcomeSays : Obligations.RunEndsAsItsOutcomeSays := by
  refine fun s => ⟨?_, fun h => runLoop_at_halt s.cfg.maxSteps h⟩
  have hrun : EndsWithin s.cfg.maxSteps s (run s) := runLoop_endsWithin s.cfg.maxSteps s
  cases h : run s with
  | halted t | ended t | boundReached t | fault f | refused r =>
    rw [h] at hrun
    exact hrun

end Sys2Proof.Machine
